-- ==== Sys2Proof/Word.lean ====
section
/-! DEFINITION. The word and byte types of the core (spec/00_scope.md R7: 32-bit words, registers and
addresses; spec/20_memory.md R45: byte addresses). -/

namespace Sys2Proof

/-- A 32-bit word: a register value, an instruction word or an address (R7, R10). -/
abbrev Word := BitVec 32

/-- One byte of memory (R45). -/
abbrev Byte := BitVec 8

end Sys2Proof
end

