-- ==== Sys2Proof/Machine/Bits.lean ====
section
/-! DEFINITION. The stateless bit layer of spec/00_scope.md R10 and R14 (the source's BitOps), the
FieldMask of spec/30_encoding.md R67, and the little-endian byte order of spec/20_memory.md R48, R49. -/

namespace Sys2Proof.Bits

/-- `mask(n) = 2^n - 1` (R14), for `0 ≤ n ≤ 31`. -/
def mask (n : Fin 32) : Word := BitVec.ofNat 32 (2 ^ n.val - 1)

/-- `bit(i, v) = v[i]` (R14).  A bit index outside 0 to 31 is no term of the model (R15). -/
def bit (i : Fin 32) (v : Word) : Bool := v.getLsbD i

/-- `setbit(v, i, b)`: `v` with bit `i` replaced by `b` (R14). -/
def setbit (v : Word) (i : Fin 32) (b : Bool) : Word :=
  if b then v ||| (1#32 <<< i.val) else v &&& ~~~(1#32 <<< i.val)

/-- `clearbit(v, i)` (R14). -/
def clearbit (v : Word) (i : Fin 32) : Word := setbit v i false

/-- A number as a bit index, refused outside 0 to 31 (R15). -/
def bitIndex (i : Nat) : Option (Fin 32) := if h : i < 32 then some ⟨i, h⟩ else none

/-- `sext_N(v)` (R10). -/
def sext {n : Nat} (v : BitVec n) : Word := v.signExtend 32

/-- `zext_N(v)` (R10). -/
def zext {n : Nat} (v : BitVec n) : Word := v.setWidth 32

/-- `popcount(v)` (R14): the number of 1 bits. -/
def popcount (v : Word) : Nat := ((List.range 32).filter v.getLsbD).length

/-- `parsebin(s)` on the digits' bits, leftmost most significant (R14). -/
def parsebinBits (bs : List Bool) : Nat := bs.foldl (fun n b => 2 * n + b.toNat) 0

/-- `parsebin(s)` (R14); a string with a character other than `0` and `1` is refused (R15). -/
def parsebin (cs : List Char) : Option Nat :=
  if cs.all (fun c => c == '0' || c == '1') then some (parsebinBits (cs.map (· == '1'))) else none

/-- `rotateRight32(x, r)` for `0 ≤ r < 32` (R14). -/
def rotateRight32 (x : Word) (r : Nat) : Word :=
  if r = 0 then x else (x >>> r) ||| (x <<< (32 - r))

/-- A (position, length) bit field of a word, each a `uint5` (R67). -/
structure FieldMask where
  position : Fin 32
  length   : Fin 32
deriving DecidableEq, Repr

/-- `position + length ≤ 32` (R67). -/
def FieldMask.wf (m : FieldMask) : Bool := decide (m.position.val + m.length.val ≤ 32)

/-- The field mask of two numbers, refused where one is no `uint5` or their sum exceeds 32 (R15, R67). -/
def FieldMask.make (position length : Nat) : Option FieldMask :=
  if h : position < 32 ∧ length < 32 ∧ position + length ≤ 32 then some ⟨⟨position, h.1⟩, ⟨length, h.2.1⟩⟩ else none

/-- The field of one bit. -/
def FieldMask.single (i : Fin 32) : FieldMask := ⟨i, 1⟩

/-- `(1 << length) - 1` (R67). -/
def FieldMask.mask (m : FieldMask) : Word := BitVec.ofNat 32 (2 ^ m.length.val - 1)

/-- `extract(w) = (w >>> position) & mask` (R67). -/
def FieldMask.extract (m : FieldMask) (w : Word) : Word := (w >>> m.position.val) &&& m.mask

/-- `replace(w, v) = (w & ~(mask << position)) | ((v & mask) << position)` (R67). -/
def FieldMask.replace (m : FieldMask) (w v : Word) : Word :=
  (w &&& ~~~(m.mask <<< m.position.val)) ||| ((v &&& m.mask) <<< m.position.val)

/-- Byte `k` of a word in little-endian order (R48, R49). -/
def byteOf (v : Word) (k : Nat) : Byte := v.extractLsb' (8 * k) 8

/-- The word whose bytes, lowest address first, are `b0 b1 b2 b3` (R48, R49). -/
def wordOfBytes (b0 b1 b2 b3 : Byte) : Word := b3 ++ b2 ++ b1 ++ b0

/-- Bits 1:0 of an address or PC value. -/
def low2 (v : Word) : BitVec 2 := v.extractLsb' 0 2

/-- `a & ~3`: the aligned word that holds byte `a` (R52). -/
def align4 (a : Word) : Word := a &&& 0xFFFFFFFC#32

end Sys2Proof.Bits
end

