-- ==== Sys2Proof/Machine/Pattern.lean ====
section
/-! DEFINITION. The pattern mini-language of spec/30_encoding.md section 1 (R64 to R73): reading a pattern
description, compiling it, and matching a word against the compiled pattern. -/

namespace Sys2Proof

/-- A token of a pattern description (R64).  A group's characters are `0`, `1` or a wildcard. -/
inductive PatternToken where
  | literal (b : Bool)
  | group (chars : List Char)
  | field (name : List Char) (length : Nat)
deriving DecidableEq, Repr

/-- A compiled group (R68): its place, its template (leftmost character its highest bit), and its ordered
distinct wildcard symbols. -/
structure DecodeGroup where
  mask     : Bits.FieldMask
  template : List Char
deriving DecidableEq, Repr

/-- One candidate of a group (R68): a value, and the symbols assigned 1. -/
structure Candidate where
  value : Nat
  flags : List Char
deriving DecidableEq, Repr

/-- A compiled pattern: its groups, left to right, and its named fields. -/
structure Pattern where
  groups : List DecodeGroup
  fields : List (List Char × Bits.FieldMask)
deriving DecidableEq, Repr

/-- What a match returns (R73): every flag of the pattern with its Boolean, every field with its value. -/
structure FieldMap where
  flags  : List (Char × Bool)
  fields : List (List Char × Word)
deriving DecidableEq, Repr

/-- Where the reader of a description stands: between tokens, inside a group, inside a field's name, or
inside its length. -/
inductive PatternReader where
  | top
  | inGroup (chars : List Char)
  | inName (name : List Char)
  | inLength (name : List Char) (digits : Nat) (value : Nat)
deriving DecidableEq, Repr

namespace Pattern

/-- A character whose code lies from `lo` to `hi`. -/
def between (lo hi : Nat) (c : Char) : Bool := Nat.ble lo c.toNat && Nat.ble c.toNat hi

def isDigit (c : Char) : Bool := between 48 57 c

/-- A name is a letter or `_` followed by letters, digits or `_` (R64). -/
def isNameStart (c : Char) : Bool := between 97 122 c || between 65 90 c || c == '_'

def isNameChar (c : Char) : Bool := isNameStart c || isDigit c

/-- A wildcard character is any character other than `0`, `1`, `[` and `]` (R64). -/
def isWildcard (c : Char) : Bool := !(c == '0' || c == '1' || c == '[' || c == ']')

/-- Reads a description into its tokens, `none` if it is malformed (R64).  Groups and names are gathered
back to front. -/
def read : PatternReader → List Char → Option (List PatternToken)
  | .top, [] => some []
  | .inGroup _, [] => none
  | .inName _, [] => none
  | .inLength _ _ _, [] => none
  | .top, c :: cs =>
    if c = '0' then (read .top cs).map (PatternToken.literal false :: ·)
    else if c = '1' then (read .top cs).map (PatternToken.literal true :: ·)
    else if c = '[' then read (.inGroup []) cs
    else if isNameStart c then read (.inName [c]) cs
    else none
  | .inGroup chars, c :: cs =>
    if c = '[' then none
    else if c = ']' then
      if chars.isEmpty then none else (read .top cs).map (PatternToken.group chars.reverse :: ·)
    else read (.inGroup (c :: chars)) cs
  | .inName name, c :: cs =>
    if c = '(' then read (.inLength name 0 0) cs
    else if isNameChar c then read (.inName (c :: name)) cs
    else none
  | .inLength name digits value, c :: cs =>
    if c = ')' then
      if digits = 0 ∨ value = 0 ∨ 31 < value then none
      else (read .top cs).map (PatternToken.field name.reverse value :: ·)
    else if isDigit c then read (.inLength name (digits + 1) (10 * value + (c.toNat - 48))) cs
    else none

/-- A token's width (R65): brackets take no bit, a field takes its declared length. -/
def width : PatternToken → Nat
  | .literal _ => 1
  | .group chars => chars.length
  | .field _ n => n

def widths (ts : List PatternToken) : Nat := (ts.map width).sum

/-- Joins each maximal run of bare literals into one group without wildcards (R70).  `run` is the run
before the rest, back to front. -/
def joinLiterals : List Char → List PatternToken → List PatternToken
  | run, [] => if run.isEmpty then [] else [.group run.reverse]
  | run, .literal b :: ts => joinLiterals ((if b then '1' else '0') :: run) ts
  | run, t :: ts => (if run.isEmpty then [] else [.group run.reverse]) ++ t :: joinLiterals [] ts

/-- The groups, left to right, each at the position that the widths to its right give it (R65, R68); `none`
where one fits no field mask (R67, R71; log entry 17). -/
def groupsOf : List PatternToken → Option (List DecodeGroup)
  | [] => some []
  | .group chars :: ts => do
    let m ← Bits.FieldMask.make (widths ts) chars.length
    let gs ← groupsOf ts
    some (⟨m, chars⟩ :: gs)
  | _ :: ts => groupsOf ts

/-- The named fields at their positions (R65), left to right. -/
def fieldsOf : List PatternToken → Option (List (List Char × Bits.FieldMask))
  | [] => some []
  | .field name n :: ts => do
    let m ← Bits.FieldMask.make (widths ts) n
    let fs ← fieldsOf ts
    some ((name, m) :: fs)
  | _ :: ts => fieldsOf ts

/-- The compiled groups and fields of a description's tokens. -/
def ofTokens (tokens : List PatternToken) : Option Pattern := do
  let groups ← groupsOf (joinLiterals [] tokens)
  let fields ← fieldsOf tokens
  some ⟨groups, fields⟩

/-- The distinct wildcard symbols of a template, in order of first appearance from the left (R68).  `seen`
holds those met so far. -/
def symbolsFrom : List Char → List Char → List Char
  | _, [] => []
  | seen, c :: cs =>
    if isWildcard c && !seen.contains c then c :: symbolsFrom (c :: seen) cs else symbolsFrom seen cs

def symbols (template : List Char) : List Char := symbolsFrom [] template

/-- Every set of symbols that one assignment of 0 or 1 sets to 1 (R68). -/
def assignments : List Char → List (List Char)
  | [] => [[]]
  | c :: cs => assignments cs ++ (assignments cs).map (c :: ·)

/-- The template with each literal kept and each wildcard replaced by its symbol's bit, read as a number
with the leftmost character most significant (R68, R69). -/
def substitute (template flags : List Char) : Nat :=
  Bits.parsebinBits (template.map fun c => c == '1' || (isWildcard c && flags.contains c))

/-- The candidates of a group (R68). -/
def candidates (g : DecodeGroup) : List Candidate :=
  (assignments (symbols g.template)).map fun flags => ⟨substitute g.template flags, flags⟩

/-- All the flags of a pattern. -/
def flagNames (p : Pattern) : List Char := symbols (p.groups.flatMap fun g => g.template)

/-- One name is both a field and a flag (R73). -/
def nameClash (p : Pattern) : Bool := (flagNames p).any fun c => p.fields.any fun f => f.1 == [c]

/-- Compiles a description, `none` if it is malformed: not readable (R64), its widths not 32 (R66), a part that
fits no field mask (R67), or one name both a field and a flag (R73).  Two fields of one name are accepted:
DESIGN CHOICE, log entry 13. -/
def compile (description : List Char) : Option Pattern := do
  let tokens ← read .top description
  let p ← if widths tokens = 32 then ofTokens tokens else none
  if nameClash p then none else some p

/-- The candidate of a group that the word's bits have, if any (R71). -/
def matchGroup (g : DecodeGroup) (w : Word) : Option Candidate :=
  (candidates g).find? fun c => c.value == (g.mask.extract w).toNat

/-- The flags of all groups when each has a candidate (R71: all groups are mandatory). -/
def matchGroups : List DecodeGroup → Word → Option (List Char)
  | [], _ => some []
  | g :: gs, w =>
    match matchGroup g w with
    | none => none
    | some c => (matchGroups gs w).map (c.flags ++ ·)

/-- `Match(word)` (R71, R73). -/
def matchWord (p : Pattern) (w : Word) : Option FieldMap :=
  (matchGroups p.groups w).map fun flags =>
    { flags := (flagNames p).map fun c => (c, flags.contains c)
      fields := p.fields.map fun f => (f.1, f.2.extract w) }

end Pattern

/-- A flag of a match result. -/
def FieldMap.flag (f : FieldMap) (c : Char) : Bool :=
  match f.flags.find? (·.1 == c) with
  | some (_, b) => b
  | none => false

/-- A field of a match result, cut to the width its reader declares.  Where two fields of a pattern have one
name, the leftmost is read: DESIGN CHOICE, log entry 13 (R64, R73 and D5 are silent; no pattern of R90 has
such fields). -/
def FieldMap.field (f : FieldMap) (name : List Char) (n : Nat) : BitVec n :=
  match f.fields.find? (·.1 == name) with
  | some (_, v) => v.setWidth n
  | none => 0

end Sys2Proof
end

