-- ==== Sys2Proof/Syntax.lean ====
section
/-! DEFINITION. The instructions of the core: one constructor of `Instr` for each of the 29 rows of
spec/opcode_table.json, with every field the row's format gives it (spec/30_encoding.md R76 to R90). -/

namespace Sys2Proof

/-- A register number, `r0` to `r15` (R98); `r13` is SP, `r14` LR and `r15` PC. -/
inductive RegNum where
  | r0 | r1 | r2 | r3 | r4 | r5 | r6 | r7 | r8 | r9 | r10 | r11 | r12 | r13 | r14 | r15
deriving DecidableEq, Repr

/-- A condition code, in the numbering of R83. -/
inductive Cond where
  | eq | ne | cs | cc | mi | pl | vs | vc | hi | ls | ge | lt | gt | le | al | nv
deriving DecidableEq, Repr

/-- A shift type, in the numbering of R85. -/
inductive ShiftType where
  | lsl | lsr | asr | ror
deriving DecidableEq, Repr

/-- The `I` bit and `operand2` field of Format DP, by the four forms of R77.  The unsupported form keeps its
remaining bits 11:8, 6:5 and 3:0. -/
inductive Operand2 where
  | imm (rotate : BitVec 4) (immed : BitVec 8)
  | immShift (amount : BitVec 5) (type : ShiftType) (rm : RegNum)
  | regShift (rs : RegNum) (type : ShiftType) (rm : RegNum)
  | unsupported (hi : BitVec 4) (mid : BitVec 2) (lo : BitVec 4)
deriving DecidableEq, Repr

/-- The instructions (R90).  `c` is the condition field, `s` the S bit, `p`, `u` and `w` the P, U and W bits. -/
inductive Instr where
  | and (c : Cond) (s : Bool) (rn rd : RegNum) (op2 : Operand2)
  | eor (c : Cond) (s : Bool) (rn rd : RegNum) (op2 : Operand2)
  | sub (c : Cond) (s : Bool) (rn rd : RegNum) (op2 : Operand2)
  | rsb (c : Cond) (s : Bool) (rn rd : RegNum) (op2 : Operand2)
  | add (c : Cond) (s : Bool) (rn rd : RegNum) (op2 : Operand2)
  | adc (c : Cond) (s : Bool) (rn rd : RegNum) (op2 : Operand2)
  | sbc (c : Cond) (s : Bool) (rn rd : RegNum) (op2 : Operand2)
  | rsc (c : Cond) (s : Bool) (rn rd : RegNum) (op2 : Operand2)
  | tst (c : Cond) (rn : RegNum) (op2 : Operand2)
  | teq (c : Cond) (rn : RegNum) (op2 : Operand2)
  | cmp (c : Cond) (rn : RegNum) (op2 : Operand2)
  | cmn (c : Cond) (rn : RegNum) (op2 : Operand2)
  | orr (c : Cond) (s : Bool) (rn rd : RegNum) (op2 : Operand2)
  | mov (c : Cond) (s : Bool) (rd : RegNum) (op2 : Operand2)
  | bic (c : Cond) (s : Bool) (rn rd : RegNum) (op2 : Operand2)
  | mvn (c : Cond) (s : Bool) (rd : RegNum) (op2 : Operand2)
  | b (c : Cond) (offset : BitVec 24)
  | bl (c : Cond) (offset : BitVec 24)
  | strImm (c : Cond) (p u w : Bool) (rn rd : RegNum) (offset : BitVec 12)
  | strReg (c : Cond) (p u w : Bool) (rn rd : RegNum) (amount : BitVec 5) (type : ShiftType) (rm : RegNum)
  | ldrImm (c : Cond) (p u w : Bool) (rn rd : RegNum) (offset : BitVec 12)
  | ldrReg (c : Cond) (p u w : Bool) (rn rd : RegNum) (amount : BitVec 5) (type : ShiftType) (rm : RegNum)
  | strbImm (c : Cond) (p u w : Bool) (rn rd : RegNum) (offset : BitVec 12)
  | strbReg (c : Cond) (p u w : Bool) (rn rd : RegNum) (amount : BitVec 5) (type : ShiftType) (rm : RegNum)
  | ldrbImm (c : Cond) (p u w : Bool) (rn rd : RegNum) (offset : BitVec 12)
  | ldrbReg (c : Cond) (p u w : Bool) (rn rd : RegNum) (amount : BitVec 5) (type : ShiftType) (rm : RegNum)
  | cdp (c : Cond) (opc1 : BitVec 4) (crn crd cpNum : BitVec 4) (opc2 : BitVec 3) (crm : BitVec 4)
  | mcr (c : Cond) (opc1 : BitVec 3) (crn : BitVec 4) (rd : RegNum) (cpNum : BitVec 4) (opc2 : BitVec 3) (crm : BitVec 4)
  | mrc (c : Cond) (opc1 : BitVec 3) (crn : BitVec 4) (rd : RegNum) (cpNum : BitVec 4) (opc2 : BitVec 3) (crm : BitVec 4)
deriving DecidableEq, Repr

/-- The 29 entries of the instruction table, in its order (R74, R90). -/
inductive TableEntry where
  | and | eor | sub | rsb | add | adc | sbc | rsc | tst | teq | cmp | cmn | orr | mov | bic | mvn
  | b | bl | strImm | strReg | ldrImm | ldrReg | strbImm | strbReg | ldrbImm | ldrbReg | cdp | mcr | mrc
deriving DecidableEq, Repr

end Sys2Proof
end

