-- ==== Sys2Proof/Decode.lean ====
section
/-! DEFINITION. The instruction table and the decoder (spec/30_encoding.md R74 to R92), and after them the
encoder, written from the format tables R76 to R85. -/

namespace Sys2Proof

/-! ### Numberings of the fields (R83, R85) -/

def RegNum.ofBits (v : BitVec 4) : RegNum :=
  match v.toNat with
  | 0 => .r0 | 1 => .r1 | 2 => .r2 | 3 => .r3 | 4 => .r4 | 5 => .r5 | 6 => .r6 | 7 => .r7
  | 8 => .r8 | 9 => .r9 | 10 => .r10 | 11 => .r11 | 12 => .r12 | 13 => .r13 | 14 => .r14 | _ => .r15

def RegNum.toBits : RegNum → BitVec 4
  | .r0 => 0 | .r1 => 1 | .r2 => 2 | .r3 => 3 | .r4 => 4 | .r5 => 5 | .r6 => 6 | .r7 => 7
  | .r8 => 8 | .r9 => 9 | .r10 => 10 | .r11 => 11 | .r12 => 12 | .r13 => 13 | .r14 => 14 | .r15 => 15

def Cond.ofBits (v : BitVec 4) : Cond :=
  match v.toNat with
  | 0 => .eq | 1 => .ne | 2 => .cs | 3 => .cc | 4 => .mi | 5 => .pl | 6 => .vs | 7 => .vc
  | 8 => .hi | 9 => .ls | 10 => .ge | 11 => .lt | 12 => .gt | 13 => .le | 14 => .al | _ => .nv

def Cond.toBits : Cond → BitVec 4
  | .eq => 0 | .ne => 1 | .cs => 2 | .cc => 3 | .mi => 4 | .pl => 5 | .vs => 6 | .vc => 7
  | .hi => 8 | .ls => 9 | .ge => 10 | .lt => 11 | .gt => 12 | .le => 13 | .al => 14 | .nv => 15

def ShiftType.ofBits (v : BitVec 2) : ShiftType :=
  match v.toNat with
  | 0 => .lsl | 1 => .lsr | 2 => .asr | _ => .ror

def ShiftType.toBits : ShiftType → BitVec 2
  | .lsl => 0 | .lsr => 1 | .asr => 2 | .ror => 3

/-! ### The instruction table (R90) -/

/-! The field names of the patterns (R90), as the characters a description gives them. -/

def FieldName.cond : List Char := ['c', 'o', 'n', 'd']
def FieldName.rn : List Char := ['R', 'n']
def FieldName.rd : List Char := ['R', 'd']
def FieldName.operand2 : List Char := ['o', 'p', 'e', 'r', 'a', 'n', 'd', '2']
def FieldName.offset : List Char := ['o', 'f', 'f', 's', 'e', 't']
def FieldName.offset12 : List Char := ['o', 'f', 'f', 's', 'e', 't', '_', '1', '2']
def FieldName.shiftImm : List Char := ['s', 'h', 'i', 'f', 't', '_', 'i', 'm', 'm']
def FieldName.shiftType : List Char := ['s', 'h', 'i', 'f', 't', '_', 't', 'y', 'p', 'e']
def FieldName.rm : List Char := ['R', 'm']
def FieldName.opc1 : List Char := ['o', 'p', 'c', '1']
def FieldName.crn : List Char := ['C', 'R', 'n']
def FieldName.crd : List Char := ['C', 'R', 'd']
def FieldName.cpNum : List Char := ['c', 'p', '_', 'n', 'u', 'm']
def FieldName.opc2 : List Char := ['o', 'p', 'c', '2']
def FieldName.crm : List Char := ['C', 'R', 'm']

/-- One row of the instruction table: its entry, its pattern description letter for letter (R90), and the
pattern that the description compiles to (`Obligations.TableDescriptionsCompile`), made once and read-only
afterwards (R74). -/
structure TableRow where
  entry       : TableEntry
  description : String
  pattern     : Pattern
deriving DecidableEq, Repr

/-- Entries 1 to 16 (R90): Format DP (R76). -/
def dataProcessingRows : List TableRow :=
  [ ⟨.and, "cond(4)00[I]0000[S]Rn(4)Rd(4)operand2(12)",
      ⟨[⟨⟨26, 2⟩, ['0', '0']⟩, ⟨⟨25, 1⟩, ['I']⟩, ⟨⟨21, 4⟩, ['0', '0', '0', '0']⟩, ⟨⟨20, 1⟩, ['S']⟩],
       [(FieldName.cond, ⟨28, 4⟩), (FieldName.rn, ⟨16, 4⟩), (FieldName.rd, ⟨12, 4⟩), (FieldName.operand2, ⟨0, 12⟩)]⟩⟩,
    ⟨.eor, "cond(4)00[I]0001[S]Rn(4)Rd(4)operand2(12)",
      ⟨[⟨⟨26, 2⟩, ['0', '0']⟩, ⟨⟨25, 1⟩, ['I']⟩, ⟨⟨21, 4⟩, ['0', '0', '0', '1']⟩, ⟨⟨20, 1⟩, ['S']⟩],
       [(FieldName.cond, ⟨28, 4⟩), (FieldName.rn, ⟨16, 4⟩), (FieldName.rd, ⟨12, 4⟩), (FieldName.operand2, ⟨0, 12⟩)]⟩⟩,
    ⟨.sub, "cond(4)00[I]0010[S]Rn(4)Rd(4)operand2(12)",
      ⟨[⟨⟨26, 2⟩, ['0', '0']⟩, ⟨⟨25, 1⟩, ['I']⟩, ⟨⟨21, 4⟩, ['0', '0', '1', '0']⟩, ⟨⟨20, 1⟩, ['S']⟩],
       [(FieldName.cond, ⟨28, 4⟩), (FieldName.rn, ⟨16, 4⟩), (FieldName.rd, ⟨12, 4⟩), (FieldName.operand2, ⟨0, 12⟩)]⟩⟩,
    ⟨.rsb, "cond(4)00[I]0011[S]Rn(4)Rd(4)operand2(12)",
      ⟨[⟨⟨26, 2⟩, ['0', '0']⟩, ⟨⟨25, 1⟩, ['I']⟩, ⟨⟨21, 4⟩, ['0', '0', '1', '1']⟩, ⟨⟨20, 1⟩, ['S']⟩],
       [(FieldName.cond, ⟨28, 4⟩), (FieldName.rn, ⟨16, 4⟩), (FieldName.rd, ⟨12, 4⟩), (FieldName.operand2, ⟨0, 12⟩)]⟩⟩,
    ⟨.add, "cond(4)00[I]0100[S]Rn(4)Rd(4)operand2(12)",
      ⟨[⟨⟨26, 2⟩, ['0', '0']⟩, ⟨⟨25, 1⟩, ['I']⟩, ⟨⟨21, 4⟩, ['0', '1', '0', '0']⟩, ⟨⟨20, 1⟩, ['S']⟩],
       [(FieldName.cond, ⟨28, 4⟩), (FieldName.rn, ⟨16, 4⟩), (FieldName.rd, ⟨12, 4⟩), (FieldName.operand2, ⟨0, 12⟩)]⟩⟩,
    ⟨.adc, "cond(4)00[I]0101[S]Rn(4)Rd(4)operand2(12)",
      ⟨[⟨⟨26, 2⟩, ['0', '0']⟩, ⟨⟨25, 1⟩, ['I']⟩, ⟨⟨21, 4⟩, ['0', '1', '0', '1']⟩, ⟨⟨20, 1⟩, ['S']⟩],
       [(FieldName.cond, ⟨28, 4⟩), (FieldName.rn, ⟨16, 4⟩), (FieldName.rd, ⟨12, 4⟩), (FieldName.operand2, ⟨0, 12⟩)]⟩⟩,
    ⟨.sbc, "cond(4)00[I]0110[S]Rn(4)Rd(4)operand2(12)",
      ⟨[⟨⟨26, 2⟩, ['0', '0']⟩, ⟨⟨25, 1⟩, ['I']⟩, ⟨⟨21, 4⟩, ['0', '1', '1', '0']⟩, ⟨⟨20, 1⟩, ['S']⟩],
       [(FieldName.cond, ⟨28, 4⟩), (FieldName.rn, ⟨16, 4⟩), (FieldName.rd, ⟨12, 4⟩), (FieldName.operand2, ⟨0, 12⟩)]⟩⟩,
    ⟨.rsc, "cond(4)00[I]0111[S]Rn(4)Rd(4)operand2(12)",
      ⟨[⟨⟨26, 2⟩, ['0', '0']⟩, ⟨⟨25, 1⟩, ['I']⟩, ⟨⟨21, 4⟩, ['0', '1', '1', '1']⟩, ⟨⟨20, 1⟩, ['S']⟩],
       [(FieldName.cond, ⟨28, 4⟩), (FieldName.rn, ⟨16, 4⟩), (FieldName.rd, ⟨12, 4⟩), (FieldName.operand2, ⟨0, 12⟩)]⟩⟩,
    ⟨.tst, "cond(4)00[I]10001Rn(4)0000operand2(12)",
      ⟨[⟨⟨26, 2⟩, ['0', '0']⟩, ⟨⟨25, 1⟩, ['I']⟩, ⟨⟨20, 5⟩, ['1', '0', '0', '0', '1']⟩, ⟨⟨12, 4⟩, ['0', '0', '0', '0']⟩],
       [(FieldName.cond, ⟨28, 4⟩), (FieldName.rn, ⟨16, 4⟩), (FieldName.operand2, ⟨0, 12⟩)]⟩⟩,
    ⟨.teq, "cond(4)00[I]10011Rn(4)0000operand2(12)",
      ⟨[⟨⟨26, 2⟩, ['0', '0']⟩, ⟨⟨25, 1⟩, ['I']⟩, ⟨⟨20, 5⟩, ['1', '0', '0', '1', '1']⟩, ⟨⟨12, 4⟩, ['0', '0', '0', '0']⟩],
       [(FieldName.cond, ⟨28, 4⟩), (FieldName.rn, ⟨16, 4⟩), (FieldName.operand2, ⟨0, 12⟩)]⟩⟩,
    ⟨.cmp, "cond(4)00[I]10101Rn(4)0000operand2(12)",
      ⟨[⟨⟨26, 2⟩, ['0', '0']⟩, ⟨⟨25, 1⟩, ['I']⟩, ⟨⟨20, 5⟩, ['1', '0', '1', '0', '1']⟩, ⟨⟨12, 4⟩, ['0', '0', '0', '0']⟩],
       [(FieldName.cond, ⟨28, 4⟩), (FieldName.rn, ⟨16, 4⟩), (FieldName.operand2, ⟨0, 12⟩)]⟩⟩,
    ⟨.cmn, "cond(4)00[I]10111Rn(4)0000operand2(12)",
      ⟨[⟨⟨26, 2⟩, ['0', '0']⟩, ⟨⟨25, 1⟩, ['I']⟩, ⟨⟨20, 5⟩, ['1', '0', '1', '1', '1']⟩, ⟨⟨12, 4⟩, ['0', '0', '0', '0']⟩],
       [(FieldName.cond, ⟨28, 4⟩), (FieldName.rn, ⟨16, 4⟩), (FieldName.operand2, ⟨0, 12⟩)]⟩⟩,
    ⟨.orr, "cond(4)00[I]1100[S]Rn(4)Rd(4)operand2(12)",
      ⟨[⟨⟨26, 2⟩, ['0', '0']⟩, ⟨⟨25, 1⟩, ['I']⟩, ⟨⟨21, 4⟩, ['1', '1', '0', '0']⟩, ⟨⟨20, 1⟩, ['S']⟩],
       [(FieldName.cond, ⟨28, 4⟩), (FieldName.rn, ⟨16, 4⟩), (FieldName.rd, ⟨12, 4⟩), (FieldName.operand2, ⟨0, 12⟩)]⟩⟩,
    ⟨.mov, "cond(4)00[I]1101[S]0000Rd(4)operand2(12)",
      ⟨[⟨⟨26, 2⟩, ['0', '0']⟩, ⟨⟨25, 1⟩, ['I']⟩, ⟨⟨21, 4⟩, ['1', '1', '0', '1']⟩, ⟨⟨20, 1⟩, ['S']⟩, ⟨⟨16, 4⟩, ['0', '0', '0', '0']⟩],
       [(FieldName.cond, ⟨28, 4⟩), (FieldName.rd, ⟨12, 4⟩), (FieldName.operand2, ⟨0, 12⟩)]⟩⟩,
    ⟨.bic, "cond(4)00[I]1110[S]Rn(4)Rd(4)operand2(12)",
      ⟨[⟨⟨26, 2⟩, ['0', '0']⟩, ⟨⟨25, 1⟩, ['I']⟩, ⟨⟨21, 4⟩, ['1', '1', '1', '0']⟩, ⟨⟨20, 1⟩, ['S']⟩],
       [(FieldName.cond, ⟨28, 4⟩), (FieldName.rn, ⟨16, 4⟩), (FieldName.rd, ⟨12, 4⟩), (FieldName.operand2, ⟨0, 12⟩)]⟩⟩,
    ⟨.mvn, "cond(4)00[I]1111[S]0000Rd(4)operand2(12)",
      ⟨[⟨⟨26, 2⟩, ['0', '0']⟩, ⟨⟨25, 1⟩, ['I']⟩, ⟨⟨21, 4⟩, ['1', '1', '1', '1']⟩, ⟨⟨20, 1⟩, ['S']⟩, ⟨⟨16, 4⟩, ['0', '0', '0', '0']⟩],
       [(FieldName.cond, ⟨28, 4⟩), (FieldName.rd, ⟨12, 4⟩), (FieldName.operand2, ⟨0, 12⟩)]⟩⟩ ]

/-- Entries 17 and 18 (R90): Format BR (R80). -/
def branchRows : List TableRow :=
  [ ⟨.b, "cond(4)1010offset(24)",
      ⟨[⟨⟨24, 4⟩, ['1', '0', '1', '0']⟩],
       [(FieldName.cond, ⟨28, 4⟩), (FieldName.offset, ⟨0, 24⟩)]⟩⟩,
    ⟨.bl, "cond(4)1011offset(24)",
      ⟨[⟨⟨24, 4⟩, ['1', '0', '1', '1']⟩],
       [(FieldName.cond, ⟨28, 4⟩), (FieldName.offset, ⟨0, 24⟩)]⟩⟩ ]

/-- Entries 19 to 26 (R90): Formats LSI and LSR (R78, R79). -/
def loadStoreRows : List TableRow :=
  [ ⟨.strImm, "cond(4)010[PU]0[W]0Rn(4)Rd(4)offset_12(12)",
      ⟨[⟨⟨25, 3⟩, ['0', '1', '0']⟩, ⟨⟨23, 2⟩, ['P', 'U']⟩, ⟨⟨22, 1⟩, ['0']⟩, ⟨⟨21, 1⟩, ['W']⟩, ⟨⟨20, 1⟩, ['0']⟩],
       [(FieldName.cond, ⟨28, 4⟩), (FieldName.rn, ⟨16, 4⟩), (FieldName.rd, ⟨12, 4⟩), (FieldName.offset12, ⟨0, 12⟩)]⟩⟩,
    ⟨.strReg, "cond(4)011[PU]0[W]0Rn(4)Rd(4)shift_imm(5)shift_type(2)0Rm(4)",
      ⟨[⟨⟨25, 3⟩, ['0', '1', '1']⟩, ⟨⟨23, 2⟩, ['P', 'U']⟩, ⟨⟨22, 1⟩, ['0']⟩, ⟨⟨21, 1⟩, ['W']⟩, ⟨⟨20, 1⟩, ['0']⟩, ⟨⟨4, 1⟩, ['0']⟩],
       [(FieldName.cond, ⟨28, 4⟩), (FieldName.rn, ⟨16, 4⟩), (FieldName.rd, ⟨12, 4⟩), (FieldName.shiftImm, ⟨7, 5⟩), (FieldName.shiftType, ⟨5, 2⟩), (FieldName.rm, ⟨0, 4⟩)]⟩⟩,
    ⟨.ldrImm, "cond(4)010[PU]0[W]1Rn(4)Rd(4)offset_12(12)",
      ⟨[⟨⟨25, 3⟩, ['0', '1', '0']⟩, ⟨⟨23, 2⟩, ['P', 'U']⟩, ⟨⟨22, 1⟩, ['0']⟩, ⟨⟨21, 1⟩, ['W']⟩, ⟨⟨20, 1⟩, ['1']⟩],
       [(FieldName.cond, ⟨28, 4⟩), (FieldName.rn, ⟨16, 4⟩), (FieldName.rd, ⟨12, 4⟩), (FieldName.offset12, ⟨0, 12⟩)]⟩⟩,
    ⟨.ldrReg, "cond(4)011[PU]0[W]1Rn(4)Rd(4)shift_imm(5)shift_type(2)0Rm(4)",
      ⟨[⟨⟨25, 3⟩, ['0', '1', '1']⟩, ⟨⟨23, 2⟩, ['P', 'U']⟩, ⟨⟨22, 1⟩, ['0']⟩, ⟨⟨21, 1⟩, ['W']⟩, ⟨⟨20, 1⟩, ['1']⟩, ⟨⟨4, 1⟩, ['0']⟩],
       [(FieldName.cond, ⟨28, 4⟩), (FieldName.rn, ⟨16, 4⟩), (FieldName.rd, ⟨12, 4⟩), (FieldName.shiftImm, ⟨7, 5⟩), (FieldName.shiftType, ⟨5, 2⟩), (FieldName.rm, ⟨0, 4⟩)]⟩⟩,
    ⟨.strbImm, "cond(4)010[PU]1[W]0Rn(4)Rd(4)offset_12(12)",
      ⟨[⟨⟨25, 3⟩, ['0', '1', '0']⟩, ⟨⟨23, 2⟩, ['P', 'U']⟩, ⟨⟨22, 1⟩, ['1']⟩, ⟨⟨21, 1⟩, ['W']⟩, ⟨⟨20, 1⟩, ['0']⟩],
       [(FieldName.cond, ⟨28, 4⟩), (FieldName.rn, ⟨16, 4⟩), (FieldName.rd, ⟨12, 4⟩), (FieldName.offset12, ⟨0, 12⟩)]⟩⟩,
    ⟨.strbReg, "cond(4)011[PU]1[W]0Rn(4)Rd(4)shift_imm(5)shift_type(2)0Rm(4)",
      ⟨[⟨⟨25, 3⟩, ['0', '1', '1']⟩, ⟨⟨23, 2⟩, ['P', 'U']⟩, ⟨⟨22, 1⟩, ['1']⟩, ⟨⟨21, 1⟩, ['W']⟩, ⟨⟨20, 1⟩, ['0']⟩, ⟨⟨4, 1⟩, ['0']⟩],
       [(FieldName.cond, ⟨28, 4⟩), (FieldName.rn, ⟨16, 4⟩), (FieldName.rd, ⟨12, 4⟩), (FieldName.shiftImm, ⟨7, 5⟩), (FieldName.shiftType, ⟨5, 2⟩), (FieldName.rm, ⟨0, 4⟩)]⟩⟩,
    ⟨.ldrbImm, "cond(4)010[PU]1[W]1Rn(4)Rd(4)offset_12(12)",
      ⟨[⟨⟨25, 3⟩, ['0', '1', '0']⟩, ⟨⟨23, 2⟩, ['P', 'U']⟩, ⟨⟨22, 1⟩, ['1']⟩, ⟨⟨21, 1⟩, ['W']⟩, ⟨⟨20, 1⟩, ['1']⟩],
       [(FieldName.cond, ⟨28, 4⟩), (FieldName.rn, ⟨16, 4⟩), (FieldName.rd, ⟨12, 4⟩), (FieldName.offset12, ⟨0, 12⟩)]⟩⟩,
    ⟨.ldrbReg, "cond(4)011[PU]1[W]1Rn(4)Rd(4)shift_imm(5)shift_type(2)0Rm(4)",
      ⟨[⟨⟨25, 3⟩, ['0', '1', '1']⟩, ⟨⟨23, 2⟩, ['P', 'U']⟩, ⟨⟨22, 1⟩, ['1']⟩, ⟨⟨21, 1⟩, ['W']⟩, ⟨⟨20, 1⟩, ['1']⟩, ⟨⟨4, 1⟩, ['0']⟩],
       [(FieldName.cond, ⟨28, 4⟩), (FieldName.rn, ⟨16, 4⟩), (FieldName.rd, ⟨12, 4⟩), (FieldName.shiftImm, ⟨7, 5⟩), (FieldName.shiftType, ⟨5, 2⟩), (FieldName.rm, ⟨0, 4⟩)]⟩⟩ ]

/-- Entries 27 to 29 (R90): Formats CDP and MRT (R81, R82). -/
def coprocessorRows : List TableRow :=
  [ ⟨.cdp, "cond(4)1110opc1(4)CRn(4)CRd(4)cp_num(4)opc2(3)0CRm(4)",
      ⟨[⟨⟨24, 4⟩, ['1', '1', '1', '0']⟩, ⟨⟨4, 1⟩, ['0']⟩],
       [(FieldName.cond, ⟨28, 4⟩), (FieldName.opc1, ⟨20, 4⟩), (FieldName.crn, ⟨16, 4⟩), (FieldName.crd, ⟨12, 4⟩), (FieldName.cpNum, ⟨8, 4⟩), (FieldName.opc2, ⟨5, 3⟩), (FieldName.crm, ⟨0, 4⟩)]⟩⟩,
    ⟨.mcr, "cond(4)1110opc1(3)0CRn(4)Rd(4)cp_num(4)opc2(3)1CRm(4)",
      ⟨[⟨⟨24, 4⟩, ['1', '1', '1', '0']⟩, ⟨⟨20, 1⟩, ['0']⟩, ⟨⟨4, 1⟩, ['1']⟩],
       [(FieldName.cond, ⟨28, 4⟩), (FieldName.opc1, ⟨21, 3⟩), (FieldName.crn, ⟨16, 4⟩), (FieldName.rd, ⟨12, 4⟩), (FieldName.cpNum, ⟨8, 4⟩), (FieldName.opc2, ⟨5, 3⟩), (FieldName.crm, ⟨0, 4⟩)]⟩⟩,
    ⟨.mrc, "cond(4)1110opc1(3)1CRn(4)Rd(4)cp_num(4)opc2(3)1CRm(4)",
      ⟨[⟨⟨24, 4⟩, ['1', '1', '1', '0']⟩, ⟨⟨20, 1⟩, ['1']⟩, ⟨⟨4, 1⟩, ['1']⟩],
       [(FieldName.cond, ⟨28, 4⟩), (FieldName.opc1, ⟨21, 3⟩), (FieldName.crn, ⟨16, 4⟩), (FieldName.rd, ⟨12, 4⟩), (FieldName.cpNum, ⟨8, 4⟩), (FieldName.opc2, ⟨5, 3⟩), (FieldName.crm, ⟨0, 4⟩)]⟩⟩ ]

/-- The instruction table, in order (R90). -/
def instructionTable : List TableRow :=
  dataProcessingRows ++ branchRows ++ loadStoreRows ++ coprocessorRows

/-- `Match` of one row (R71). -/
def TableRow.matchWord (r : TableRow) (w : Word) : Option FieldMap := Pattern.matchWord r.pattern w

/-- The scan of a list of rows: the first row that matches, with its field map (R75). -/
def scanRows : List TableRow → Word → Option (TableEntry × FieldMap)
  | [], _ => none
  | r :: rs, w =>
    match r.matchWord w with
    | some f => some (r.entry, f)
    | none => scanRows rs w

/-- `Decode(word)` (R75): the entry and its field map, `none` for `NoMatch`. -/
def scanTable (w : Word) : Option (TableEntry × FieldMap) := scanRows instructionTable w

/-! ### From a field map to an instruction (R19, R77) -/

/-- The four forms of `operand2`, by I and bits 4 and 7 (R77). -/
def Operand2.ofFields (immediate : Bool) (v : BitVec 12) : Operand2 :=
  if immediate then .imm (v.extractLsb' 8 4) (v.extractLsb' 0 8)
  else if v.getLsbD 4 then
    if v.getLsbD 7 then .unsupported (v.extractLsb' 8 4) (v.extractLsb' 5 2) (v.extractLsb' 0 4)
    else .regShift (RegNum.ofBits (v.extractLsb' 8 4)) (ShiftType.ofBits (v.extractLsb' 5 2)) (RegNum.ofBits (v.extractLsb' 0 4))
  else .immShift (v.extractLsb' 7 5) (ShiftType.ofBits (v.extractLsb' 5 2)) (RegNum.ofBits (v.extractLsb' 0 4))

def FieldMap.cond (f : FieldMap) : Cond := Cond.ofBits (f.field FieldName.cond 4)

/-- A four-bit field that names a register. -/
def FieldMap.reg (f : FieldMap) (name : List Char) : RegNum := RegNum.ofBits (f.field name 4)

def FieldMap.operand2 (f : FieldMap) : Operand2 := Operand2.ofFields (f.flag 'I') (f.field FieldName.operand2 12)

def FieldMap.shiftType (f : FieldMap) : ShiftType := ShiftType.ofBits (f.field FieldName.shiftType 2)

/-- The instruction an entry's field map stands for. -/
def TableEntry.build : TableEntry → FieldMap → Instr
  | .and, f => .and f.cond (f.flag 'S') (f.reg FieldName.rn) (f.reg FieldName.rd) f.operand2
  | .eor, f => .eor f.cond (f.flag 'S') (f.reg FieldName.rn) (f.reg FieldName.rd) f.operand2
  | .sub, f => .sub f.cond (f.flag 'S') (f.reg FieldName.rn) (f.reg FieldName.rd) f.operand2
  | .rsb, f => .rsb f.cond (f.flag 'S') (f.reg FieldName.rn) (f.reg FieldName.rd) f.operand2
  | .add, f => .add f.cond (f.flag 'S') (f.reg FieldName.rn) (f.reg FieldName.rd) f.operand2
  | .adc, f => .adc f.cond (f.flag 'S') (f.reg FieldName.rn) (f.reg FieldName.rd) f.operand2
  | .sbc, f => .sbc f.cond (f.flag 'S') (f.reg FieldName.rn) (f.reg FieldName.rd) f.operand2
  | .rsc, f => .rsc f.cond (f.flag 'S') (f.reg FieldName.rn) (f.reg FieldName.rd) f.operand2
  | .tst, f => .tst f.cond (f.reg FieldName.rn) f.operand2
  | .teq, f => .teq f.cond (f.reg FieldName.rn) f.operand2
  | .cmp, f => .cmp f.cond (f.reg FieldName.rn) f.operand2
  | .cmn, f => .cmn f.cond (f.reg FieldName.rn) f.operand2
  | .orr, f => .orr f.cond (f.flag 'S') (f.reg FieldName.rn) (f.reg FieldName.rd) f.operand2
  | .mov, f => .mov f.cond (f.flag 'S') (f.reg FieldName.rd) f.operand2
  | .bic, f => .bic f.cond (f.flag 'S') (f.reg FieldName.rn) (f.reg FieldName.rd) f.operand2
  | .mvn, f => .mvn f.cond (f.flag 'S') (f.reg FieldName.rd) f.operand2
  | .b, f => .b f.cond (f.field FieldName.offset 24)
  | .bl, f => .bl f.cond (f.field FieldName.offset 24)
  | .strImm, f => .strImm f.cond (f.flag 'P') (f.flag 'U') (f.flag 'W') (f.reg FieldName.rn) (f.reg FieldName.rd) (f.field FieldName.offset12 12)
  | .strReg, f => .strReg f.cond (f.flag 'P') (f.flag 'U') (f.flag 'W') (f.reg FieldName.rn) (f.reg FieldName.rd) (f.field FieldName.shiftImm 5) f.shiftType (f.reg FieldName.rm)
  | .ldrImm, f => .ldrImm f.cond (f.flag 'P') (f.flag 'U') (f.flag 'W') (f.reg FieldName.rn) (f.reg FieldName.rd) (f.field FieldName.offset12 12)
  | .ldrReg, f => .ldrReg f.cond (f.flag 'P') (f.flag 'U') (f.flag 'W') (f.reg FieldName.rn) (f.reg FieldName.rd) (f.field FieldName.shiftImm 5) f.shiftType (f.reg FieldName.rm)
  | .strbImm, f => .strbImm f.cond (f.flag 'P') (f.flag 'U') (f.flag 'W') (f.reg FieldName.rn) (f.reg FieldName.rd) (f.field FieldName.offset12 12)
  | .strbReg, f => .strbReg f.cond (f.flag 'P') (f.flag 'U') (f.flag 'W') (f.reg FieldName.rn) (f.reg FieldName.rd) (f.field FieldName.shiftImm 5) f.shiftType (f.reg FieldName.rm)
  | .ldrbImm, f => .ldrbImm f.cond (f.flag 'P') (f.flag 'U') (f.flag 'W') (f.reg FieldName.rn) (f.reg FieldName.rd) (f.field FieldName.offset12 12)
  | .ldrbReg, f => .ldrbReg f.cond (f.flag 'P') (f.flag 'U') (f.flag 'W') (f.reg FieldName.rn) (f.reg FieldName.rd) (f.field FieldName.shiftImm 5) f.shiftType (f.reg FieldName.rm)
  | .cdp, f => .cdp f.cond (f.field FieldName.opc1 4) (f.field FieldName.crn 4) (f.field FieldName.crd 4) (f.field FieldName.cpNum 4) (f.field FieldName.opc2 3) (f.field FieldName.crm 4)
  | .mcr, f => .mcr f.cond (f.field FieldName.opc1 3) (f.field FieldName.crn 4) (f.reg FieldName.rd) (f.field FieldName.cpNum 4) (f.field FieldName.opc2 3) (f.field FieldName.crm 4)
  | .mrc, f => .mrc f.cond (f.field FieldName.opc1 3) (f.field FieldName.crn 4) (f.reg FieldName.rd) (f.field FieldName.cpNum 4) (f.field FieldName.opc2 3) (f.field FieldName.crm 4)

/-- The instruction of a word, `none` for `NoMatch` (R75, R91). -/
def decodeWord (w : Word) : Option Instr :=
  match scanTable w with
  | some (e, f) => some (e.build f)
  | none => none

/-- Why bytes are not an instruction: fewer than the four of R97, or a word of the NoMatch space (R91). -/
inductive DecodeReject where
  | truncated
  | noMatch
deriving DecidableEq, Repr

/-- Decodes the first instruction of a byte string, little-endian (R48, R97), with the bytes after it. -/
def decode : List Byte → Except DecodeReject (Instr × List Byte)
  | b0 :: b1 :: b2 :: b3 :: rest =>
    match decodeWord (Bits.wordOfBytes b0 b1 b2 b3) with
    | some i => .ok (i, rest)
    | none => .error .noMatch
  | _ => .error .truncated

/-- The instruction the decoder reads from a word as the opcode table numbers its bits. -/
def decodeTableWord (nbits w : Nat) : Option Instr :=
  let v : Word := BitVec.ofNat 32 (w % 2 ^ nbits)
  match decode [Bits.byteOf v 0, Bits.byteOf v 1, Bits.byteOf v 2, Bits.byteOf v 3] with
  | .ok (i, _) => some i
  | .error _ => none

/-! ### The encoder (R76 to R82) -/

/-- The I bit (R76). -/
def Operand2.immediate : Operand2 → Bool
  | .imm _ _ => true
  | _ => false

/-- The `operand2` field (R77). -/
def Operand2.toBits : Operand2 → BitVec 12
  | .imm rotate immed => rotate ++ immed
  | .immShift amount type rm => amount ++ type.toBits ++ 0#1 ++ rm.toBits
  | .regShift rs type rm => rs.toBits ++ 0#1 ++ type.toBits ++ 1#1 ++ rm.toBits
  | .unsupported hi mid lo => hi ++ 1#1 ++ mid ++ 1#1 ++ lo

def bitOf (b : Bool) : BitVec 1 := BitVec.ofBool b

/-- Format DP (R76). -/
def encodeDp (c : Cond) (opcode : BitVec 4) (s : Bool) (rn rd : BitVec 4) (op2 : Operand2) : Word :=
  c.toBits ++ 0b00#2 ++ bitOf op2.immediate ++ opcode ++ bitOf s ++ rn ++ rd ++ op2.toBits

/-- Format BR (R80). -/
def encodeBr (c : Cond) (l : BitVec 1) (offset : BitVec 24) : Word :=
  c.toBits ++ 0b101#3 ++ l ++ offset

/-- Format LSI (R78). -/
def encodeLsi (c : Cond) (p u : Bool) (b : BitVec 1) (w : Bool) (l : BitVec 1) (rn rd : RegNum) (offset : BitVec 12) : Word :=
  c.toBits ++ 0b010#3 ++ bitOf p ++ bitOf u ++ b ++ bitOf w ++ l ++ rn.toBits ++ rd.toBits ++ offset

/-- Format LSR (R79). -/
def encodeLsr (c : Cond) (p u : Bool) (b : BitVec 1) (w : Bool) (l : BitVec 1) (rn rd : RegNum) (amount : BitVec 5)
    (type : ShiftType) (rm : RegNum) : Word :=
  c.toBits ++ 0b011#3 ++ bitOf p ++ bitOf u ++ b ++ bitOf w ++ l ++ rn.toBits ++ rd.toBits ++ amount ++ type.toBits ++ 0#1 ++ rm.toBits

/-- Format CDP (R81). -/
def encodeCdp (c : Cond) (opc1 crn crd cpNum : BitVec 4) (opc2 : BitVec 3) (crm : BitVec 4) : Word :=
  c.toBits ++ 0b1110#4 ++ opc1 ++ crn ++ crd ++ cpNum ++ opc2 ++ 0#1 ++ crm

/-- Format MRT (R82). -/
def encodeMrt (c : Cond) (opc1 : BitVec 3) (l : BitVec 1) (crn : BitVec 4) (rd : RegNum) (cpNum : BitVec 4) (opc2 : BitVec 3)
    (crm : BitVec 4) : Word :=
  c.toBits ++ 0b1110#4 ++ opc1 ++ l ++ crn ++ rd.toBits ++ cpNum ++ opc2 ++ 1#1 ++ crm

/-- The word of an instruction: its format (R76 to R82) with its opcode (R84), its should-be-zero fields 0
(R94) and, for the compares, S = 1 (R90). -/
def encode : Instr → Word
  | .and c s rn rd op2 => encodeDp c 0b0000 s rn.toBits rd.toBits op2
  | .eor c s rn rd op2 => encodeDp c 0b0001 s rn.toBits rd.toBits op2
  | .sub c s rn rd op2 => encodeDp c 0b0010 s rn.toBits rd.toBits op2
  | .rsb c s rn rd op2 => encodeDp c 0b0011 s rn.toBits rd.toBits op2
  | .add c s rn rd op2 => encodeDp c 0b0100 s rn.toBits rd.toBits op2
  | .adc c s rn rd op2 => encodeDp c 0b0101 s rn.toBits rd.toBits op2
  | .sbc c s rn rd op2 => encodeDp c 0b0110 s rn.toBits rd.toBits op2
  | .rsc c s rn rd op2 => encodeDp c 0b0111 s rn.toBits rd.toBits op2
  | .tst c rn op2 => encodeDp c 0b1000 true rn.toBits 0 op2
  | .teq c rn op2 => encodeDp c 0b1001 true rn.toBits 0 op2
  | .cmp c rn op2 => encodeDp c 0b1010 true rn.toBits 0 op2
  | .cmn c rn op2 => encodeDp c 0b1011 true rn.toBits 0 op2
  | .orr c s rn rd op2 => encodeDp c 0b1100 s rn.toBits rd.toBits op2
  | .mov c s rd op2 => encodeDp c 0b1101 s 0 rd.toBits op2
  | .bic c s rn rd op2 => encodeDp c 0b1110 s rn.toBits rd.toBits op2
  | .mvn c s rd op2 => encodeDp c 0b1111 s 0 rd.toBits op2
  | .b c offset => encodeBr c 0 offset
  | .bl c offset => encodeBr c 1 offset
  | .strImm c p u w rn rd offset => encodeLsi c p u 0 w 0 rn rd offset
  | .strReg c p u w rn rd amount type rm => encodeLsr c p u 0 w 0 rn rd amount type rm
  | .ldrImm c p u w rn rd offset => encodeLsi c p u 0 w 1 rn rd offset
  | .ldrReg c p u w rn rd amount type rm => encodeLsr c p u 0 w 1 rn rd amount type rm
  | .strbImm c p u w rn rd offset => encodeLsi c p u 1 w 0 rn rd offset
  | .strbReg c p u w rn rd amount type rm => encodeLsr c p u 1 w 0 rn rd amount type rm
  | .ldrbImm c p u w rn rd offset => encodeLsi c p u 1 w 1 rn rd offset
  | .ldrbReg c p u w rn rd amount type rm => encodeLsr c p u 1 w 1 rn rd amount type rm
  | .cdp c opc1 crn crd cpNum opc2 crm => encodeCdp c opc1 crn crd cpNum opc2 crm
  | .mcr c opc1 crn rd cpNum opc2 crm => encodeMrt c opc1 0 crn rd cpNum opc2 crm
  | .mrc c opc1 crn rd cpNum opc2 crm => encodeMrt c opc1 1 crn rd cpNum opc2 crm

end Sys2Proof
end

