-- ==== Sys2Proof/Config.lean ====
section
/-! DEFINITION. What an implementation of the core fixes: the named parameters of spec/00_scope.md R8
that a model takes as arguments, and what an address of memory that is not listed reads as. -/

namespace Sys2Proof

/-- `StrPcOffset` of R8: what is added to the address of an STR whose Rd is r15 to give the stored value. -/
inductive StrPcOffset where
  | eight
  | twelve
deriving DecidableEq, Repr

/-- `RorRegLarge` of R8: which rule ROR by a register follows when the low byte of Rs is 32 or more. -/
inductive RorRegLarge where
  | doc
  | armv4
deriving DecidableEq, Repr

/-- The parameters of R8 that stay with the machine for its whole life.  `InitialMemory`, the fourth, is
the memory a launch starts from (`Machine.State.launch`). -/
structure Params where
  resetPc     : Word
  strPcOffset : StrPcOffset
  rorRegLarge : RorRegLarge
deriving DecidableEq, Repr

/-- The defaults of R8: `ResetPC` 0, `StrPcOffset` 12, `RorRegLarge` DOC. -/
def Config.defaults : Params :=
  { resetPc := 0, strPcOffset := .twelve, rorRegLarge := .doc }

/-- `StrPcOffset` as the number R159 adds to the pc. -/
def StrPcOffset.amount : StrPcOffset → Word
  | .eight => 8
  | .twelve => 12

/-- DESIGN CHOICE (log entry 2): what a byte of memory that is not listed reads as.  R46 gives every byte
a value and R8 gives `InitialMemory` no default. -/
def Config.unlistedByte : Byte := 0

end Sys2Proof
end

