-- ==== Sys2Proof/Machine/State.lean ====
section
/-! DEFINITION. The state of the core as plain data (spec/10_state.md, spec/20_memory.md), the names of its
stop outcomes (spec/60_exceptions.md R169, R170), and the state after reset (R42, R183). -/

namespace Sys2Proof.Machine

/-- The seven processor modes (R20). -/
inductive Mode where
  | usr | fiq | irq | svc | abt | und | sys
deriving DecidableEq, Repr

/-- The four condition flags (R7, R31). -/
inductive Flag where
  | n | z | c | v
deriving DecidableEq, Repr

/-- The 30 physical words of the general registers other than the program counter, by the names of R23. -/
inductive PhysReg where
  | R0 | R1 | R2 | R3 | R4 | R5 | R6 | R7
  | R8_usr | R9_usr | R10_usr | R11_usr | R12_usr
  | R8_fiq | R9_fiq | R10_fiq | R11_fiq | R12_fiq
  | R13_usr | R14_usr | R13_fiq | R14_fiq | R13_irq | R14_irq
  | R13_svc | R14_svc | R13_abt | R14_abt | R13_und | R14_und
deriving DecidableEq, Repr

/-- The five saved status registers, by their modes (R23, R37). -/
inductive SpsrBank where
  | fiq | irq | svc | abt | und
deriving DecidableEq, Repr

/-- The 37 physical words of R23. -/
inductive PhysWord where
  | gpr (p : PhysReg)
  | r15
  | cpsr
  | spsr (b : SpsrBank)
deriving DecidableEq, Repr

/-- A general register word: its value, and whether it is known (R41).  An unknown word keeps the value 0
(`Safety.lean`, `Reg.wf`), so that equal registers are equal data. -/
structure Reg where
  val   : Word
  known : Bool
deriving DecidableEq, Repr

/-- A status register: its 32 bits, and which of them are known (R31, R41).  An unknown bit keeps the
value 0. -/
structure Psr where
  val   : Word
  known : Word
deriving DecidableEq, Repr

/-- The kind of a memory access (R63). -/
inductive AccessKind where
  | fetch | read | write
deriving DecidableEq, Repr

/-- The access widths, 1 and 4 bytes (R51). -/
inductive AccessWidth where
  | byte | word
deriving DecidableEq, Repr

/-- One entry of the record of memory accesses (R63). -/
structure MemEvent where
  kind  : AccessKind
  addr  : Word
  width : AccessWidth
  value : Word
  user  : Bool
deriving DecidableEq, Repr

/-- Memory: the listed bytes, addresses strictly rising, none equal to `Config.unlistedByte` (`Memory.wf`). -/
abbrev Memory := List Host.Cell

/-- The reasons of `Unpredictable` (R170). -/
inductive Reason where
  | misalignedFetch
  | r15InRegisterShift
  | r15BaseWriteback
  | r15OffsetRegister
  | loadBaseWriteback
  | r15ByteTransfer
  | misalignedPC
  | noSPSR
  | invalidMode
  | selfModifyPrefetch
deriving DecidableEq, Repr

/-- What an `UnknownRead` names (R171): a physical word, a flag, or one bit of an SPSR. -/
inductive UnknownName where
  | word (p : PhysReg)
  | flag (f : Flag)
  | spsrBit (b : SpsrBank) (bit : Fin 32)
deriving DecidableEq, Repr

/-- The coprocessor mnemonics that `Unimplemented` names (R165). -/
inductive CoprocMnemonic where
  | cdp | mcr | mrc
deriving DecidableEq, Repr

/-- The fault outcomes of R169: an admitted word whose execution has no meaning under the spec (R172). -/
inductive Fault where
  /-- R113: raised by every matched word with condition code 15 but a coprocessor word.  Safe: the spec stops here too. -/
  | unknownCondition
  /-- R170: raised by the fetch, by data-processing instructions and by loads and stores, each under its reason.
  Safe: the spec stops here too. -/
  | unpredictable (r : Reason)
  /-- R41: raised by an instruction that reads an unknown register word, flag or SPSR bit.  Safe: the spec stops
  here too. -/
  | unknownRead (n : UnknownName)
deriving DecidableEq, Repr

/-- The refusals of R169: a word or a state the core does not model (R172). -/
inductive Refusal where
  /-- Raised by an arm of `exec` that has no meaning yet.  Safe: it claims nothing. -/
  | notModelled (mnemonic : String)
  /-- R91: raised by the step when no table entry matches the word.  Safe: the spec stops here too. -/
  | noMatch
  /-- R92: raised by a data-processing word with I = 0, bit 4 = 1 and bit 7 = 1.  Safe: the spec stops here too. -/
  | unsupportedEncoding
  /-- R165: raised by CDP, MCR and MRC.  Safe: the spec stops here too. -/
  | unimplemented (m : CoprocMnemonic)
  /-- R36: raised by a step that starts with CPSR.T = 1.  Safe: the spec stops here too. -/
  | thumbNotModelled
deriving DecidableEq, Repr

/-- A stop of either class (R13, R172). -/
inductive Stop where
  | fault (f : Fault)
  | refusal (r : Refusal)
deriving DecidableEq, Repr

/-- The whole state of the core.
* `regs`: the 30 words of `PhysReg` (R23);
* `pc`: R15, the address of the instruction being executed (R26);
* `mode`: the current mode, which CPSR.M mirrors (R33, R35);
* `cpsr`, `spsrs`: the status registers (R31, R37);
* `spsrSlot`: the SPSR that logical register SPSR last named (R35, R39);
* `mem`: memory (R45, R46);
* `events`: the accesses recorded by the step (R63);
* `params`: the parameters of R8, which nothing changes. -/
structure State where
  regs     : Vector Reg 30
  pc       : Word
  mode     : Mode
  cpsr     : Psr
  spsrs    : Vector Psr 5
  spsrSlot : SpsrBank
  mem      : Memory
  events   : List MemEvent
  params   : Params
deriving DecidableEq, Repr

/-- The launch state of R42, R183 and R185, letter for letter: pc at `ResetPC`, mode SVC, I = F = 1, T = 0,
every other register word, flag and status bit unknown, memory `InitialMemory`, no event recorded. -/
def State.launch (params : Params) (initialMemory : Memory) : State :=
  { regs := Vector.replicate 30 ⟨0, false⟩
    pc := params.resetPc
    mode := .svc
    cpsr := ⟨0x000000D3#32, 0x000000FF#32⟩
    spsrs := Vector.replicate 5 ⟨0, 0⟩
    spsrSlot := .svc
    mem := initialMemory
    events := []
    params := params }

/-- The machine right after reset: the values R42 states (pc, M, I, F, T), and the value 0, known, in every
register word, flag and status bit that R42 leaves unknown (DESIGN CHOICE, log entry 1).  It is a state
that host writes of R43 make from `State.launch Config.defaults []` (`Obligations.ResetIsHostPreparedLaunch`). -/
def State.reset : State :=
  { regs := Vector.replicate 30 ⟨0, true⟩
    pc := Config.defaults.resetPc
    mode := .svc
    cpsr := ⟨0x000000D3#32, BitVec.allOnes 32⟩
    spsrs := Vector.replicate 5 ⟨0, BitVec.allOnes 32⟩
    spsrSlot := .svc
    mem := []
    events := []
    params := Config.defaults }

end Sys2Proof.Machine
end

