-- ==== Sys2Proof/Machine/Ops.lean ====
section
/-! DEFINITION. The named operations over registers, status registers and memory (spec/10_state.md,
spec/20_memory.md, spec/00_scope.md R11, R12).  The core takes no exception: it has no trap entry, no
vector and no interrupt input (spec/60_exceptions.md R176, R177), so there is no operation that takes one;
a stop leaves the state as it was (R171).  The one return from an exception is `State.restoreCpsr` (R179). -/

namespace Sys2Proof.Machine

/-! ### Modes -/

/-- The mode encodings (R21). -/
def Mode.encoding : Mode → BitVec 5
  | .usr => 0b10000 | .fiq => 0b10001 | .irq => 0b10010 | .svc => 0b10011
  | .abt => 0b10111 | .und => 0b11011 | .sys => 0b11111

/-- The mode of an encoding; every other 5-bit value is an invalid mode (R21). -/
def Mode.ofEncoding (v : BitVec 5) : Option Mode :=
  match v.toNat with
  | 0x10 => some .usr | 0x11 => some .fiq | 0x12 => some .irq | 0x13 => some .svc
  | 0x17 => some .abt | 0x1B => some .und | 0x1F => some .sys
  | _ => none

/-- The SPSR of a mode; USR and SYS have none (R22, R24). -/
def Mode.spsr : Mode → Option SpsrBank
  | .usr => none | .sys => none
  | .fiq => some .fiq | .irq => some .irq | .svc => some .svc | .abt => some .abt | .und => some .und

/-- `hasSPSR(mode)` (R22). -/
def Mode.hasSpsr (m : Mode) : Bool := m.spsr.isSome

/-- USR is the unprivileged mode (R21, R181).  Privilege changes nothing an instruction does. -/
def Mode.privileged : Mode → Bool
  | .usr => false
  | _ => true

/-! ### The register file and banking -/

/-- The place of each physical word in `State.regs`. -/
def PhysReg.index : PhysReg → Fin 30
  | .R0 => 0 | .R1 => 1 | .R2 => 2 | .R3 => 3 | .R4 => 4 | .R5 => 5 | .R6 => 6 | .R7 => 7
  | .R8_usr => 8 | .R9_usr => 9 | .R10_usr => 10 | .R11_usr => 11 | .R12_usr => 12
  | .R8_fiq => 13 | .R9_fiq => 14 | .R10_fiq => 15 | .R11_fiq => 16 | .R12_fiq => 17
  | .R13_usr => 18 | .R14_usr => 19 | .R13_fiq => 20 | .R14_fiq => 21 | .R13_irq => 22 | .R14_irq => 23
  | .R13_svc => 24 | .R14_svc => 25 | .R13_abt => 26 | .R14_abt => 27 | .R13_und => 28 | .R14_und => 29

/-- The place of each SPSR in `State.spsrs`. -/
def SpsrBank.index : SpsrBank → Fin 5
  | .fiq => 0 | .irq => 1 | .svc => 2 | .abt => 3 | .und => 4

/-- One of r8 to r12: the FIQ word in FIQ mode, the USR word in every other (R24). -/
def fiqBanked (usr fiq : PhysReg) : Mode → PhysReg
  | .fiq => fiq
  | _ => usr

/-- r13 or r14: one word per mode, USR and SYS sharing one (R24). -/
def modeBanked (usr fiq irq svc abt und : PhysReg) : Mode → PhysReg
  | .usr => usr | .sys => usr
  | .fiq => fiq | .irq => irq | .svc => svc | .abt => abt | .und => und

/-- The physical word that a register number names in a mode, `none` for r15 (R24). -/
def bankReg (r : RegNum) (m : Mode) : Option PhysReg :=
  match r with
  | .r0 => some .R0 | .r1 => some .R1 | .r2 => some .R2 | .r3 => some .R3
  | .r4 => some .R4 | .r5 => some .R5 | .r6 => some .R6 | .r7 => some .R7
  | .r8 => some (fiqBanked .R8_usr .R8_fiq m)
  | .r9 => some (fiqBanked .R9_usr .R9_fiq m)
  | .r10 => some (fiqBanked .R10_usr .R10_fiq m)
  | .r11 => some (fiqBanked .R11_usr .R11_fiq m)
  | .r12 => some (fiqBanked .R12_usr .R12_fiq m)
  | .r13 => some (modeBanked .R13_usr .R13_fiq .R13_irq .R13_svc .R13_abt .R13_und m)
  | .r14 => some (modeBanked .R14_usr .R14_fiq .R14_irq .R14_svc .R14_abt .R14_und m)
  | .r15 => none

/-- The 18 logical registers (R23). -/
inductive Logical where
  | reg (r : RegNum)
  | cpsr
  | spsr
deriving DecidableEq, Repr

/-- `bank(i, mode)` over all 18 logical registers; `none` is SPSR in USR and SYS (R24). -/
def bank (i : Logical) (m : Mode) : Option PhysWord :=
  match i with
  | .reg r =>
    match bankReg r m with
    | some p => some (.gpr p)
    | none => some .r15
  | .cpsr => some .cpsr
  | .spsr =>
    match m.spsr with
    | some b => some (.spsr b)
    | none => none

/-! ### Status registers -/

/-- The flag positions (R31). -/
def Flag.position : Flag → Fin 32
  | .n => 31 | .z => 30 | .c => 29 | .v => 28

/-- Bit positions of I, F and T (R31). -/
def irqBit : Fin 32 := 7
def fiqBit : Fin 32 := 6
def thumbBit : Fin 32 := 5

/-- The mode field M, bits 4:0 (R31). -/
def modeField : Bits.FieldMask := ⟨0, 5⟩

def Psr.bit (p : Psr) (i : Fin 32) : Bool := Bits.bit i p.val

def Psr.knows (p : Psr) (i : Fin 32) : Bool := Bits.bit i p.known

/-- Writes one bit, which makes it known (R41). -/
def Psr.setBit (p : Psr) (i : Fin 32) (b : Bool) : Psr :=
  ⟨Bits.setbit p.val i b, Bits.setbit p.known i true⟩

def Psr.flag (p : Psr) (f : Flag) : Bool := p.bit f.position

def Psr.knowsFlag (p : Psr) (f : Flag) : Bool := p.knows f.position

def Psr.setFlag (p : Psr) (f : Flag) (b : Bool) : Psr := p.setBit f.position b

/-- CPSR.T or SPSR.T (R31). -/
def Psr.thumb (p : Psr) : Bool := p.bit thumbBit

/-- Bits 4:0 (R31). -/
def Psr.modeBits (p : Psr) : BitVec 5 := p.val.extractLsb' 0 5

/-- Writes the mode field (R35). -/
def Psr.setMode (p : Psr) (m : Mode) : Psr :=
  ⟨modeField.replace p.val (m.encoding.setWidth 32), modeField.replace p.known (BitVec.allOnes 32)⟩

/-! ### Reading and writing registers -/

def State.getReg (s : State) (p : PhysReg) : Reg := s.regs[p.index]

def State.setReg (s : State) (p : PhysReg) (v : Reg) : State := { s with regs := s.regs.set p.index v }

def State.getSpsr (s : State) (b : SpsrBank) : Psr := s.spsrs[b.index]

def State.setSpsr (s : State) (b : SpsrBank) (p : Psr) : State := { s with spsrs := s.spsrs.set b.index p }

/-- The value of a register operand: `pc + 8` for r15 (R27), else the word of the current mode's bank (R25). -/
def State.regValue (s : State) (r : RegNum) : Word :=
  match bankReg r s.mode with
  | none => s.pc + 8
  | some p => (s.getReg p).val

/-- The physical word a register operand reads, if it is unknown (R41). -/
def State.unknownWord (s : State) (r : RegNum) : Option PhysReg :=
  match bankReg r s.mode with
  | none => none
  | some p => if (s.getReg p).known then none else some p

/-- `x[i]` as an operand (R11, R25, R27, R41). -/
def State.readReg (s : State) (r : RegNum) : Except Stop Word :=
  match s.unknownWord r with
  | some p => .error (.fault (.unknownRead (.word p)))
  | none => .ok (s.regValue r)

/-- `x[i] <- v` (R11, R25): the word of the current mode's bank, which becomes known; for r15 the
next-instruction address (R28). -/
def State.writeReg (s : State) (r : RegNum) (v : Word) : State :=
  match bankReg r s.mode with
  | none => { s with pc := v }
  | some p => s.setReg p ⟨v, true⟩

/-- Sets the next-instruction address (R28, R29). -/
def State.setPc (s : State) (v : Word) : State := { s with pc := v }

/-- The address of the instruction after this one in memory (R29). -/
def State.nextPc (s : State) : Word := s.pc + 4

/-- A flag read as a bit (R41, R111). -/
def State.readFlag (s : State) (f : Flag) : Except Stop Bool :=
  if s.cpsr.knowsFlag f then .ok (s.cpsr.flag f) else .error (.fault (.unknownRead (.flag f)))

/-- `setMode(newMode)` (R35).  No value moves between physical words (R25). -/
def State.setMode (s : State) (m : Mode) : State :=
  { s with
    cpsr := s.cpsr.setMode m
    mode := m
    spsrSlot := m.spsr.getD s.spsrSlot }

/-- The SPSR bits that a restore reads, in the order of R175. -/
def restoreReads : List (Fin 32) := [31, 30, 29, 28, 7, 6, 5, 4, 3, 2, 1, 0]

/-- `RestoreCPSR()` (R38): the return from an exception (R179).  It restores CPSR whole from the current
mode's SPSR and re-banks the registers. -/
def State.restoreCpsr (s : State) : Except Stop State :=
  match s.mode.spsr with
  | none => .error (.fault (.unpredictable .noSPSR))
  | some b =>
    let saved := s.getSpsr b
    match restoreReads.find? (fun i => !saved.knows i) with
    | some i => .error (.fault (.unknownRead (.spsrBit b i)))
    | none =>
      match Mode.ofEncoding saved.modeBits with
      | none => .error (.fault (.unpredictable .invalidMode))
      | some m => .ok ({ s with cpsr := saved }.setMode m)

/-! ### Memory (R45 to R57) -/

/-- The byte at an address: the listed one, else `Config.unlistedByte`. -/
def Memory.lookup : Memory → Nat → Byte
  | [], _ => Config.unlistedByte
  | (k, v) :: m, a => if k = a then v else Memory.lookup m a

/-- Stores a byte, keeping the canonical form: storing what an unlisted address reads as removes the entry. -/
def Memory.store : Memory → Nat → Byte → Memory
  | [], a, v => if v = Config.unlistedByte then [] else [(a, v)]
  | (k, u) :: m, a, v =>
    if k < a then (k, u) :: Memory.store m a v
    else if k = a then (if v = Config.unlistedByte then m else (a, v) :: m)
    else (if v = Config.unlistedByte then (k, u) :: m else (a, v) :: (k, u) :: m)

/-- The canonical form from address `lo` on: addresses strictly rising and below 2^32, no entry equal to what
an unlisted address reads as. -/
def Memory.wfFrom : Nat → Memory → Bool
  | _, [] => true
  | lo, (k, v) :: m => decide (lo ≤ k) && decide (k < 2 ^ 32) && !(v == Config.unlistedByte) && Memory.wfFrom (k + 1) m

/-- The canonical form of memory. -/
def Memory.wf (m : Memory) : Bool := Memory.wfFrom 0 m

/-- `MemRead(a, 1)` (R12). -/
def Memory.readByte (m : Memory) (a : Word) : Byte := Memory.lookup m a.toNat

/-- `MemWrite(a, 1, v)` (R12). -/
def Memory.writeByte (m : Memory) (a : Word) (v : Byte) : Memory := Memory.store m a.toNat v

/-- `MemRead(a, 4)`, little-endian (R49). -/
def Memory.readWord (m : Memory) (a : Word) : Word :=
  Bits.wordOfBytes (Memory.readByte m a) (Memory.readByte m (a + 1)) (Memory.readByte m (a + 2)) (Memory.readByte m (a + 3))

/-- `MemWrite(a, 4, v)`, little-endian (R49). -/
def Memory.writeWord (m : Memory) (a v : Word) : Memory :=
  Memory.writeByte (Memory.writeByte (Memory.writeByte (Memory.writeByte m a (Bits.byteOf v 0)) (a + 1) (Bits.byteOf v 1))
    (a + 2) (Bits.byteOf v 2)) (a + 3) (Bits.byteOf v 3)

/-- Records one access (R63). -/
def State.record (s : State) (e : MemEvent) : State := { s with events := s.events ++ [e] }

/-! ### Stops -/

def unpredictable (r : Reason) : Stop := .fault (.unpredictable r)

/-- The outcome of a step from the result of its stages. -/
def outcome : Except Stop State → Host.Outcome State Fault Refusal
  | .ok s => .next s
  | .error (.fault f) => .fault f
  | .error (.refusal r) => .refused r

end Sys2Proof.Machine
end

