-- ==== Sys2Proof/Machine/Flags.lean ====
section
/-! DEFINITION. The condition evaluator (spec/40_step_and_condition.md R111 to R114) and the derivation of
the flags (spec/41_shifter_and_flags.md R127 to R132). -/

namespace Sys2Proof.Machine

/-! ### Conditions -/

/-- The flags a condition's formula names, in the order N, Z, C, V (R112, R175). -/
def condReads : Cond → List Flag
  | .eq => [.z] | .ne => [.z]
  | .cs => [.c] | .cc => [.c]
  | .mi => [.n] | .pl => [.n]
  | .vs => [.v] | .vc => [.v]
  | .hi => [.z, .c] | .ls => [.z, .c]
  | .ge => [.n, .v] | .lt => [.n, .v]
  | .gt => [.n, .z, .v] | .le => [.n, .z, .v]
  | .al => [] | .nv => []

/-- The formulas of R112.  NV is never evaluated (R113). -/
def condHolds (cond : Cond) (n z c v : Bool) : Bool :=
  match cond with
  | .eq => z
  | .ne => !z
  | .cs => c
  | .cc => !c
  | .mi => n
  | .pl => !n
  | .vs => v
  | .vc => !v
  | .hi => c && !z
  | .ls => !c || z
  | .ge => n == v
  | .lt => n != v
  | .gt => !z && n == v
  | .le => z || n != v
  | .al => true
  | .nv => false

/-- `ConditionPassed(cond)` (R111): every flag the formula names is read, so an unknown one stops the step
even where the others decide (R175). -/
def conditionPassed (cond : Cond) (p : Psr) : Except Stop Bool :=
  match (condReads cond).find? (fun f => !p.knowsFlag f) with
  | some f => .error (.fault (.unknownRead (.flag f)))
  | none => .ok (condHolds cond (p.flag .n) (p.flag .z) (p.flag .c) (p.flag .v))

/-! ### Arithmetic -/

/-- What an operation computes: its 32-bit result, and its own C and V where it is arithmetic (R133). -/
structure AluOut where
  result : Word
  arith  : Option (Bool × Bool)
deriving DecidableEq, Repr

/-- The result of a logical operation, which has no C or V of its own (R130). -/
def logical (result : Word) : AluOut := ⟨result, none⟩

/-- `AddWithCarry(a, b, cin)` (R127). -/
def addWithCarry (a b : Word) (cin : Bool) : AluOut :=
  let usum : Nat := a.toNat + b.toNat + cin.toNat
  let ssum : Int := a.toInt + b.toInt + cin.toNat
  { result := BitVec.ofNat 32 usum
    arith := some (decide (usum > 0xFFFFFFFF), decide (ssum < -(2 ^ 31) ∨ ssum > 2 ^ 31 - 1)) }

/-- `SubWithCarry(a, b, cin) = AddWithCarry(a, ~b, cin)` (R128). -/
def subWithCarry (a b : Word) (cin : Bool) : AluOut := addWithCarry a (~~~b) cin

/-! ### Writing the flags -/

/-- The shifter's carry-out: a bit, or the token for "the C flag as it stands" (R116). -/
inductive ShiftCarry where
  | currentC
  | bit (b : Bool)
deriving DecidableEq, Repr

/-- N and Z of every result (R129). -/
def Psr.setNZ (p : Psr) (result : Word) : Psr :=
  (p.setFlag .n (Bits.bit 31 result)).setFlag .z (decide (result = 0))

/-- The shifter's carry written to C: no change for the token (R125, R130). -/
def Psr.setShiftCarry (p : Psr) : ShiftCarry → Psr
  | .currentC => p
  | .bit b => p.setFlag .c b

/-- `SetFlags` (R133): by R130 for a logical operation, by R131 for an arithmetic one. -/
def Psr.setFlags (p : Psr) (out : AluOut) (sc : ShiftCarry) : Psr :=
  match out.arith with
  | none => (p.setNZ out.result).setShiftCarry sc
  | some (c, v) => ((p.setNZ out.result).setFlag .c c).setFlag .v v

def State.setFlags (s : State) (out : AluOut) (sc : ShiftCarry) : State :=
  { s with cpsr := s.cpsr.setFlags out sc }

end Sys2Proof.Machine
end

