-- ==== Sys2Proof/Machine/Gate.lean ====
section
/-! DEFINITION. The stages that every instruction with a body shares (spec/40_step_and_condition.md R104
stages 5 to 13, R105, R107, R115). -/

namespace Sys2Proof.Machine

/-- Stages 5 and 7 as a check of the fields, then stages 8 to 13: the reserved condition, the condition, and
the body (R104).  A failed condition only advances the pc (R107). -/
def runGated (check : Option Stop) (c : Cond) (body : State → Except Stop State) (s : State) :
    Host.Outcome State Fault Refusal :=
  match check with
  | some stop => outcome (.error stop)
  | none =>
    if c = .nv then .fault .unknownCondition
    else
      match conditionPassed c s.cpsr with
      | .error stop => outcome (.error stop)
      | .ok false => .next (s.setPc s.nextPc)
      | .ok true => outcome (body s)

end Sys2Proof.Machine
end

