-- ==== Sys2Proof/Machine/Operands.lean ====
section
/-! DEFINITION. The shifter operand of addressing mode 1 (spec/41_shifter_and_flags.md R116 to R126), the
load/store effective address (spec/43_load_store.md R154, R155) and the branch target
(spec/44_branch.md R162). -/

namespace Sys2Proof.Machine

/-- The shifter's pair (operand, carry) (R116). -/
structure ShiftOut where
  operand : Word
  carry   : ShiftCarry
deriving DecidableEq, Repr

/-- 0xFFFFFFFF or 0 by bit 31: the fill of ASR by 32 or more (R118, R122, R123). -/
def signFill (m : Word) : Word := if Bits.bit 31 m then 0xFFFFFFFF#32 else 0

/-- The immediate form (R86, R117). -/
def immediateOperand (rotate : BitVec 4) (immed : BitVec 8) : ShiftOut :=
  let operand := Bits.rotateRight32 (Bits.zext immed) (2 * rotate.toNat)
  ⟨operand, if rotate = 0 then .currentC else .bit (Bits.bit 31 operand)⟩

/-- The right-hand column of R118: a shift by `n`, 1 to 31, also that of R121. -/
def shiftBy (type : ShiftType) (m : Word) (n : Nat) : ShiftOut :=
  match type with
  | .lsl => ⟨m <<< n, .bit (m.getLsbD (32 - n))⟩
  | .lsr => ⟨m >>> n, .bit (m.getLsbD (n - 1))⟩
  | .asr => ⟨m.sshiftRight n, .bit (m.getLsbD (n - 1))⟩
  | .ror => ⟨Bits.rotateRight32 m n, .bit (m.getLsbD (n - 1))⟩

/-- RRX with the C flag as a bit (R118). -/
def rrx (m : Word) (c : Bool) : ShiftOut :=
  ⟨((BitVec.ofBool c).setWidth 32 <<< 31) ||| (m >>> 1), .bit (Bits.bit 0 m)⟩

/-- The immediate-shift table (R118); only RRX reads C (R125). -/
def immediateShift (type : ShiftType) (amount : BitVec 5) (m : Word) (s : State) : Except Stop ShiftOut :=
  if amount = 0 then
    match type with
    | .lsl => .ok ⟨m, .currentC⟩
    | .lsr => .ok ⟨0, .bit (Bits.bit 31 m)⟩
    | .asr => .ok ⟨signFill m, .bit (Bits.bit 31 m)⟩
    | .ror => do
      let c ← s.readFlag .c
      .ok (rrx m c)
  else .ok (shiftBy type m amount.toNat)

/-- ROR by a register whose low byte is 32 or more (R122, R123), by the parameter `RorRegLarge`. -/
def rorLarge (rule : RorRegLarge) (m rs : Word) : ShiftOut :=
  match rule with
  | .doc =>
    let r := (rs.extractLsb' 0 4).toNat
    if r = 0 then ⟨0, .bit (Bits.bit 31 m)⟩ else ⟨Bits.rotateRight32 m r, .bit (m.getLsbD (r - 1))⟩
  | .armv4 =>
    let r := (rs.extractLsb' 0 5).toNat
    if r = 0 then ⟨m, .bit (Bits.bit 31 m)⟩ else ⟨Bits.rotateRight32 m r, .bit (m.getLsbD (r - 1))⟩

/-- The register-shift form (R119 to R123). -/
def registerShift (rule : RorRegLarge) (type : ShiftType) (m rs : Word) : ShiftOut :=
  let n := (rs.extractLsb' 0 8).toNat
  if n = 0 then ⟨m, .currentC⟩
  else if n < 32 then shiftBy type m n
  else
    match type with
    | .lsl => ⟨0, .bit (decide (n = 32) && Bits.bit 0 m)⟩
    | .lsr => ⟨0, .bit (decide (n = 32) && Bits.bit 31 m)⟩
    | .asr => ⟨signFill m, .bit (Bits.bit 31 m)⟩
    | .ror => rorLarge rule m rs

/-- `Shifter(f)` (R116), its reads in the order Rm, Rs, C of R175.  The unsupported form has no operand
(R124); its step stops before this is called. -/
def shifter (op2 : Operand2) (s : State) : Except Stop ShiftOut :=
  match op2 with
  | .imm rotate immed => .ok (immediateOperand rotate immed)
  | .immShift amount type rm => do
    let m ← s.readReg rm
    immediateShift type amount m s
  | .regShift rs type rm => do
    let m ← s.readReg rm
    let r ← s.readReg rs
    .ok (registerShift s.params.rorRegLarge type m r)
  | .unsupported _ _ _ => .error (.refusal .unsupportedEncoding)

/-! ### Effective addresses -/

/-- The offset of Format LSI (R88, R154). -/
def immediateOffset (offset : BitVec 12) : Word := Bits.zext offset

/-- The offset of Format LSR (R154): the immediate-shift table on Rm, its carry discarded (R126). -/
def registerOffset (rm : RegNum) (type : ShiftType) (amount : BitVec 5) (s : State) : Except Stop Word := do
  let m ← s.readReg rm
  let out ← immediateShift type amount m s
  .ok out.operand

/-- The result of the address computation (R155): the access address, the updated base, and whether it is
written back. -/
structure Address where
  ea   : Word
  addr : Word
  wb   : Bool
deriving DecidableEq, Repr

/-- Address and writeback for a base and an offset (R155). -/
def effectiveAddress (p u w : Bool) (base offset : Word) : Address :=
  let addr := if u then base + offset else base - offset
  { ea := if p then addr else base
    addr := addr
    wb := (p && w) || !p }

/-- The user-mode attribute (R157): P = 0 with W = 1. -/
def userAccess (p w : Bool) : Bool := !p && w

/-! ### Branch target -/

/-- `trunc32(pc + 8 + sext_26(offset : 0b00))` (R89, R162). -/
def branchTarget (pc : Word) (offset : BitVec 24) : Word := pc + 8 + Bits.sext (offset ++ 0b00#2)

end Sys2Proof.Machine
end

