-- ==== Sys2Proof/Machine/Branch.lean ====
section
/-! DEFINITION. The branches (spec/44_branch.md R162 to R164). -/

namespace Sys2Proof.Machine

/-- B (R163). -/
def execB (c : Cond) (offset : BitVec 24) (s : State) : Host.Outcome State Fault Refusal :=
  runGated none c (fun s => .ok (s.setPc (branchTarget s.pc offset))) s

/-- BL (R164): the link goes to the current mode's r14. -/
def execBl (c : Cond) (offset : BitVec 24) (s : State) : Host.Outcome State Fault Refusal :=
  runGated none c (fun s => .ok ((s.writeReg .r14 s.nextPc).setPc (branchTarget s.pc offset))) s

end Sys2Proof.Machine
end

