-- ==== Sys2Proof/Machine/Coprocessor.lean ====
section
/-! DEFINITION. The coprocessor instructions, decoded and not executed (spec/45_coprocessor.md R165 to R168):
each stops at stage 6, whatever its fields and its condition, and nothing is read or written. -/

namespace Sys2Proof.Machine

/-- CDP (R166). -/
def execCdp (_c : Cond) (_opc1 _crn _crd _cpNum : BitVec 4) (_opc2 : BitVec 3) (_crm : BitVec 4) (_s : State) :
    Host.Outcome State Fault Refusal :=
  .refused (.unimplemented .cdp)

/-- MCR (R167). -/
def execMcr (_c : Cond) (_opc1 : BitVec 3) (_crn : BitVec 4) (_rd : RegNum) (_cpNum : BitVec 4) (_opc2 : BitVec 3) (_crm : BitVec 4)
    (_s : State) : Host.Outcome State Fault Refusal :=
  .refused (.unimplemented .mcr)

/-- MRC (R168). -/
def execMrc (_c : Cond) (_opc1 : BitVec 3) (_crn : BitVec 4) (_rd : RegNum) (_cpNum : BitVec 4) (_opc2 : BitVec 3) (_crm : BitVec 4)
    (_s : State) : Host.Outcome State Fault Refusal :=
  .refused (.unimplemented .mrc)

end Sys2Proof.Machine
end

