-- ==== Sys2Proof/Machine/DataProcessing.lean ====
section
/-! DEFINITION. The sixteen data-processing instructions (spec/42_data_processing.md R133 to R153). -/

namespace Sys2Proof.Machine

/-- The field checks of a data-processing instruction: R92 at stage 5, R136 at stage 7, for the register
fields `regs` used besides those of `operand2`. -/
def dpCheck (op2 : Operand2) (regs : List RegNum) : Option Stop :=
  match op2 with
  | .imm _ _ => none
  | .immShift _ _ _ => none
  | .regShift rs _ rm =>
    if rs = .r15 ∨ rm = .r15 ∨ .r15 ∈ regs then some (unpredictable .r15InRegisterShift) else none
  | .unsupported _ _ _ => some (.refusal .unsupportedEncoding)

/-- `WritePC_DP(result, S)` (R134, R135).  With S = 1 the flags come from the SPSR, not from the result. -/
def writePcDp (result : Word) (setFlags : Bool) (s : State) : Except Stop State :=
  if setFlags then do
    let t ← s.restoreCpsr
    if t.cpsr.thumb = false ∧ Bits.low2 result ≠ 0 then .error (unpredictable .misalignedPC)
    else .ok (t.setPc result)
  else if Bits.low2 result ≠ 0 then .error (unpredictable .misalignedPC)
  else .ok (s.setPc result)

/-- The destination part of R133: Rd and the flags (R132), or the pc. -/
def dpWrite (setFlags : Bool) (rd : RegNum) (out : AluOut) (sc : ShiftCarry) (s : State) : Except Stop State :=
  if rd = .r15 then writePcDp out.result setFlags s
  else
    let t := s.writeReg rd out.result
    let t := if setFlags then t.setFlags out sc else t
    .ok (t.setPc s.nextPc)

/-- An operation of R133 on the state, Rn and the shifter operand.  ADC, SBC and RSC read C here, after Rn
(R175). -/
abbrev AluOp := State → Word → Word → Except Stop AluOut

/-- R133 with Rn and Rd. -/
def dpBinary (op : AluOp) (c : Cond) (setFlags : Bool) (rn rd : RegNum) (op2 : Operand2) (s : State) :
    Host.Outcome State Fault Refusal :=
  runGated (dpCheck op2 [rn, rd]) c (fun s => do
    let sh ← shifter op2 s
    let a ← s.readReg rn
    let out ← op s a sh.operand
    dpWrite setFlags rd out sh.carry s) s

/-- R133 with Rd only: MOV and MVN, which do not read Rn. -/
def dpUnary (op : Word → AluOut) (c : Cond) (setFlags : Bool) (rd : RegNum) (op2 : Operand2) (s : State) :
    Host.Outcome State Fault Refusal :=
  runGated (dpCheck op2 [rd]) c (fun s => do
    let sh ← shifter op2 s
    dpWrite setFlags rd (op sh.operand) sh.carry s) s

/-- R133 with Rn only: TST, TEQ, CMP and CMN, which write the flags and no register. -/
def dpCompare (op : Word → Word → AluOut) (c : Cond) (rn : RegNum) (op2 : Operand2) (s : State) :
    Host.Outcome State Fault Refusal :=
  runGated (dpCheck op2 [rn]) c (fun s => do
    let sh ← shifter op2 s
    let a ← s.readReg rn
    .ok ((s.setFlags (op a sh.operand) sh.carry).setPc s.nextPc)) s

/-- An operation that reads no carry-in. -/
def plainOp (f : Word → Word → AluOut) : AluOp := fun _ a b => .ok (f a b)

/-- An operation that reads CPSR.C as its carry-in (R143 to R145). -/
def carryOp (f : Word → Word → Bool → AluOut) : AluOp := fun s a b => do
  let c ← s.readFlag .c
  .ok (f a b c)

/-- AND (R138). -/
def execAnd (c : Cond) (setFlags : Bool) (rn rd : RegNum) (op2 : Operand2) (s : State) : Host.Outcome State Fault Refusal :=
  dpBinary (plainOp fun a b => logical (a &&& b)) c setFlags rn rd op2 s

/-- EOR (R139). -/
def execEor (c : Cond) (setFlags : Bool) (rn rd : RegNum) (op2 : Operand2) (s : State) : Host.Outcome State Fault Refusal :=
  dpBinary (plainOp fun a b => logical (a ^^^ b)) c setFlags rn rd op2 s

/-- SUB (R140). -/
def execSub (c : Cond) (setFlags : Bool) (rn rd : RegNum) (op2 : Operand2) (s : State) : Host.Outcome State Fault Refusal :=
  dpBinary (plainOp fun a b => subWithCarry a b true) c setFlags rn rd op2 s

/-- RSB (R141). -/
def execRsb (c : Cond) (setFlags : Bool) (rn rd : RegNum) (op2 : Operand2) (s : State) : Host.Outcome State Fault Refusal :=
  dpBinary (plainOp fun a b => subWithCarry b a true) c setFlags rn rd op2 s

/-- ADD (R142). -/
def execAdd (c : Cond) (setFlags : Bool) (rn rd : RegNum) (op2 : Operand2) (s : State) : Host.Outcome State Fault Refusal :=
  dpBinary (plainOp fun a b => addWithCarry a b false) c setFlags rn rd op2 s

/-- ADC (R143). -/
def execAdc (c : Cond) (setFlags : Bool) (rn rd : RegNum) (op2 : Operand2) (s : State) : Host.Outcome State Fault Refusal :=
  dpBinary (carryOp fun a b cin => addWithCarry a b cin) c setFlags rn rd op2 s

/-- SBC (R144). -/
def execSbc (c : Cond) (setFlags : Bool) (rn rd : RegNum) (op2 : Operand2) (s : State) : Host.Outcome State Fault Refusal :=
  dpBinary (carryOp fun a b cin => subWithCarry a b cin) c setFlags rn rd op2 s

/-- RSC (R145). -/
def execRsc (c : Cond) (setFlags : Bool) (rn rd : RegNum) (op2 : Operand2) (s : State) : Host.Outcome State Fault Refusal :=
  dpBinary (carryOp fun a b cin => subWithCarry b a cin) c setFlags rn rd op2 s

/-- TST (R146). -/
def execTst (c : Cond) (rn : RegNum) (op2 : Operand2) (s : State) : Host.Outcome State Fault Refusal :=
  dpCompare (fun a b => logical (a &&& b)) c rn op2 s

/-- TEQ (R147). -/
def execTeq (c : Cond) (rn : RegNum) (op2 : Operand2) (s : State) : Host.Outcome State Fault Refusal :=
  dpCompare (fun a b => logical (a ^^^ b)) c rn op2 s

/-- CMP (R148). -/
def execCmp (c : Cond) (rn : RegNum) (op2 : Operand2) (s : State) : Host.Outcome State Fault Refusal :=
  dpCompare (fun a b => subWithCarry a b true) c rn op2 s

/-- CMN (R149). -/
def execCmn (c : Cond) (rn : RegNum) (op2 : Operand2) (s : State) : Host.Outcome State Fault Refusal :=
  dpCompare (fun a b => addWithCarry a b false) c rn op2 s

/-- ORR (R150). -/
def execOrr (c : Cond) (setFlags : Bool) (rn rd : RegNum) (op2 : Operand2) (s : State) : Host.Outcome State Fault Refusal :=
  dpBinary (plainOp fun a b => logical (a ||| b)) c setFlags rn rd op2 s

/-- MOV (R151). -/
def execMov (c : Cond) (setFlags : Bool) (rd : RegNum) (op2 : Operand2) (s : State) : Host.Outcome State Fault Refusal :=
  dpUnary (fun b => logical b) c setFlags rd op2 s

/-- BIC (R152). -/
def execBic (c : Cond) (setFlags : Bool) (rn rd : RegNum) (op2 : Operand2) (s : State) : Host.Outcome State Fault Refusal :=
  dpBinary (plainOp fun a b => logical (a &&& ~~~b)) c setFlags rn rd op2 s

/-- MVN (R153). -/
def execMvn (c : Cond) (setFlags : Bool) (rd : RegNum) (op2 : Operand2) (s : State) : Host.Outcome State Fault Refusal :=
  dpUnary (fun b => logical (~~~b)) c setFlags rd op2 s

end Sys2Proof.Machine
end

