-- ==== Sys2Proof/Machine/LoadStore.lean ====
section
/-! DEFINITION. The loads and stores (spec/43_load_store.md R154 to R161) with the prefetch window
(spec/70_reset_and_hazards.md R186). -/

namespace Sys2Proof.Machine

/-- Whether the base is written back (R155). -/
def baseWriteback (p w : Bool) : Bool := !p || w

/-- The encoding checks of R156, in the order of R174.  `rm` is the offset register of Format LSR. -/
def transferCheck (p w : Bool) (rn rd : RegNum) (rm : Option RegNum) (load byte : Bool) : Option Stop :=
  if rn = .r15 ∧ baseWriteback p w then some (unpredictable .r15BaseWriteback)
  else if rm = some .r15 then some (unpredictable .r15OffsetRegister)
  else if load ∧ baseWriteback p w ∧ rn = rd then some (unpredictable .loadBaseWriteback)
  else if byte ∧ rd = .r15 then some (unpredictable .r15ByteTransfer)
  else none

/-- One stored byte lies in [pc + 4, pc + 12), modulo 2^32 (R186). -/
def inPrefetchWindow (pc b : Word) : Bool := decide ((b - (pc + 4)).toNat < 8)

/-- `PrefetchCheck(a, n)` (R186): some byte of the `n` from `a` lies in the window. -/
def hitsPrefetch (pc a : Word) (n : Nat) : Bool :=
  (List.range n).any fun k => inPrefetchWindow pc (a + BitVec.ofNat 32 k)

/-- The base writeback of R155. -/
def State.writeBack (s : State) (rn : RegNum) (a : Address) : State :=
  if a.wb then s.writeReg rn a.addr else s

/-- The word an LDR at `ea` loads: the aligned word rotated right by `8 * ea[1:0]` (R52, R158). -/
def loadedWord (m : Memory) (ea : Word) : Word :=
  Bits.rotateRight32 (Memory.readWord m (Bits.align4 ea)) (8 * (Bits.low2 ea).toNat)

/-- The body of LDR after its reads (R158). -/
def loadWord (a : Address) (user : Bool) (rn rd : RegNum) (s : State) : Except Stop State :=
  let data := loadedWord s.mem a.ea
  let t := s.record ⟨.read, Bits.align4 a.ea, .word, Memory.readWord s.mem (Bits.align4 a.ea), user⟩
  let t := t.writeBack rn a
  if rd = .r15 then .ok (t.setPc (data &&& 0xFFFFFFFC#32))
  else .ok ((t.writeReg rd data).setPc s.nextPc)

/-- The body of LDRB after its reads (R160). -/
def loadByte (a : Address) (user : Bool) (rn rd : RegNum) (s : State) : Except Stop State :=
  let data := Bits.zext (Memory.readByte s.mem a.ea)
  let t := s.record ⟨.read, a.ea, .byte, data, user⟩
  let t := t.writeBack rn a
  .ok ((t.writeReg rd data).setPc s.nextPc)

/-- The value an STR stores (R159): `pc + StrPcOffset` for r15, which reads no register. -/
def storeValue (rd : RegNum) (s : State) : Except Stop Word :=
  if rd = .r15 then .ok (s.pc + s.params.strPcOffset.amount) else s.readReg rd

/-- The body of STR after its base and offset (R159). -/
def storeWord (a : Address) (user : Bool) (rn rd : RegNum) (s : State) : Except Stop State := do
  let v ← storeValue rd s
  if hitsPrefetch s.pc (Bits.align4 a.ea) 4 then .error (unpredictable .selfModifyPrefetch)
  else
    let t : State := { s with mem := Memory.writeWord s.mem (Bits.align4 a.ea) v }
    let t := t.record ⟨.write, Bits.align4 a.ea, .word, v, user⟩
    .ok ((t.writeBack rn a).setPc s.nextPc)

/-- The body of STRB after its base and offset (R161). -/
def storeByte (a : Address) (user : Bool) (rn rd : RegNum) (s : State) : Except Stop State := do
  let v ← s.readReg rd
  if hitsPrefetch s.pc a.ea 1 then .error (unpredictable .selfModifyPrefetch)
  else
    let t : State := { s with mem := Memory.writeByte s.mem a.ea (Bits.byteOf v 0) }
    let t := t.record ⟨.write, a.ea, .byte, Bits.zext (Bits.byteOf v 0), user⟩
    .ok ((t.writeBack rn a).setPc s.nextPc)

/-- What a transfer does with its address, its user attribute, Rn and Rd. -/
abbrev Transfer := Address → Bool → RegNum → RegNum → State → Except Stop State

/-- A transfer of Format LSI: Rn, then the access (R175). -/
def transferImm (access : Transfer) (load byte : Bool) (c : Cond) (p u w : Bool) (rn rd : RegNum) (offset : BitVec 12)
    (s : State) : Host.Outcome State Fault Refusal :=
  runGated (transferCheck p w rn rd none load byte) c (fun s => do
    let base ← s.readReg rn
    access (effectiveAddress p u w base (immediateOffset offset)) (userAccess p w) rn rd s) s

/-- A transfer of Format LSR: Rn, Rm, C for RRX, then the access (R175). -/
def transferReg (access : Transfer) (load byte : Bool) (c : Cond) (p u w : Bool) (rn rd : RegNum) (amount : BitVec 5)
    (type : ShiftType) (rm : RegNum) (s : State) : Host.Outcome State Fault Refusal :=
  runGated (transferCheck p w rn rd (some rm) load byte) c (fun s => do
    let base ← s.readReg rn
    let offset ← registerOffset rm type amount s
    access (effectiveAddress p u w base offset) (userAccess p w) rn rd s) s

/-- STR, immediate offset (R159). -/
def execStrImm (c : Cond) (p u w : Bool) (rn rd : RegNum) (offset : BitVec 12) (s : State) : Host.Outcome State Fault Refusal :=
  transferImm storeWord false false c p u w rn rd offset s

/-- STR, register offset (R159). -/
def execStrReg (c : Cond) (p u w : Bool) (rn rd : RegNum) (amount : BitVec 5) (type : ShiftType) (rm : RegNum) (s : State) :
    Host.Outcome State Fault Refusal :=
  transferReg storeWord false false c p u w rn rd amount type rm s

/-- LDR, immediate offset (R158). -/
def execLdrImm (c : Cond) (p u w : Bool) (rn rd : RegNum) (offset : BitVec 12) (s : State) : Host.Outcome State Fault Refusal :=
  transferImm loadWord true false c p u w rn rd offset s

/-- LDR, register offset (R158). -/
def execLdrReg (c : Cond) (p u w : Bool) (rn rd : RegNum) (amount : BitVec 5) (type : ShiftType) (rm : RegNum) (s : State) :
    Host.Outcome State Fault Refusal :=
  transferReg loadWord true false c p u w rn rd amount type rm s

/-- STRB, immediate offset (R161). -/
def execStrbImm (c : Cond) (p u w : Bool) (rn rd : RegNum) (offset : BitVec 12) (s : State) : Host.Outcome State Fault Refusal :=
  transferImm storeByte false true c p u w rn rd offset s

/-- STRB, register offset (R161). -/
def execStrbReg (c : Cond) (p u w : Bool) (rn rd : RegNum) (amount : BitVec 5) (type : ShiftType) (rm : RegNum) (s : State) :
    Host.Outcome State Fault Refusal :=
  transferReg storeByte false true c p u w rn rd amount type rm s

/-- LDRB, immediate offset (R160). -/
def execLdrbImm (c : Cond) (p u w : Bool) (rn rd : RegNum) (offset : BitVec 12) (s : State) : Host.Outcome State Fault Refusal :=
  transferImm loadByte true true c p u w rn rd offset s

/-- LDRB, register offset (R160). -/
def execLdrbReg (c : Cond) (p u w : Bool) (rn rd : RegNum) (amount : BitVec 5) (type : ShiftType) (rm : RegNum) (s : State) :
    Host.Outcome State Fault Refusal :=
  transferReg loadByte true true c p u w rn rd amount type rm s

end Sys2Proof.Machine
end

