-- ==== Sys2Proof/Machine/Dispatch.lean ====
section
/-! DEFINITION. One arm per instruction: the meaning of each (R104 stages 5 to 13). -/

namespace Sys2Proof.Machine

def exec (i : Instr) (s : State) : Host.Outcome State Fault Refusal :=
  match i with
  | .and c sf rn rd op2 => Sys2Proof.Machine.execAnd c sf rn rd op2 s
  | .eor c sf rn rd op2 => Sys2Proof.Machine.execEor c sf rn rd op2 s
  | .sub c sf rn rd op2 => Sys2Proof.Machine.execSub c sf rn rd op2 s
  | .rsb c sf rn rd op2 => Sys2Proof.Machine.execRsb c sf rn rd op2 s
  | .add c sf rn rd op2 => Sys2Proof.Machine.execAdd c sf rn rd op2 s
  | .adc c sf rn rd op2 => Sys2Proof.Machine.execAdc c sf rn rd op2 s
  | .sbc c sf rn rd op2 => Sys2Proof.Machine.execSbc c sf rn rd op2 s
  | .rsc c sf rn rd op2 => Sys2Proof.Machine.execRsc c sf rn rd op2 s
  | .tst c rn op2 => Sys2Proof.Machine.execTst c rn op2 s
  | .teq c rn op2 => Sys2Proof.Machine.execTeq c rn op2 s
  | .cmp c rn op2 => Sys2Proof.Machine.execCmp c rn op2 s
  | .cmn c rn op2 => Sys2Proof.Machine.execCmn c rn op2 s
  | .orr c sf rn rd op2 => Sys2Proof.Machine.execOrr c sf rn rd op2 s
  | .mov c sf rd op2 => Sys2Proof.Machine.execMov c sf rd op2 s
  | .bic c sf rn rd op2 => Sys2Proof.Machine.execBic c sf rn rd op2 s
  | .mvn c sf rd op2 => Sys2Proof.Machine.execMvn c sf rd op2 s
  | .b c offset => Sys2Proof.Machine.execB c offset s
  | .bl c offset => Sys2Proof.Machine.execBl c offset s
  | .strImm c p u w rn rd offset => Sys2Proof.Machine.execStrImm c p u w rn rd offset s
  | .strReg c p u w rn rd amount type rm => Sys2Proof.Machine.execStrReg c p u w rn rd amount type rm s
  | .ldrImm c p u w rn rd offset => Sys2Proof.Machine.execLdrImm c p u w rn rd offset s
  | .ldrReg c p u w rn rd amount type rm => Sys2Proof.Machine.execLdrReg c p u w rn rd amount type rm s
  | .strbImm c p u w rn rd offset => Sys2Proof.Machine.execStrbImm c p u w rn rd offset s
  | .strbReg c p u w rn rd amount type rm => Sys2Proof.Machine.execStrbReg c p u w rn rd amount type rm s
  | .ldrbImm c p u w rn rd offset => Sys2Proof.Machine.execLdrbImm c p u w rn rd offset s
  | .ldrbReg c p u w rn rd amount type rm => Sys2Proof.Machine.execLdrbReg c p u w rn rd amount type rm s
  | .cdp c opc1 crn crd cpNum opc2 crm => Sys2Proof.Machine.execCdp c opc1 crn crd cpNum opc2 crm s
  | .mcr c opc1 crn rd cpNum opc2 crm => Sys2Proof.Machine.execMcr c opc1 crn rd cpNum opc2 crm s
  | .mrc c opc1 crn rd cpNum opc2 crm => Sys2Proof.Machine.execMrc c opc1 crn rd cpNum opc2 crm s

end Sys2Proof.Machine
end

