-- ==== Sys2Proof/Machine/Fetch.lean ====
section
/-! DEFINITION. Fetching an instruction's bytes (spec/40_step_and_condition.md R104 stage 3,
spec/20_memory.md R48, R63). -/

namespace Sys2Proof.Machine

/-- The word at the pc, little-endian (R48). -/
def fetchWord (s : State) : Word := Memory.readWord s.mem s.pc

/-- The state after the fetch: the step's record of accesses starts with it (R57, R63). -/
def State.fetched (s : State) : State :=
  { s with events := [⟨.fetch, s.pc, .word, fetchWord s, false⟩] }

end Sys2Proof.Machine
end

