-- ==== Sys2Proof/Machine/Step.lean ====
section
/-! DEFINITION. The step (spec/40_step_and_condition.md R104): Thumb state, alignment, fetch, decode, then
the instruction's own stages in `exec`. -/

namespace Sys2Proof.Machine

/-- `Step(S)` (R104): stages 1 to 4 here, stages 5 to 13 in `exec`. -/
def step (s : State) : Host.Outcome State Fault Refusal :=
  if s.cpsr.thumb then .refused .thumbNotModelled
  else if Bits.low2 s.pc ≠ 0 then .fault (.unpredictable .misalignedFetch)
  else
    match decodeWord (fetchWord s) with
    | none => .refused .noMatch
    | some i => exec i s.fetched

/-- The state with one instruction word, its bits above `nbits` 0, stored where the step fetches next. -/
def State.withFetchWord (s : State) (nbits w : Nat) : State :=
  { s with mem := Memory.writeWord s.mem s.pc (BitVec.ofNat 32 (w % 2 ^ nbits)) }

end Sys2Proof.Machine
end

