-- ==== Sys2Proof/Machine/Driver.lean ====
section
/-! DEFINITION. The outside of the core: what a step reports to its driver (spec/60_exceptions.md R169 to
R172, spec/40_step_and_condition.md R108), and what the host may do between steps (spec/10_state.md R43,
spec/70_reset_and_hazards.md R183 to R185). -/

namespace Sys2Proof.Machine

/-! ### The report of a step -/

/-- What a step reports: the code of R169 and what R171 says the outcome carries. -/
structure Report where
  code     : Nat
  reason   : Option Reason
  mnemonic : Option CoprocMnemonic
  unknown  : Option UnknownName
  word     : Option Word
deriving DecidableEq, Repr

/-- The codes of R169, with the reason, mnemonic or name of R171.  An arm without a meaning has no code of
its own there; it takes `NoMatch`'s. -/
def reportOf : Host.Outcome State Fault Refusal → Option Word → Report
  | .next _, _ => ⟨0, none, none, none, none⟩
  | .refused .noMatch, w => ⟨1, none, none, none, w⟩
  | .refused .unsupportedEncoding, w => ⟨2, none, none, none, w⟩
  | .fault .unknownCondition, w => ⟨3, none, none, none, w⟩
  | .fault (.unpredictable r), w => ⟨4, some r, none, none, w⟩
  | .refused (.unimplemented m), w => ⟨5, none, some m, none, w⟩
  | .refused .thumbNotModelled, w => ⟨6, none, none, none, w⟩
  | .fault (.unknownRead n), w => ⟨7, none, none, some n, w⟩
  | .refused _, w => ⟨1, none, none, none, w⟩

/-- The step got past stages 1 and 2, so a stop of it carries the fetched word (R171). -/
def fetches (s : State) : Bool := !s.cpsr.thumb && decide (Bits.low2 s.pc = 0)

/-- The outcome a step reports to the driver. -/
def report (s : State) : Report :=
  reportOf (step s) (if fetches s then some (fetchWord s) else none)

/-- The step's "handled" result (R108). -/
def handled (s : State) : Bool := (report s).code == 0

/-! ### Host access -/

/-- The bits of a field. -/
def fieldBits (f : Bits.FieldMask) : Word := f.mask <<< f.position.val

/-- Every bit of the field is known. -/
def Psr.knowsField (p : Psr) (f : Bits.FieldMask) : Bool := decide (fieldBits f &&& ~~~p.known = 0)

/-- Writes a field, which makes its bits known (R41). -/
def Psr.writeField (p : Psr) (f : Bits.FieldMask) (v : Word) : Psr :=
  ⟨f.replace p.val v, p.known ||| fieldBits f⟩

/-- Every bit is known: what a read of the whole word asks (R43, `val()`).  The whole word is no field, since
the length of a field mask is a `uint5` (R67). -/
def Psr.knowsAll (p : Psr) : Bool := decide (p.known = BitVec.allOnes 32)

/-- The logical register of an index 0 to 17, in the order of R23: r0 to r15, CPSR, SPSR.  Every other index is
refused (R15). -/
def Logical.ofIndex (i : Nat) : Option Logical :=
  if i < 16 then some (.reg (RegNum.ofBits (BitVec.ofNat 4 i)))
  else if i = 16 then some .cpsr
  else if i = 17 then some .spsr
  else none

/-- The physical word a logical register names now (R24, R39); `none` is SPSR in USR or SYS, whose access is
a contract violation (R43). -/
def State.active (s : State) (i : Logical) : Option PhysWord := bank i s.mode

/-- The same by index, `none` also for an index out of range (R15). -/
def State.activeIndex (s : State) (i : Nat) : Option PhysWord := (Logical.ofIndex i).bind s.active

/-- A host read of a physical word by its name, `none` where it is a contract violation: an unknown word or bit
(R43). -/
def hostRead (s : State) : PhysWord → Option Word
  | .gpr p => if (s.getReg p).known then some (s.getReg p).val else none
  | .r15 => some s.pc
  | .cpsr => if s.cpsr.knowsAll then some s.cpsr.val else none
  | .spsr b => if (s.getSpsr b).knowsAll then some (s.getSpsr b).val else none

/-- A field of a status register, `none` where one of its bits is unknown (R43). -/
def Psr.readField (p : Psr) (f : Bits.FieldMask) : Option Word :=
  if p.knowsField f then some (f.extract p.val) else none

/-- A host read of a field of a physical word (R43): `bit(i)` is the field `Bits.FieldMask.single i`. -/
def hostReadField (s : State) (p : PhysWord) (f : Bits.FieldMask) : Option Word :=
  if f.wf then
    match p with
    | .gpr q => (hostRead s (.gpr q)).map f.extract
    | .r15 => some (f.extract s.pc)
    | .cpsr => s.cpsr.readField f
    | .spsr b => (s.getSpsr b).readField f
  else none

/-- A host write of CPSR that reaches its mode field: the mode goes through `setMode`, and bits that encode no
mode, or are unknown, are a contract violation (R43; log entry 12). -/
def State.hostSetCpsr (s : State) (p : Psr) : Option State :=
  if p.knowsField modeField then (Mode.ofEncoding p.modeBits).map fun m => { s with cpsr := p }.setMode m else none

/-- A host write of a physical word by its name, which makes it known (R43). -/
def State.hostWrite (s : State) (v : Word) : PhysWord → Option State
  | .gpr p => some (s.setReg p ⟨v, true⟩)
  | .r15 => some (s.setPc v)
  | .cpsr => s.hostSetCpsr ⟨v, BitVec.allOnes 32⟩
  | .spsr b => some (s.setSpsr b ⟨v, BitVec.allOnes 32⟩)

/-- A host write of a field of a physical word (R43), which makes the bits written of a status register known
(R41); `none` for a field of a general register word that is unknown (log entry 12). -/
def State.hostWriteField (s : State) (f : Bits.FieldMask) (v : Word) : PhysWord → Option State
  | .gpr p => if (s.getReg p).known then some (s.setReg p ⟨f.replace (s.getReg p).val v, true⟩) else none
  | .r15 => some (s.setPc (f.replace s.pc v))
  | .cpsr => if 5 ≤ f.position then some { s with cpsr := s.cpsr.writeField f v } else s.hostSetCpsr (s.cpsr.writeField f v)
  | .spsr b => some (s.setSpsr b ((s.getSpsr b).writeField f v))

/-- What the host may do between steps (R43), and a reset of the core (R183).  A physical word is any of the 37
of R23. -/
inductive HostAction where
  | writeWord (p : PhysWord) (v : Word)
  | writeField (p : PhysWord) (f : Bits.FieldMask) (v : Word)
  | writeByte (a : Word) (v : Byte)
  | setMode (m : Mode)
  | reset
deriving DecidableEq, Repr

/-- `bit(i, v)` (R43): the field of one bit. -/
def HostAction.writeBit (p : PhysWord) (i : Fin 32) (b : Bool) : HostAction :=
  .writeField p (.single i) ((BitVec.ofBool b).setWidth 32)

/-- A host action, `none` where it is a contract violation (R43, R15; log entry 12).  A reset during a run applies
the register part of R42 and leaves memory as it stands (R183). -/
def hostAct (s : State) : HostAction → Option State
  | .writeWord p v => s.hostWrite v p
  | .writeField p f v => if f.wf then s.hostWriteField f v p else none
  | .writeByte a v => some { s with mem := Memory.writeByte s.mem a v }
  | .setMode m => some (s.setMode m)
  | .reset => some (State.launch s.params s.mem)

/-- A host read through a logical register: of its active physical word (R39, R43), `none` for SPSR in USR or SYS
and for an index out of range. -/
def hostReadLogical (s : State) (i : Nat) : Option Word := (s.activeIndex i).bind (hostRead s)

/-- A host write through a logical register, with the same violations (R39, R43). -/
def hostWriteLogical (s : State) (i : Nat) (v : Word) : Option State := (s.activeIndex i).bind (s.hostWrite v)

/-- A sequence of host actions. -/
def hostActs (s : State) : List HostAction → Option State
  | [] => some s
  | a :: as =>
    match hostAct s a with
    | some t => hostActs t as
    | none => none

/-- The 30 register words, in the order of R23. -/
def allRegs : List PhysReg :=
  [.R0, .R1, .R2, .R3, .R4, .R5, .R6, .R7, .R8_usr, .R9_usr, .R10_usr, .R11_usr, .R12_usr] ++
  [.R8_fiq, .R9_fiq, .R10_fiq, .R11_fiq, .R12_fiq, .R13_usr, .R14_usr, .R13_fiq, .R14_fiq, .R13_irq, .R14_irq] ++
  [.R13_svc, .R14_svc, .R13_abt, .R14_abt, .R13_und, .R14_und]

/-- The five SPSRs. -/
def allSpsrs : List SpsrBank := [.fiq, .irq, .svc, .abt, .und]

/-- The host writes that make `State.reset` from the launch state: 0 in every register word, in CPSR[31:8] and
in every SPSR (R184, R185; log entry 1). -/
def zeroingActions : List HostAction :=
  allRegs.map (fun p => .writeWord (.gpr p) 0) ++ [.writeField .cpsr ⟨8, 24⟩ 0] ++ allSpsrs.map (fun b => .writeWord (.spsr b) 0)

end Sys2Proof.Machine
end

