-- ==== Sys2Proof/WellFormed.lean ====
section
/-! DEFINITION. When an instruction's own fields admit it: the checks of spec/40_step_and_condition.md R104
stages 5, 7 and 8, which depend on the decoded fields alone (R105).  Register numbers, condition codes and
field widths are in range by their types (spec/00_scope.md R15). -/

namespace Sys2Proof

/-- A reason for which an instruction's fields alone stop its step. -/
inductive FormProblem where
  /-- R92: `operand2` with I = 0, bit 4 = 1 and bit 7 = 1. -/
  | unsupportedOperand2
  /-- R136: r15 in a field of the register-shift form. -/
  | r15InRegisterShift
  /-- R156: base r15 with writeback. -/
  | r15BaseWriteback
  /-- R156: offset register r15. -/
  | r15OffsetRegister
  /-- R156: a load with writeback whose base is its destination. -/
  | loadBaseWriteback
  /-- R156: a byte transfer of r15. -/
  | r15ByteTransfer
  /-- R113: condition code 15. -/
  | reservedCondition
deriving DecidableEq, Repr

/-- One check of a list of checks: the problem when the test holds. -/
def problemIf (test : Bool) (p : FormProblem) : List FormProblem := if test then [p] else []

/-- The check of R113. -/
def Cond.problems (c : Cond) : List FormProblem := problemIf (c == .nv) .reservedCondition

/-- The checks of R92 and R136 for the register fields `regs` that the instruction uses besides those of
`operand2`. -/
def Operand2.problems (op2 : Operand2) (regs : List RegNum) : List FormProblem :=
  match op2 with
  | .imm _ _ => []
  | .immShift _ _ _ => []
  | .regShift rs _ rm => problemIf (rs == .r15 || rm == .r15 || regs.contains .r15) .r15InRegisterShift
  | .unsupported _ _ _ => [.unsupportedOperand2]

/-- Whether the base is written back (R155): P = 0, or W = 1. -/
def writesBack (p w : Bool) : Bool := !p || w

/-- The checks of R156, in the order of R174. -/
def transferProblems (p w : Bool) (rn rd : RegNum) (rm : Option RegNum) (load byte : Bool) : List FormProblem :=
  problemIf (rn == .r15 && writesBack p w) .r15BaseWriteback ++
  problemIf (rm == some .r15) .r15OffsetRegister ++
  problemIf (load && writesBack p w && rn == rd) .loadBaseWriteback ++
  problemIf (byte && rd == .r15) .r15ByteTransfer

/-- Every problem of an instruction's fields, in stage order (R173, R174). -/
def Instr.problems : Instr → List FormProblem
  | .and c _ rn rd op2 => op2.problems [rn, rd] ++ c.problems
  | .eor c _ rn rd op2 => op2.problems [rn, rd] ++ c.problems
  | .sub c _ rn rd op2 => op2.problems [rn, rd] ++ c.problems
  | .rsb c _ rn rd op2 => op2.problems [rn, rd] ++ c.problems
  | .add c _ rn rd op2 => op2.problems [rn, rd] ++ c.problems
  | .adc c _ rn rd op2 => op2.problems [rn, rd] ++ c.problems
  | .sbc c _ rn rd op2 => op2.problems [rn, rd] ++ c.problems
  | .rsc c _ rn rd op2 => op2.problems [rn, rd] ++ c.problems
  | .tst c rn op2 => op2.problems [rn] ++ c.problems
  | .teq c rn op2 => op2.problems [rn] ++ c.problems
  | .cmp c rn op2 => op2.problems [rn] ++ c.problems
  | .cmn c rn op2 => op2.problems [rn] ++ c.problems
  | .orr c _ rn rd op2 => op2.problems [rn, rd] ++ c.problems
  | .mov c _ rd op2 => op2.problems [rd] ++ c.problems
  | .bic c _ rn rd op2 => op2.problems [rn, rd] ++ c.problems
  | .mvn c _ rd op2 => op2.problems [rd] ++ c.problems
  | .b c _ => c.problems
  | .bl c _ => c.problems
  | .strImm c p _ w rn rd _ => transferProblems p w rn rd none false false ++ c.problems
  | .strReg c p _ w rn rd _ _ rm => transferProblems p w rn rd (some rm) false false ++ c.problems
  | .ldrImm c p _ w rn rd _ => transferProblems p w rn rd none true false ++ c.problems
  | .ldrReg c p _ w rn rd _ _ rm => transferProblems p w rn rd (some rm) true false ++ c.problems
  | .strbImm c p _ w rn rd _ => transferProblems p w rn rd none false true ++ c.problems
  | .strbReg c p _ w rn rd _ _ rm => transferProblems p w rn rd (some rm) false true ++ c.problems
  | .ldrbImm c p _ w rn rd _ => transferProblems p w rn rd none true true ++ c.problems
  | .ldrbReg c p _ w rn rd _ _ rm => transferProblems p w rn rd (some rm) true true ++ c.problems
  | .cdp _ _ _ _ _ _ _ => []
  | .mcr _ _ _ _ _ _ _ => []
  | .mrc _ _ _ _ _ _ _ => []

/-- The fields of the instruction admit it. -/
def Instr.wellFormed (i : Instr) : Bool := i.problems.isEmpty

end Sys2Proof
end

