-- ==== Sys2Proof/Safety.lean ====
section
/-! DEFINITION. The terms the claims use: the canonical form of registers, the invariant of the core, and what
an instruction's fields say. -/

namespace Sys2Proof.Machine

/-- An unknown register word keeps the value 0. -/
def Reg.wf (r : Reg) : Bool := r.known || decide (r.val = 0)

/-- An unknown status bit keeps the value 0. -/
def Psr.wf (p : Psr) : Bool := decide (p.val &&& ~~~p.known = 0)

/-- The invariant of the core.
* `mem`, `regs`, `cpsr`, `spsrs`: the canonical forms;
* `mirror`: CPSR's low 5 bits mirror the mode (R33), so they are a legal mode (R21);
* `modeKnown`, `controlKnown`: M, T, F and I are known (R42);
* `aligned`: the pc is word-aligned while T = 0 (R30);
* `slot`: SPSR's active slot is the mode's own, where it has one (R39). -/
structure State.Inv (s : State) : Prop where
  mem          : Memory.wf s.mem = true
  regs         : ∀ p, (s.getReg p).wf = true
  cpsr         : s.cpsr.wf = true
  spsrs        : ∀ b, (s.getSpsr b).wf = true
  mirror       : s.cpsr.modeBits = s.mode.encoding
  modeKnown    : ∀ i : Fin 32, i < 5 → s.cpsr.knows i = true
  controlKnown : s.cpsr.knows thumbBit = true ∧ s.cpsr.knows fiqBit = true ∧ s.cpsr.knows irqBit = true
  aligned      : s.cpsr.thumb = false → Bits.low2 s.pc = 0
  slot         : ∀ b, s.mode.spsr = some b → s.spsrSlot = b

end Sys2Proof.Machine

namespace Sys2Proof

/-- The condition field of an instruction. -/
def Instr.cond : Instr → Cond
  | .and c _ _ _ _ => c | .eor c _ _ _ _ => c | .sub c _ _ _ _ => c | .rsb c _ _ _ _ => c
  | .add c _ _ _ _ => c | .adc c _ _ _ _ => c | .sbc c _ _ _ _ => c | .rsc c _ _ _ _ => c
  | .tst c _ _ => c | .teq c _ _ => c | .cmp c _ _ => c | .cmn c _ _ => c
  | .orr c _ _ _ _ => c | .mov c _ _ _ => c | .bic c _ _ _ _ => c | .mvn c _ _ _ => c
  | .b c _ => c | .bl c _ => c
  | .strImm c _ _ _ _ _ _ => c | .strReg c _ _ _ _ _ _ _ _ => c
  | .ldrImm c _ _ _ _ _ _ => c | .ldrReg c _ _ _ _ _ _ _ _ => c
  | .strbImm c _ _ _ _ _ _ => c | .strbReg c _ _ _ _ _ _ _ _ => c
  | .ldrbImm c _ _ _ _ _ _ => c | .ldrbReg c _ _ _ _ _ _ _ _ => c
  | .cdp c _ _ _ _ _ _ => c | .mcr c _ _ _ _ _ _ => c | .mrc c _ _ _ _ _ _ => c

/-- CDP, MCR or MRC. -/
def Instr.isCoprocessor : Instr → Bool
  | .cdp _ _ _ _ _ _ _ => true
  | .mcr _ _ _ _ _ _ _ => true
  | .mrc _ _ _ _ _ _ _ => true
  | _ => false

/-- STR or STRB. -/
def Instr.isStore : Instr → Bool
  | .strImm _ _ _ _ _ _ _ => true
  | .strReg _ _ _ _ _ _ _ _ _ => true
  | .strbImm _ _ _ _ _ _ _ => true
  | .strbReg _ _ _ _ _ _ _ _ _ => true
  | _ => false

/-- LDR or LDRB. -/
def Instr.isLoad : Instr → Bool
  | .ldrImm _ _ _ _ _ _ _ => true
  | .ldrReg _ _ _ _ _ _ _ _ _ => true
  | .ldrbImm _ _ _ _ _ _ _ => true
  | .ldrbReg _ _ _ _ _ _ _ _ _ => true
  | _ => false

/-- A data-processing instruction with S = 1 and Rd = r15: the one return (R179). -/
def Instr.isReturn : Instr → Bool
  | .and _ s _ rd _ => s && rd == .r15
  | .eor _ s _ rd _ => s && rd == .r15
  | .sub _ s _ rd _ => s && rd == .r15
  | .rsb _ s _ rd _ => s && rd == .r15
  | .add _ s _ rd _ => s && rd == .r15
  | .adc _ s _ rd _ => s && rd == .r15
  | .sbc _ s _ rd _ => s && rd == .r15
  | .rsc _ s _ rd _ => s && rd == .r15
  | .orr _ s _ rd _ => s && rd == .r15
  | .mov _ s rd _ => s && rd == .r15
  | .bic _ s _ rd _ => s && rd == .r15
  | .mvn _ s rd _ => s && rd == .r15
  | _ => false

/-- The instruction may write the flags: a data-processing instruction with S = 1 (R32). -/
def Instr.setsFlags : Instr → Bool
  | .and _ s _ _ _ => s | .eor _ s _ _ _ => s | .sub _ s _ _ _ => s | .rsb _ s _ _ _ => s
  | .add _ s _ _ _ => s | .adc _ s _ _ _ => s | .sbc _ s _ _ _ => s | .rsc _ s _ _ _ => s
  | .orr _ s _ _ _ => s | .mov _ s _ _ => s | .bic _ s _ _ _ => s | .mvn _ s _ _ => s
  | .tst _ _ _ => true | .teq _ _ _ => true | .cmp _ _ _ => true | .cmn _ _ _ => true
  | _ => false

/-- The table entry an instruction comes from (R90). -/
def Instr.entry : Instr → TableEntry
  | .and _ _ _ _ _ => .and | .eor _ _ _ _ _ => .eor | .sub _ _ _ _ _ => .sub | .rsb _ _ _ _ _ => .rsb
  | .add _ _ _ _ _ => .add | .adc _ _ _ _ _ => .adc | .sbc _ _ _ _ _ => .sbc | .rsc _ _ _ _ _ => .rsc
  | .tst _ _ _ => .tst | .teq _ _ _ => .teq | .cmp _ _ _ => .cmp | .cmn _ _ _ => .cmn
  | .orr _ _ _ _ _ => .orr | .mov _ _ _ _ => .mov | .bic _ _ _ _ _ => .bic | .mvn _ _ _ _ => .mvn
  | .b _ _ => .b | .bl _ _ => .bl
  | .strImm _ _ _ _ _ _ _ => .strImm | .strReg _ _ _ _ _ _ _ _ _ => .strReg
  | .ldrImm _ _ _ _ _ _ _ => .ldrImm | .ldrReg _ _ _ _ _ _ _ _ _ => .ldrReg
  | .strbImm _ _ _ _ _ _ _ => .strbImm | .strbReg _ _ _ _ _ _ _ _ _ => .strbReg
  | .ldrbImm _ _ _ _ _ _ _ => .ldrbImm | .ldrbReg _ _ _ _ _ _ _ _ _ => .ldrbReg
  | .cdp _ _ _ _ _ _ _ => .cdp | .mcr _ _ _ _ _ _ _ => .mcr | .mrc _ _ _ _ _ _ _ => .mrc

/-- The bits an entry's pattern fixes, and their values: the `mask` and `match` columns of
spec/opcode_table.json. -/
def TableEntry.fixedBits : TableEntry → Word × Word
  | .and => (0x0DE00000, 0x00000000)
  | .eor => (0x0DE00000, 0x00200000)
  | .sub => (0x0DE00000, 0x00400000)
  | .rsb => (0x0DE00000, 0x00600000)
  | .add => (0x0DE00000, 0x00800000)
  | .adc => (0x0DE00000, 0x00A00000)
  | .sbc => (0x0DE00000, 0x00C00000)
  | .rsc => (0x0DE00000, 0x00E00000)
  | .tst => (0x0DF0F000, 0x01100000)
  | .teq => (0x0DF0F000, 0x01300000)
  | .cmp => (0x0DF0F000, 0x01500000)
  | .cmn => (0x0DF0F000, 0x01700000)
  | .orr => (0x0DE00000, 0x01800000)
  | .mov => (0x0DEF0000, 0x01A00000)
  | .bic => (0x0DE00000, 0x01C00000)
  | .mvn => (0x0DEF0000, 0x01E00000)
  | .b => (0x0F000000, 0x0A000000)
  | .bl => (0x0F000000, 0x0B000000)
  | .strImm => (0x0E500000, 0x04000000)
  | .strReg => (0x0E500010, 0x06000000)
  | .ldrImm => (0x0E500000, 0x04100000)
  | .ldrReg => (0x0E500010, 0x06100000)
  | .strbImm => (0x0E500000, 0x04400000)
  | .strbReg => (0x0E500010, 0x06400000)
  | .ldrbImm => (0x0E500000, 0x04500000)
  | .ldrbReg => (0x0E500010, 0x06500000)
  | .cdp => (0x0F000010, 0x0E000000)
  | .mcr => (0x0F100010, 0x0E000010)
  | .mrc => (0x0F100010, 0x0E100010)

end Sys2Proof
end

