-- ==== Sys2Proof/Certificates/Slice0/Obligations.lean ====
section
/-! DEFINITION. The statements for the provers, with the terms they are written in.  Those terms restate the
spec's formulas over integers and bits, apart from the meanings in Machine/. -/

namespace Sys2Proof.Claims

open Sys2Proof.Machine

/-! ### Conditions -/

/-- The flags that the formula of a condition names (R112, its last column). -/
def condNames : Cond → Flag → Bool
  | .eq, f => f == .z
  | .ne, f => f == .z
  | .cs, f => f == .c
  | .cc, f => f == .c
  | .mi, f => f == .n
  | .pl, f => f == .n
  | .vs, f => f == .v
  | .vc, f => f == .v
  | .hi, f => f == .c || f == .z
  | .ls, f => f == .c || f == .z
  | .ge, f => f == .n || f == .v
  | .lt, f => f == .n || f == .v
  | .gt, f => f != .c
  | .le, f => f != .c
  | .al, _ => false
  | .nv, _ => false

/-- The formulas of R112, over truth values; NV has none. -/
def condFormula : Cond → Bool → Bool → Bool → Bool → Bool
  | .eq, _, z, _, _ => z
  | .ne, _, z, _, _ => !z
  | .cs, _, _, c, _ => c
  | .cc, _, _, c, _ => !c
  | .mi, n, _, _, _ => n
  | .pl, n, _, _, _ => !n
  | .vs, _, _, _, v => v
  | .vc, _, _, _, v => !v
  | .hi, _, z, c, _ => c && !z
  | .ls, _, z, c, _ => !c || z
  | .ge, n, _, _, v => n == v
  | .lt, n, _, _, v => n != v
  | .gt, n, z, _, v => !z && (n == v)
  | .le, n, z, _, v => z || (n != v)
  | .al, _, _, _, _ => true
  | .nv, _, _, _, _ => false

/-- The order in which flags are read (R175). -/
def flagOrder : List Flag := [.n, .z, .c, .v]

/-- The instruction's fields admit it and its condition passes. -/
def Passes (i : Instr) (s : State) : Prop := i.wellFormed = true ∧ conditionPassed i.cond s.cpsr = .ok true

/-! ### Reads -/

/-- A register operand reads: r15 always, another register where the word of its bank is known (R41). -/
def Readable (s : State) (r : RegNum) : Prop := ∀ p, bankReg r s.mode = some p → (s.getReg p).known = true

/-- CPSR.C is known. -/
def CarryKnown (s : State) : Prop := s.cpsr.knowsFlag .c = true

/-- An immediate shift that is RRX (R118). -/
def isRrx (type : ShiftType) (amount : BitVec 5) : Bool := type == .ror && amount == 0

/-- Everything that the shifter reads for an operand is known (R116, R125). -/
def OperandReadable (s : State) : Operand2 → Prop
  | .imm _ _ => True
  | .immShift amount type rm => Readable s rm ∧ (isRrx type amount = true → CarryKnown s)
  | .regShift rs _ rm => Readable s rm ∧ Readable s rs
  | .unsupported _ _ _ => False

/-- One read of an instruction: a register operand, or C as a bit. -/
inductive ReadItem where
  | reg (r : RegNum)
  | carry
deriving DecidableEq, Repr

/-- What a read stops on, if it reads an unknown value (R41, R171). -/
def unknownOf (s : State) : ReadItem → Option UnknownName
  | .reg r =>
    match bankReg r s.mode with
    | some p => if (s.getReg p).known then none else some (.word p)
    | none => none
  | .carry => if s.cpsr.knowsFlag .c then none else some (.flag .c)

/-! ### Shifts -/

/-- A shift by `n`, 1 to 31 (R118, right-hand column). -/
def shifted (type : ShiftType) (m : Word) (n : Nat) : ShiftOut :=
  match type with
  | .lsl => ⟨BitVec.ofNat 32 (m.toNat * 2 ^ n), .bit (m.getLsbD (32 - n))⟩
  | .lsr => ⟨BitVec.ofNat 32 (m.toNat / 2 ^ n), .bit (m.getLsbD (n - 1))⟩
  | .asr => ⟨BitVec.ofInt 32 (m.toInt / 2 ^ n), .bit (m.getLsbD (n - 1))⟩
  | .ror => ⟨m.rotateRight n, .bit (m.getLsbD (n - 1))⟩

/-- All ones or 0 by the sign bit. -/
def fill (m : Word) : Word := if m.msb then BitVec.allOnes 32 else 0

/-- C above bits 31:1 of `m` (R118, RRX). -/
def throughCarry (c : Bool) (m : Word) : Word := BitVec.cons c (m.extractLsb' 1 31)

/-! ### Data processing -/

/-- A data-processing instruction's fields and its operation on Rn, the shifter operand and C.  `rn` is
`none` for MOV and MVN, `rd` for the compares; `carryIn` says that it reads C; `arith` that it writes V. -/
structure DpView where
  sf      : Bool
  rn      : Option RegNum
  rd      : Option RegNum
  op2     : Operand2
  carryIn : Bool
  arith   : Bool
  value   : Word → Word → Bool → Word

/-- 1 where there is a borrow in (R128). -/
def borrow (c : Bool) : Word := if c then 0 else 1

/-- 1 where there is a carry in (R127). -/
def carry (c : Bool) : Word := if c then 1 else 0

/-- The sixteen data-processing instructions (R138 to R153); `none` for every other. -/
def dpView : Instr → Option DpView
  | .and _ sf rn rd op2 => some ⟨sf, some rn, some rd, op2, false, false, fun a b _ => a &&& b⟩
  | .eor _ sf rn rd op2 => some ⟨sf, some rn, some rd, op2, false, false, fun a b _ => a ^^^ b⟩
  | .sub _ sf rn rd op2 => some ⟨sf, some rn, some rd, op2, false, true, fun a b _ => a - b⟩
  | .rsb _ sf rn rd op2 => some ⟨sf, some rn, some rd, op2, false, true, fun a b _ => b - a⟩
  | .add _ sf rn rd op2 => some ⟨sf, some rn, some rd, op2, false, true, fun a b _ => a + b⟩
  | .adc _ sf rn rd op2 => some ⟨sf, some rn, some rd, op2, true, true, fun a b c => a + b + carry c⟩
  | .sbc _ sf rn rd op2 => some ⟨sf, some rn, some rd, op2, true, true, fun a b c => a - b - borrow c⟩
  | .rsc _ sf rn rd op2 => some ⟨sf, some rn, some rd, op2, true, true, fun a b c => b - a - borrow c⟩
  | .tst _ rn op2 => some ⟨true, some rn, none, op2, false, false, fun a b _ => a &&& b⟩
  | .teq _ rn op2 => some ⟨true, some rn, none, op2, false, false, fun a b _ => a ^^^ b⟩
  | .cmp _ rn op2 => some ⟨true, some rn, none, op2, false, true, fun a b _ => a - b⟩
  | .cmn _ rn op2 => some ⟨true, some rn, none, op2, false, true, fun a b _ => a + b⟩
  | .orr _ sf rn rd op2 => some ⟨sf, some rn, some rd, op2, false, false, fun a b _ => a ||| b⟩
  | .mov _ sf rd op2 => some ⟨sf, none, some rd, op2, false, false, fun _ b _ => b⟩
  | .bic _ sf rn rd op2 => some ⟨sf, some rn, some rd, op2, false, false, fun a b _ => a &&& ~~~b⟩
  | .mvn _ sf rd op2 => some ⟨sf, none, some rd, op2, false, false, fun _ b _ => ~~~b⟩
  | _ => none

/-- Everything that a data-processing instruction reads is known. -/
def DpView.Readable (v : DpView) (s : State) : Prop :=
  OperandReadable s v.op2 ∧ (∀ r, v.rn = some r → Claims.Readable s r) ∧ (v.carryIn = true → CarryKnown s)

/-- The result of a data-processing instruction, given its shifter operand. -/
def DpView.result (v : DpView) (s : State) (operand : Word) : Word :=
  v.value (match v.rn with | some r => s.regValue r | none => 0) operand (s.cpsr.flag .c)

/-- `q` is `p` with N and Z written and, where they are given, C and V; every other flag and every bit
below 28 as in `p`. -/
def FlagsSet (p q : Psr) (n z : Bool) (c v : Option Bool) : Prop :=
  (q.flag .n = n ∧ q.knowsFlag .n = true) ∧
  (q.flag .z = z ∧ q.knowsFlag .z = true) ∧
  (match c with
    | some b => q.flag .c = b ∧ q.knowsFlag .c = true
    | none => q.flag .c = p.flag .c ∧ q.knowsFlag .c = p.knowsFlag .c) ∧
  (match v with
    | some b => q.flag .v = b ∧ q.knowsFlag .v = true
    | none => q.flag .v = p.flag .v ∧ q.knowsFlag .v = p.knowsFlag .v) ∧
  ∀ k, k < 28 → q.bit k = p.bit k ∧ q.knows k = p.knows k

/-- The shifter's carry as the value written to C; `none` leaves C as it stands (R116, R130). -/
def carryOut : ShiftCarry → Option Bool
  | .currentC => none
  | .bit b => some b

/-- From `s` to `t`: `rd`, where there is one, takes `v`; the pc advances by 4; every other register, the
mode, the SPSRs, memory, the record of accesses and the parameters stay. -/
def Wrote (s t : State) (rd : Option RegNum) (v : Word) : Prop :=
  (∀ q, t.getReg q = if (rd.bind fun r => bankReg r s.mode) = some q then ⟨v, true⟩ else s.getReg q) ∧
  t.pc = s.pc + 4 ∧ t.mode = s.mode ∧ t.spsrs = s.spsrs ∧ t.spsrSlot = s.spsrSlot ∧ t.mem = s.mem ∧
  t.events = s.events ∧ t.params = s.params

/-- `i` runs from `s` as a logical operation with the result `f op2` (R129, R130, R133). -/
def LogicalRuns (i : Instr) (sf : Bool) (rd : Option RegNum) (op2 : Operand2) (f : Word → Word) (s : State) : Prop :=
  ∃ sh t, shifter op2 s = .ok sh ∧ exec i s = .next t ∧ Wrote s t rd (f sh.operand) ∧
    (sf = false → t.cpsr = s.cpsr) ∧
    (sf = true → FlagsSet s.cpsr t.cpsr (f sh.operand).msb (f sh.operand == 0) (carryOut sh.carry) none)

/-- An exact arithmetic result: its unsigned value, its signed value, and whether it is a subtraction. -/
structure Exact where
  unsigned : Int
  signed   : Int
  subtract : Bool

/-- The exact sum of R127. -/
def exactSum (a b : Word) (cin : Bool) : Exact := ⟨a.toNat + b.toNat + cin.toNat, a.toInt + b.toInt + cin.toNat, false⟩

/-- The exact difference of R128. -/
def exactDifference (a b : Word) (cin : Bool) : Exact :=
  ⟨a.toNat - b.toNat - (1 - cin.toNat), a.toInt - b.toInt - (1 - cin.toNat), true⟩

/-- `trunc32`. -/
def Exact.result (e : Exact) : Word := BitVec.ofInt 32 e.unsigned

/-- Carry out of an addition (R127); NOT borrow of a subtraction (R128). -/
def Exact.c (e : Exact) : Bool := if e.subtract then decide (0 ≤ e.unsigned) else decide (0xFFFFFFFF < e.unsigned)

/-- The signed value lies outside 32 bits (R127, R128). -/
def Exact.v (e : Exact) : Bool := decide (e.signed < -(2 ^ 31) ∨ 2 ^ 31 - 1 < e.signed)

/-- `i` runs from `s` as an arithmetic operation with the exact result `f op2` (R129, R131, R133). -/
def ArithmeticRuns (i : Instr) (sf : Bool) (rd : Option RegNum) (op2 : Operand2) (f : Word → Exact) (s : State) : Prop :=
  ∃ sh t, shifter op2 s = .ok sh ∧ exec i s = .next t ∧ Wrote s t rd (f sh.operand).result ∧
    (sf = false → t.cpsr = s.cpsr) ∧
    (sf = true → FlagsSet s.cpsr t.cpsr (f sh.operand).result.msb ((f sh.operand).result == 0)
      (some (f sh.operand).c) (some (f sh.operand).v))

/-! ### Loads and stores -/

/-- The offset of a transfer: Format LSI or Format LSR (R154). -/
inductive Offset where
  | imm (offset : BitVec 12)
  | reg (amount : BitVec 5) (type : ShiftType) (rm : RegNum)
deriving DecidableEq, Repr

def ldr (c : Cond) (p u w : Bool) (rn rd : RegNum) : Offset → Instr
  | .imm o => .ldrImm c p u w rn rd o
  | .reg a t rm => .ldrReg c p u w rn rd a t rm

def str (c : Cond) (p u w : Bool) (rn rd : RegNum) : Offset → Instr
  | .imm o => .strImm c p u w rn rd o
  | .reg a t rm => .strReg c p u w rn rd a t rm

def ldrb (c : Cond) (p u w : Bool) (rn rd : RegNum) : Offset → Instr
  | .imm o => .ldrbImm c p u w rn rd o
  | .reg a t rm => .ldrbReg c p u w rn rd a t rm

def strb (c : Cond) (p u w : Bool) (rn rd : RegNum) : Offset → Instr
  | .imm o => .strbImm c p u w rn rd o
  | .reg a t rm => .strbReg c p u w rn rd a t rm

/-- The offset register, in Format LSR. -/
def Offset.rm : Offset → Option RegNum
  | .imm _ => none
  | .reg _ _ rm => some rm

/-- Everything that the offset reads is known (R126, R154). -/
def OffsetReadable (s : State) : Offset → Prop
  | .imm _ => True
  | .reg amount type rm => Readable s rm ∧ (isRrx type amount = true → CarryKnown s)

/-- The value of the offset (R154): LSR #0 and ASR #0 shift by 32, ROR #0 is RRX. -/
def Offset.value (s : State) : Offset → Word
  | .imm o => BitVec.ofNat 32 o.toNat
  | .reg amount type rm =>
    let m := s.regValue rm
    if amount = 0 then
      match type with
      | .lsl => m
      | .lsr => 0
      | .asr => fill m
      | .ror => throughCarry (s.cpsr.flag .c) m
    else (shifted type m amount.toNat).operand

/-- The offset as the meanings of the transfers read it. -/
def Offset.read (s : State) : Offset → Except Stop Word
  | .imm o => .ok (immediateOffset o)
  | .reg amount type rm => registerOffset rm type amount s

/-- The base moved by the offset (R155). -/
def moved (u : Bool) (base offset : Word) : Word := if u then base + offset else base - offset

/-- The access address (R155). -/
def accessAt (p u : Bool) (base offset : Word) : Word := if p then moved u base offset else base

/-- Whether the base is written back (R155). -/
def writtenBack (p w : Bool) : Bool := (p && w) || !p

/-- A multiple of 4 not above `a`, less than 4 below it (R52). -/
def wordBelow (a : Word) : Word := BitVec.ofNat 32 (a.toNat / 4 * 4)

/-- The word that an LDR at `ea` loads (R52, R158). -/
def loaded (s : State) (ea : Word) : Word := (Memory.readWord s.mem (wordBelow ea)).rotateRight (8 * (ea.toNat % 4))

/-- The word that an STR stores (R159). -/
def stored (s : State) (rd : RegNum) : Word :=
  if rd = .r15 then s.pc + (match s.params.strPcOffset with | .eight => 8 | .twelve => 12) else s.regValue rd

/-- The byte lies in [pc + 4, pc + 12), modulo 2^32 (R186). -/
def InWindow (s : State) (b : Word) : Prop := (b - (s.pc + 4)).toNat < 8

/-- Registers after a transfer: Rd takes `v` where it is loaded, the base `addr` where it is written back, no
other changes; the mode, the status registers and the parameters stay. -/
def Transferred (s t : State) (rn : RegNum) (wb : Bool) (addr : Word) (rd : Option RegNum) (v : Word) : Prop :=
  (∀ q, t.getReg q =
    if (rd.bind fun r => bankReg r s.mode) = some q then ⟨v, true⟩
    else if wb = true ∧ bankReg rn s.mode = some q then ⟨addr, true⟩
    else s.getReg q) ∧
  t.mode = s.mode ∧ t.cpsr = s.cpsr ∧ t.spsrs = s.spsrs ∧ t.spsrSlot = s.spsrSlot ∧ t.params = s.params

/-! ### The reads of an instruction, in order -/

/-- The reads of the shifter operand, in the order Rm, Rs, C (R175). -/
def operandReads : Operand2 → List ReadItem
  | .imm _ _ => []
  | .immShift amount type rm => .reg rm :: (if isRrx type amount then [.carry] else [])
  | .regShift rs _ rm => [.reg rm, .reg rs]
  | .unsupported _ _ _ => []

def offsetReads : Offset → List ReadItem
  | .imm _ => []
  | .reg amount type rm => .reg rm :: (if isRrx type amount then [.carry] else [])

/-- The reads of a data-processing instruction (R175). -/
def DpView.reads (v : DpView) : List ReadItem :=
  operandReads v.op2 ++ (match v.rn with | some r => [.reg r] | none => []) ++ (if v.carryIn then [.carry] else [])

/-- The reads of a load (R175). -/
def loadReads (rn : RegNum) (off : Offset) : List ReadItem := .reg rn :: offsetReads off

/-- The reads of a store (R175): Rd last, not for r15. -/
def storeReads (rn rd : RegNum) (off : Offset) : List ReadItem :=
  .reg rn :: offsetReads off ++ (if rd = .r15 then [] else [.reg rd])

/-- The SPSR bits of a restore, in the order of R175. -/
def restoreOrder : List (Fin 32) := [31, 30, 29, 28, 7, 6, 5, 4, 3, 2, 1, 0]

/-! ### Whole-machine terms -/

/-- A stop for the first problem of the fields (R92, R113, R136, R156). -/
def problemStop : FormProblem → Host.Outcome State Fault Refusal
  | .unsupportedOperand2 => .refused .unsupportedEncoding
  | .r15InRegisterShift => .fault (.unpredictable .r15InRegisterShift)
  | .r15BaseWriteback => .fault (.unpredictable .r15BaseWriteback)
  | .r15OffsetRegister => .fault (.unpredictable .r15OffsetRegister)
  | .loadBaseWriteback => .fault (.unpredictable .loadBaseWriteback)
  | .r15ByteTransfer => .fault (.unpredictable .r15ByteTransfer)
  | .reservedCondition => .fault .unknownCondition

/-- An outcome with its next state changed by `f`. -/
def mapNext (f : State → State) : Host.Outcome State Fault Refusal → Host.Outcome State Fault Refusal
  | .next t => .next (f t)
  | .fault r => .fault r
  | .refused r => .refused r

/-- A register word that no register number names in a mode. -/
def Hidden (m : Mode) (p : PhysReg) : Prop := ∀ r, bankReg r m ≠ some p

/-- Two status registers agree outside bits 27:6: in the flags, T and M (R31). -/
def AgreeOutsideStorage (p q : Psr) : Prop := ∀ k, k < 6 ∨ 28 ≤ k → p.bit k = q.bit k ∧ p.knows k = q.knows k

/-- The stops agree, or both go on to states that differ at most in bits 27:6 of CPSR. -/
def SameButStorage : Host.Outcome State Fault Refusal → Host.Outcome State Fault Refusal → Prop
  | .next t, .next u => t = { u with cpsr := t.cpsr } ∧ AgreeOutsideStorage t.cpsr u.cpsr
  | .fault a, .fault b => a = b
  | .refused a, .refused b => a = b
  | _, _ => False

/-- The step starts an instruction: ARM state and an aligned pc (R104 stages 1 and 2). -/
def Starts (s : State) : Prop := s.cpsr.thumb = false ∧ s.pc.toNat % 4 = 0

/-- The four bytes of a word, lowest address first. -/
def bytesOf (w : Word) : List Byte := [w.extractLsb' 0 8, w.extractLsb' 8 8, w.extractLsb' 16 8, w.extractLsb' 24 8]

end Sys2Proof.Claims

section

open Sys2Proof Sys2Proof.Machine Sys2Proof.Claims

/-! ### Encoding -/

/-- R65, R66, R68, R70, R74, R90: the 29 descriptions compile to the patterns that the table holds, and the
entries stand in the order of R90. -/
def Obligations.TableDescriptionsCompile : Prop :=
  instructionTable.map (fun r => r.entry) =
    [.and, .eor, .sub, .rsb, .add, .adc, .sbc, .rsc, .tst, .teq, .cmp, .cmn, .orr, .mov, .bic, .mvn, .b, .bl,
      .strImm, .strReg, .ldrImm, .ldrReg, .strbImm, .strbReg, .ldrbImm, .ldrbReg, .cdp, .mcr, .mrc] ∧
  ∀ r ∈ instructionTable, Pattern.compile r.description.toList = some r.pattern

/-- R72: a group with k distinct symbols has 2^k candidates, their values pairwise distinct. -/
def Obligations.GroupCandidatesDistinct : Prop :=
  ∀ g : DecodeGroup, (Pattern.candidates g).length = 2 ^ (Pattern.symbols g.template).length ∧
    (Pattern.candidates g).Pairwise fun a b => a.value ≠ b.value

/-- R68, R69, R70, R71: a group matches a word exactly where some value of each symbol, the same at all its
occurrences, gives the word's bits; and the flags of the match are the bits at the symbols. -/
def Obligations.GroupMatchesItsTemplate : Prop :=
  ∀ (g : DecodeGroup) (w : Word), g.mask.length.val = g.template.length → g.mask.wf = true →
    ((∃ c, Pattern.matchGroup g w = some c) ↔
      ∃ val : Char → Bool, ∀ k ch, g.template.reverse[k]? = some ch →
        w.getLsbD (g.mask.position.val + k) = (ch == '1' || (Pattern.isWildcard ch && val ch))) ∧
    ∀ c, Pattern.matchGroup g w = some c → ∀ k ch, g.template.reverse[k]? = some ch → Pattern.isWildcard ch = true →
      w.getLsbD (g.mask.position.val + k) = c.flags.contains ch

/-- R71, R90: a row matches exactly the words that have its fixed bits, the mask and match of the opcode table. -/
def Obligations.RowsMatchTheirFixedBits : Prop :=
  ∀ r ∈ instructionTable, ∀ w, (r.matchWord w).isSome = true ↔ w &&& r.entry.fixedBits.1 = r.entry.fixedBits.2

/-- R75: any two of the 29 patterns fix some bit with different values, so at most one row matches a word, and
the scan returns the row that does. -/
def Obligations.TableRowsDisjoint : Prop :=
  (∀ r ∈ instructionTable, ∀ r' ∈ instructionTable, r ≠ r' →
    r.entry.fixedBits.1 &&& r'.entry.fixedBits.1 &&& (r.entry.fixedBits.2 ^^^ r'.entry.fixedBits.2) ≠ 0) ∧
  (∀ r ∈ instructionTable, ∀ r' ∈ instructionTable, ∀ w,
    (r.matchWord w).isSome = true → (r'.matchWord w).isSome = true → r = r') ∧
  ∀ r ∈ instructionTable, ∀ w f, r.matchWord w = some f → scanTable w = some (r.entry, f)

/-- R74 to R90: every instruction, with every operand at every value, is what its word decodes to, and what its
four little-endian bytes (R48, R97) decode to, whatever follows them. -/
def Obligations.DecodeOfEncode : Prop :=
  ∀ i : Instr, decodeWord (encode i) = some i ∧ ∀ rest, decode (bytesOf (encode i) ++ rest) = .ok (i, rest)

/-- R73, R90, R94: a word that decodes to an instruction is that instruction's word: the decoder drops no bit. -/
def Obligations.EncodeOfDecode : Prop := ∀ (w : Word) (i : Instr), decodeWord w = some i → encode i = w

/-- Fifteen words of the spec's examples and vectors (R138, R142, R143, R146, R151, R158, R159, R161, R163, R164,
R166 to R168; LS4 for Format LSR), at least one of every format, decode to the instructions they stand for. -/
def Obligations.ExampleWordsDecode : Prop :=
  decodeWord 0xE20100FF = some (.and .al false .r1 .r0 (.imm 0 0xFF)) ∧
  decodeWord 0xE2821005 = some (.add .al false .r2 .r1 (.imm 0 5)) ∧
  decodeWord 0xE0B55006 = some (.adc .al true .r5 .r5 (.immShift 0 .lsl .r6)) ∧
  decodeWord 0xE3100001 = some (.tst .al .r0 (.imm 0 1)) ∧
  decodeWord 0xE3B004FF = some (.mov .al true .r0 (.imm 4 0xFF)) ∧
  decodeWord 0xE5910004 = some (.ldrImm .al true true false .r1 .r0 4) ∧
  decodeWord 0xE4910004 = some (.ldrImm .al false true false .r1 .r0 4) ∧
  decodeWord 0xE7110102 = some (.ldrReg .al true false false .r1 .r0 2 .lsl .r2) ∧
  decodeWord 0xE5210004 = some (.strImm .al true false true .r1 .r0 4) ∧
  decodeWord 0xE4C10001 = some (.strbImm .al false true false .r1 .r0 1) ∧
  decodeWord 0x0A000001 = some (.b .eq 1) ∧
  decodeWord 0xEB000001 = some (.bl .al 1) ∧
  decodeWord 0xFE000000 = some (.cdp .nv 0 0 0 0 0 0) ∧
  decodeWord 0xEE010F10 = some (.mcr .al 0 1 .r0 15 0 0) ∧
  decodeWord 0xEE110F10 = some (.mrc .al 0 1 .r0 15 0 0)

/-! ### The gate: conditions and field checks -/

/-- R83, R112 (decision D2): the numbering of the conditions; R111, R112 (D40): each but NV passes by its
formula where the flags it names are known, whatever the others are; R114: AL passes whatever the flags are. -/
def Obligations.ConditionTable : Prop :=
  (List.range 16).map (fun n => Cond.ofBits (BitVec.ofNat 4 n)) =
    [.eq, .ne, .cs, .cc, .mi, .pl, .vs, .vc, .hi, .ls, .ge, .lt, .gt, .le, .al, .nv] ∧
  (∀ (c : Cond) (p : Psr), c ≠ .nv → (∀ f, condNames c f = true → p.knowsFlag f = true) →
    conditionPassed c p = .ok (condFormula c (p.flag .n) (p.flag .z) (p.flag .c) (p.flag .v))) ∧
  ∀ p : Psr, conditionPassed .al p = .ok true

/-- R111, R175: an instruction whose condition names an unknown flag stops on the first such flag in the order
N, Z, C, V, even where the others decide; a flag that the formula does not name stops nothing. -/
def Obligations.UnknownFlagStopsCondition : Prop :=
  ∀ (i : Instr) (s : State), i.wellFormed = true → i.isCoprocessor = false →
    (∀ f, (flagOrder.filter (condNames i.cond)).find? (fun g => !s.cpsr.knowsFlag g) = some f →
      exec i s = .fault (.unknownRead (.flag f))) ∧
    ((∀ f, condNames i.cond f = true → s.cpsr.knowsFlag f = true) → ∃ b, conditionPassed i.cond s.cpsr = .ok b)

/-- R113: condition code 15 never passes and never fails; where no check of stages 5 to 7 comes first, the
step stops with `UnknownCondition`, whatever the flags are. -/
def Obligations.ReservedConditionNeverRuns : Prop :=
  ∀ (i : Instr) (s : State), i.isCoprocessor = false → i.cond = .nv →
    (∀ t, exec i s ≠ .next t) ∧ (i.problems = [.reservedCondition] → exec i s = .fault .unknownCondition)

/-- R107: an instruction whose condition does not pass writes nothing, succeeds, and advances the pc by 4. -/
def Obligations.FailedConditionOnlyAdvances : Prop :=
  ∀ (i : Instr) (s : State), i.wellFormed = true → i.isCoprocessor = false → conditionPassed i.cond s.cpsr = .ok false →
    exec i s = .next { s with pc := s.pc + 4 }

/-- R92, R105, R113, R136, R156, R173: the first problem of an instruction's fields stops it in every state,
whatever its condition. -/
def Obligations.FieldProblemStopsEveryState : Prop :=
  ∀ (i : Instr) (p : FormProblem) (rest : List FormProblem), i.problems = p :: rest → ∀ s, exec i s = problemStop p

/-- R136, R156, R174: the stage 7 checks, in order, in every state and under every condition. -/
def Obligations.StageSevenChecksInOrder : Prop :=
  (∀ (c : Cond) (p u w : Bool) (rn rd : RegNum) (off : Offset) (s : State),
    let wb := writtenBack p w
    let loads := fun (i : Instr) (byte : Bool) =>
      (rn = .r15 ∧ wb = true → exec i s = .fault (.unpredictable .r15BaseWriteback)) ∧
      (¬ (rn = .r15 ∧ wb = true) → off.rm = some .r15 → exec i s = .fault (.unpredictable .r15OffsetRegister)) ∧
      (¬ (rn = .r15 ∧ wb = true) → off.rm ≠ some .r15 → wb = true → rn = rd →
        exec i s = .fault (.unpredictable .loadBaseWriteback)) ∧
      (¬ (rn = .r15 ∧ wb = true) → off.rm ≠ some .r15 → ¬ (wb = true ∧ rn = rd) → byte = true → rd = .r15 →
        exec i s = .fault (.unpredictable .r15ByteTransfer))
    let stores := fun (i : Instr) (byte : Bool) =>
      (rn = .r15 ∧ wb = true → exec i s = .fault (.unpredictable .r15BaseWriteback)) ∧
      (¬ (rn = .r15 ∧ wb = true) → off.rm = some .r15 → exec i s = .fault (.unpredictable .r15OffsetRegister)) ∧
      (¬ (rn = .r15 ∧ wb = true) → off.rm ≠ some .r15 → byte = true → rd = .r15 →
        exec i s = .fault (.unpredictable .r15ByteTransfer))
    loads (ldr c p u w rn rd off) false ∧ loads (ldrb c p u w rn rd off) true ∧
    stores (str c p u w rn rd off) false ∧ stores (strb c p u w rn rd off) true) ∧
  ∀ (i : Instr) (v : DpView) (s : State) (rs rm : RegNum) (type : ShiftType), dpView i = some v →
    v.op2 = .regShift rs type rm → rs = .r15 ∨ rm = .r15 ∨ v.rn = some .r15 ∨ v.rd = some .r15 →
    exec i s = .fault (.unpredictable .r15InRegisterShift)

/-- R92, R124, R173: a step whose word is a data-processing instruction with I = 0, bit 4 = 1 and bit 7 = 1
stops with `UnsupportedEncoding`, whatever the rest of the word and of the state. -/
def Obligations.UnsupportedOperandStops : Prop :=
  ∀ (s : State) (i : Instr), Starts s → decodeWord (fetchWord s) = some i → (dpView i).isSome = true →
    (fetchWord s).getLsbD 25 = false → (fetchWord s).getLsbD 4 = true → (fetchWord s).getLsbD 7 = true →
    step s = .refused .unsupportedEncoding

/-- R165 to R168: every word of CDP, MCR and MRC stops the step with `Unimplemented` and its mnemonic, whatever
its fields, its condition and the state; the instructions themselves stop so in every state. -/
def Obligations.CoprocessorWordsUnimplemented : Prop :=
  (∀ s : State, Starts s →
    (fetchWord s &&& 0x0F000010 = 0x0E000000 → step s = .refused (.unimplemented .cdp)) ∧
    (fetchWord s &&& 0x0F100010 = 0x0E000010 → step s = .refused (.unimplemented .mcr)) ∧
    (fetchWord s &&& 0x0F100010 = 0x0E100010 → step s = .refused (.unimplemented .mrc))) ∧
  (∀ c opc1 crn crd cp opc2 crm s, exec (.cdp c opc1 crn crd cp opc2 crm) s = .refused (.unimplemented .cdp)) ∧
  (∀ c opc1 crn rd cp opc2 crm s, exec (.mcr c opc1 crn rd cp opc2 crm) s = .refused (.unimplemented .mcr)) ∧
  (∀ c opc1 crn rd cp opc2 crm s, exec (.mrc c opc1 crn rd cp opc2 crm) s = .refused (.unimplemented .mrc))

/-- R175, R41: an instruction that passes its condition stops on the first unknown value it reads, in the
order of R175: data processing Rm, Rs, C for RRX, Rn, C as carry-in; transfers Rn, Rm, C for RRX, then Rd of a
store. -/
def Obligations.FirstUnknownReadStops : Prop :=
  (∀ (i : Instr) (v : DpView) (s : State) (n : UnknownName), dpView i = some v → Passes i s →
    v.reads.findSome? (unknownOf s) = some n → exec i s = .fault (.unknownRead n)) ∧
  ∀ (c : Cond) (p u w : Bool) (rn rd : RegNum) (off : Offset) (s : State) (n : UnknownName),
    ((loadReads rn off).findSome? (unknownOf s) = some n →
      (Passes (ldr c p u w rn rd off) s → exec (ldr c p u w rn rd off) s = .fault (.unknownRead n)) ∧
      (Passes (ldrb c p u w rn rd off) s → exec (ldrb c p u w rn rd off) s = .fault (.unknownRead n))) ∧
    ((storeReads rn rd off).findSome? (unknownOf s) = some n →
      (Passes (str c p u w rn rd off) s → exec (str c p u w rn rd off) s = .fault (.unknownRead n)) ∧
      (Passes (strb c p u w rn rd off) s → exec (strb c p u w rn rd off) s = .fault (.unknownRead n)))

/-! ### The shifter and the flags -/

/-- R86, R117: the immediate form rotates its eight bits right by twice the rotate field; the carry is bit 31 of
the operand, and the C flag as it stands for a rotate field of 0. -/
def Obligations.ImmediateOperandRotates : Prop :=
  ∀ (rotate : BitVec 4) (immed : BitVec 8) (s : State),
    let operand := (BitVec.ofNat 32 immed.toNat).rotateRight (2 * rotate.toNat)
    shifter (.imm rotate immed) s = .ok ⟨operand, if rotate = 0 then .currentC else .bit (operand.getLsbD 31)⟩

/-- R118: the immediate-shift table, with RRX and its read of C. -/
def Obligations.ImmediateShiftTable : Prop :=
  ∀ (s : State) (rm : RegNum), Readable s rm →
    let m := s.regValue rm
    (shifter (.immShift 0 .lsl rm) s = .ok ⟨m, .currentC⟩) ∧
    (shifter (.immShift 0 .lsr rm) s = .ok ⟨0, .bit (m.getLsbD 31)⟩) ∧
    (shifter (.immShift 0 .asr rm) s = .ok ⟨if m.getLsbD 31 then 0xFFFFFFFF else 0, .bit (m.getLsbD 31)⟩) ∧
    (CarryKnown s → shifter (.immShift 0 .ror rm) s = .ok ⟨throughCarry (s.cpsr.flag .c) m, .bit (m.getLsbD 0)⟩) ∧
    (¬ CarryKnown s → shifter (.immShift 0 .ror rm) s = .error (.fault (.unknownRead (.flag .c)))) ∧
    ∀ (n : BitVec 5) (type : ShiftType), n ≠ 0 → shifter (.immShift n type rm) s = .ok (shifted type m n.toNat)

/-- R119 to R123: the register-shift form by the low byte n of Rs: 0, 1 to 31, 32, and above; ROR by 32 or more
under both values of `RorRegLarge`.  The clauses for n above 32, for ROR by 32 or more and for ARMV4 are R123's,
which the spec marks as its own decision D27. -/
def Obligations.RegisterShiftByLowByte : Prop :=
  ∀ (s : State) (rm rs : RegNum) (type : ShiftType), Readable s rm → Readable s rs →
    let m := s.regValue rm
    let v := (s.regValue rs).toNat
    let n := v % 256
    let gives := fun (t : ShiftType) (out : ShiftOut) => type = t → shifter (.regShift rs type rm) s = .ok out
    (n = 0 → shifter (.regShift rs type rm) s = .ok ⟨m, .currentC⟩) ∧
    (1 ≤ n → n ≤ 31 → shifter (.regShift rs type rm) s = .ok (shifted type m n)) ∧
    (n = 32 → gives .lsl ⟨0, .bit (m.getLsbD 0)⟩ ∧ gives .lsr ⟨0, .bit (m.getLsbD 31)⟩) ∧
    (33 ≤ n → gives .lsl ⟨0, .bit false⟩ ∧ gives .lsr ⟨0, .bit false⟩) ∧
    (32 ≤ n → gives .asr ⟨if m.getLsbD 31 then 0xFFFFFFFF else 0, .bit (m.getLsbD 31)⟩) ∧
    (32 ≤ n → s.params.rorRegLarge = .doc →
      (v % 16 = 0 → gives .ror ⟨0, .bit (m.getLsbD 31)⟩) ∧
      (v % 16 ≠ 0 → gives .ror ⟨m.rotateRight (v % 16), .bit (m.getLsbD (v % 16 - 1))⟩)) ∧
    (32 ≤ n → s.params.rorRegLarge = .armv4 →
      (v % 32 = 0 → gives .ror ⟨m, .bit (m.getLsbD 31)⟩) ∧
      (v % 32 ≠ 0 → gives .ror ⟨m.rotateRight (v % 32), .bit (m.getLsbD (v % 32 - 1))⟩))

/-- R127: `AddWithCarry` loses nothing: its result and its carry are the unsigned sum, and V says that the
signed result is not the signed sum. -/
def Obligations.AddWithCarryExact : Prop :=
  ∀ (a b : Word) (cin : Bool), ∃ c v, (addWithCarry a b cin).arith = some (c, v) ∧
    (addWithCarry a b cin).result.toNat + 2 ^ 32 * c.toNat = a.toNat + b.toNat + cin.toNat ∧
    (v = true ↔ (addWithCarry a b cin).result.toInt ≠ a.toInt + b.toInt + cin.toNat)

/-- R128: subtraction is addition of the complement, and this agrees with the form by differences: the result,
C = NOT borrow, and V. -/
def Obligations.SubtractionFormsAgree : Prop :=
  ∀ (a b : Word) (cin : Bool), subWithCarry a b cin = addWithCarry a (~~~b) cin ∧
    subWithCarry a b cin =
      ⟨(exactDifference a b cin).result, some ((exactDifference a b cin).c, (exactDifference a b cin).v)⟩

/-! ### Data processing: results -/

/-- R138, R139, R150, R152, R130, R133, R137: AND, EOR, ORR and BIC run to their result in Rd, with N and Z from
it, C from the shifter and V as it was where S = 1. -/
def Obligations.LogicalResults : Prop :=
  ∀ (c : Cond) (sf : Bool) (rn rd : RegNum) (op2 : Operand2) (s : State), rd ≠ .r15 → Readable s rn → OperandReadable s op2 →
    let a := s.regValue rn
    let runs := fun (i : Instr) (f : Word → Word) => Passes i s → LogicalRuns i sf (some rd) op2 f s
    runs (.and c sf rn rd op2) (fun b => a &&& b) ∧ runs (.eor c sf rn rd op2) (fun b => a ^^^ b) ∧
    runs (.orr c sf rn rd op2) (fun b => a ||| b) ∧ runs (.bic c sf rn rd op2) (fun b => a &&& ~~~b)

/-- R151, R153, R130, R133: MOV and MVN run to their result in Rd and read no Rn. -/
def Obligations.MoveResults : Prop :=
  ∀ (c : Cond) (sf : Bool) (rd : RegNum) (op2 : Operand2) (s : State), rd ≠ .r15 → OperandReadable s op2 →
    let runs := fun (i : Instr) (f : Word → Word) => Passes i s → LogicalRuns i sf (some rd) op2 f s
    runs (.mov c sf rd op2) (fun b => b) ∧ runs (.mvn c sf rd op2) (fun b => ~~~b)

/-- R140 to R142, R127, R128, R131, R133: SUB, RSB and ADD run to the exact result, truncated, in Rd, with its
N, Z, C and V where S = 1. -/
def Obligations.AddSubtractResults : Prop :=
  ∀ (c : Cond) (sf : Bool) (rn rd : RegNum) (op2 : Operand2) (s : State), rd ≠ .r15 → Readable s rn → OperandReadable s op2 →
    let a := s.regValue rn
    let runs := fun (i : Instr) (f : Word → Exact) => Passes i s → ArithmeticRuns i sf (some rd) op2 f s
    runs (.add c sf rn rd op2) (fun b => exactSum a b false) ∧
    runs (.sub c sf rn rd op2) (fun b => exactDifference a b true) ∧
    runs (.rsb c sf rn rd op2) (fun b => exactDifference b a true)

/-- R143 to R145, R127, R128, R131, R133: ADC, SBC and RSC run to the exact result with the C flag as carry-in. -/
def Obligations.CarryArithmeticResults : Prop :=
  ∀ (c : Cond) (sf : Bool) (rn rd : RegNum) (op2 : Operand2) (s : State), rd ≠ .r15 → Readable s rn → OperandReadable s op2 →
    CarryKnown s →
    let a := s.regValue rn
    let cin := s.cpsr.flag .c
    let runs := fun (i : Instr) (f : Word → Exact) => Passes i s → ArithmeticRuns i sf (some rd) op2 f s
    runs (.adc c sf rn rd op2) (fun b => exactSum a b cin) ∧
    runs (.sbc c sf rn rd op2) (fun b => exactDifference a b cin) ∧
    runs (.rsc c sf rn rd op2) (fun b => exactDifference b a cin)

/-- R146, R147, R130: TST and TEQ run, write no register, and set N, Z and C; V stays. -/
def Obligations.TestResults : Prop :=
  ∀ (c : Cond) (rn : RegNum) (op2 : Operand2) (s : State), Readable s rn → OperandReadable s op2 →
    let a := s.regValue rn
    (Passes (.tst c rn op2) s → LogicalRuns (.tst c rn op2) true none op2 (fun b => a &&& b) s) ∧
    (Passes (.teq c rn op2) s → LogicalRuns (.teq c rn op2) true none op2 (fun b => a ^^^ b) s)

/-- R148, R149, R131: CMP and CMN run, write no register, and set N, Z, C and V of the exact result. -/
def Obligations.CompareResults : Prop :=
  ∀ (c : Cond) (rn : RegNum) (op2 : Operand2) (s : State), Readable s rn → OperandReadable s op2 →
    let a := s.regValue rn
    (Passes (.cmp c rn op2) s → ArithmeticRuns (.cmp c rn op2) true none op2 (fun b => exactDifference a b true) s) ∧
    (Passes (.cmn c rn op2) s → ArithmeticRuns (.cmn c rn op2) true none op2 (fun b => exactSum a b false) s)

/-- R134: with S = 0 and Rd = r15, a result that is a multiple of 4 is the next instruction's address and nothing
else changes; any other result stops with `MisalignedPC`. -/
def Obligations.PcDestinationWithoutS : Prop :=
  ∀ (i : Instr) (v : DpView) (s : State), dpView i = some v → v.rd = some .r15 → v.sf = false → Passes i s → v.Readable s →
    ∃ sh, shifter v.op2 s = .ok sh ∧
      ((v.result s sh.operand).toNat % 4 = 0 → exec i s = .next { s with pc := v.result s sh.operand }) ∧
      ((v.result s sh.operand).toNat % 4 ≠ 0 → exec i s = .fault (.unpredictable .misalignedPC))

/-- R38, R135, R179: with S = 1 and Rd = r15, in a mode with an SPSR whose bits N, Z, C, V, I, F, T and M are known
and whose mode is legal, CPSR becomes the SPSR whole, the registers re-bank to its mode, and the pc is the
result, which is a multiple of 4 unless the restored T is 1. -/
def Obligations.ReturnRestoresStatus : Prop :=
  ∀ (i : Instr) (v : DpView) (s : State) (b : SpsrBank) (m : Mode), dpView i = some v → v.rd = some .r15 → v.sf = true →
    Passes i s → v.Readable s → s.mode.spsr = some b → (∀ k ∈ restoreOrder, (s.getSpsr b).knows k = true) →
    (s.getSpsr b).modeBits = m.encoding →
    ∃ sh, shifter v.op2 s = .ok sh ∧
      ((v.result s sh.operand).toNat % 4 = 0 ∨ (s.getSpsr b).thumb = true →
        ∃ t, exec i s = .next t ∧ t.pc = v.result s sh.operand ∧ t.cpsr = s.getSpsr b ∧ t.mode = m ∧
          t.spsrSlot = m.spsr.getD s.spsrSlot ∧ t.regs = s.regs ∧ t.spsrs = s.spsrs ∧ t.mem = s.mem ∧
          t.events = s.events ∧ t.params = s.params) ∧
      ((v.result s sh.operand).toNat % 4 ≠ 0 → (s.getSpsr b).thumb = false →
        exec i s = .fault (.unpredictable .misalignedPC))

/-- R38, R175: the stops of a return, in order: a mode without SPSR, the first unknown SPSR bit, a mode field
that encodes no mode. -/
def Obligations.ReturnStopsInOrder : Prop :=
  ∀ (i : Instr) (v : DpView) (s : State), dpView i = some v → v.rd = some .r15 → v.sf = true → Passes i s → v.Readable s →
    (s.mode = .usr ∨ s.mode = .sys → exec i s = .fault (.unpredictable .noSPSR)) ∧
    ∀ b, s.mode.spsr = some b →
      (∀ k, restoreOrder.find? (fun k => !(s.getSpsr b).knows k) = some k → exec i s = .fault (.unknownRead (.spsrBit b k))) ∧
      ((∀ k ∈ restoreOrder, (s.getSpsr b).knows k = true) → (∀ m : Mode, (s.getSpsr b).modeBits ≠ m.encoding) →
        exec i s = .fault (.unpredictable .invalidMode))

/-! ### Loads and stores: results -/

/-- R154, R155, R157, R158, R52: LDR with Rd other than r15 runs: Rd takes the aligned word rotated right by eight
times the address's low bits, the base moves where it is written back, memory and the flags stay. -/
def Obligations.LoadWordResult : Prop :=
  ∀ (c : Cond) (p u w : Bool) (rn rd : RegNum) (off : Offset) (s : State), rd ≠ .r15 →
    Passes (ldr c p u w rn rd off) s → Readable s rn → OffsetReadable s off →
    let base := s.regValue rn
    let ea := accessAt p u base (off.value s)
    ∃ t, exec (ldr c p u w rn rd off) s = .next t ∧
      Transferred s t rn (writtenBack p w) (moved u base (off.value s)) (some rd) (loaded s ea) ∧
      t.pc = s.pc + 4 ∧ t.mem = s.mem ∧
      t.events = s.events ++ [⟨.read, wordBelow ea, .word, Memory.readWord s.mem (wordBelow ea), !p && w⟩]

/-- R158: LDR with Rd = r15 runs: the pc takes the loaded value with bits 1:0 clear. -/
def Obligations.LoadWordIntoPc : Prop :=
  ∀ (c : Cond) (p u w : Bool) (rn : RegNum) (off : Offset) (s : State),
    Passes (ldr c p u w rn .r15 off) s → Readable s rn → OffsetReadable s off →
    let base := s.regValue rn
    let ea := accessAt p u base (off.value s)
    ∃ t, exec (ldr c p u w rn .r15 off) s = .next t ∧
      Transferred s t rn (writtenBack p w) (moved u base (off.value s)) none 0 ∧
      t.pc = wordBelow (loaded s ea) ∧ t.mem = s.mem ∧
      t.events = s.events ++ [⟨.read, wordBelow ea, .word, Memory.readWord s.mem (wordBelow ea), !p && w⟩]

/-- R154, R155, R157, R160: LDRB runs: Rd takes the byte at the address, zero-extended. -/
def Obligations.LoadByteResult : Prop :=
  ∀ (c : Cond) (p u w : Bool) (rn rd : RegNum) (off : Offset) (s : State),
    Passes (ldrb c p u w rn rd off) s → Readable s rn → OffsetReadable s off →
    let base := s.regValue rn
    let ea := accessAt p u base (off.value s)
    let data := BitVec.ofNat 32 (Memory.readByte s.mem ea).toNat
    ∃ t, exec (ldrb c p u w rn rd off) s = .next t ∧
      Transferred s t rn (writtenBack p w) (moved u base (off.value s)) (some rd) data ∧
      t.pc = s.pc + 4 ∧ t.mem = s.mem ∧ t.events = s.events ++ [⟨.read, ea, .byte, data, !p && w⟩]

/-- R154, R155, R157, R159, R49: STR whose word lies outside the prefetch window runs: the four bytes of the
aligned word take the value's bytes, low byte lowest, and no other byte changes. -/
def Obligations.StoreWordResult : Prop :=
  ∀ (c : Cond) (p u w : Bool) (rn rd : RegNum) (off : Offset) (s : State), Memory.wf s.mem = true →
    Passes (str c p u w rn rd off) s → Readable s rn → OffsetReadable s off → Readable s rd →
    let base := s.regValue rn
    let at4 := wordBelow (accessAt p u base (off.value s))
    (∀ k, k < 4 → ¬ InWindow s (at4 + BitVec.ofNat 32 k)) →
    ∃ t, exec (str c p u w rn rd off) s = .next t ∧
      Transferred s t rn (writtenBack p w) (moved u base (off.value s)) none 0 ∧
      t.pc = s.pc + 4 ∧ t.events = s.events ++ [⟨.write, at4, .word, stored s rd, !p && w⟩] ∧
      ∀ a, Memory.readByte t.mem a =
        if (a - at4).toNat < 4 then (stored s rd).extractLsb' (8 * (a - at4).toNat) 8 else Memory.readByte s.mem a

/-- R154, R155, R157, R161: STRB to a byte outside the prefetch window runs: that byte takes the low byte of Rd,
and no other byte changes. -/
def Obligations.StoreByteResult : Prop :=
  ∀ (c : Cond) (p u w : Bool) (rn rd : RegNum) (off : Offset) (s : State), Memory.wf s.mem = true →
    Passes (strb c p u w rn rd off) s → Readable s rn → OffsetReadable s off → Readable s rd →
    let base := s.regValue rn
    let ea := accessAt p u base (off.value s)
    let v := (s.regValue rd).extractLsb' 0 8
    ¬ InWindow s ea →
    ∃ t, exec (strb c p u w rn rd off) s = .next t ∧
      Transferred s t rn (writtenBack p w) (moved u base (off.value s)) none 0 ∧
      t.pc = s.pc + 4 ∧ t.events = s.events ++ [⟨.write, ea, .byte, BitVec.ofNat 32 v.toNat, !p && w⟩] ∧
      ∀ a, Memory.readByte t.mem a = if a = ea then v else Memory.readByte s.mem a

/-- R186: a store with a byte in [pc + 4, pc + 12), modulo 2^32, stops with `SelfModifyPrefetch`. -/
def Obligations.StoreIntoPrefetchWindowStops : Prop :=
  ∀ (c : Cond) (p u w : Bool) (rn rd : RegNum) (off : Offset) (s : State),
    Readable s rn → OffsetReadable s off → Readable s rd →
    let ea := accessAt p u (s.regValue rn) (off.value s)
    (Passes (str c p u w rn rd off) s → (∃ k, k < 4 ∧ InWindow s (wordBelow ea + BitVec.ofNat 32 k)) →
      exec (str c p u w rn rd off) s = .fault (.unpredictable .selfModifyPrefetch)) ∧
    (Passes (strb c p u w rn rd off) s → InWindow s ea →
      exec (strb c p u w rn rd off) s = .fault (.unpredictable .selfModifyPrefetch))

/-! ### Branches -/

/-- R89, R162: the branch target is pc + 8 plus four times the signed offset, modulo 2^32; the reach is -2^25 to
2^25 - 4, and the target of an aligned branch is aligned. -/
def Obligations.BranchTargetArithmetic : Prop :=
  ∀ (pc : Word) (offset : BitVec 24),
    branchTarget pc offset = BitVec.ofInt 32 (pc.toNat + 8 + 4 * offset.toInt) ∧
    -(2 ^ 25) ≤ 4 * offset.toInt ∧ 4 * offset.toInt ≤ 2 ^ 25 - 4 ∧
    (pc.toNat % 4 = 0 → (branchTarget pc offset).toNat % 4 = 0)

/-- R163, R164: B sets the pc to its target and changes nothing else; BL also writes pc + 4 to the current mode's
r14 and to no other register. -/
def Obligations.BranchResults : Prop :=
  ∀ (c : Cond) (offset : BitVec 24) (s : State),
    let target := BitVec.ofInt 32 (s.pc.toNat + 8 + 4 * offset.toInt)
    (Passes (.b c offset) s → exec (.b c offset) s = .next { s with pc := target }) ∧
    (Passes (.bl c offset) s → ∃ t, exec (.bl c offset) s = .next t ∧ t = { s with pc := target, regs := t.regs } ∧
      ∀ q, t.getReg q = if bankReg .r14 s.mode = some q then ⟨s.pc + 4, true⟩ else s.getReg q)

/-! ### Frames -/

/-- The frame of the twelve data-processing instructions that write Rd (R32, R38, R47, R130, R132, R133). -/
def Obligations.DataProcessingFrame : Prop :=
  ∀ (i : Instr) (v : DpView) (rd : RegNum) (s t : State), dpView i = some v → v.rd = some rd → exec i s = .next t →
    (∀ a, Memory.readByte t.mem a = Memory.readByte s.mem a) ∧ t.events = s.events ∧ t.params = s.params ∧
    t.spsrs = s.spsrs ∧ (∀ q, bankReg rd s.mode ≠ some q → t.getReg q = s.getReg q) ∧
    (v.sf = false → t.cpsr = s.cpsr) ∧
    (rd ≠ .r15 → ∀ k, k < 28 → t.cpsr.bit k = s.cpsr.bit k ∧ t.cpsr.knows k = s.cpsr.knows k) ∧
    (rd ≠ .r15 → v.arith = false → t.cpsr.flag .v = s.cpsr.flag .v ∧ t.cpsr.knowsFlag .v = s.cpsr.knowsFlag .v) ∧
    (v.sf = true → rd = .r15 → t.cpsr = s.cpsr ∨ ∃ b, s.mode.spsr = some b ∧ t.cpsr = s.getSpsr b) ∧
    (v.sf = false ∨ rd ≠ .r15 → t.mode = s.mode ∧ t.spsrSlot = s.spsrSlot)

/-- The frame of TST, TEQ, CMP and CMN: no register, no memory; flags only, V only for CMP and CMN (R47, R130,
R131, R133). -/
def Obligations.CompareFrame : Prop :=
  ∀ (i : Instr) (v : DpView) (s t : State), dpView i = some v → v.rd = none → exec i s = .next t →
    (∀ a, Memory.readByte t.mem a = Memory.readByte s.mem a) ∧ t.events = s.events ∧ t.params = s.params ∧
    t.spsrs = s.spsrs ∧ t.regs = s.regs ∧ t.mode = s.mode ∧ t.spsrSlot = s.spsrSlot ∧
    (∀ k, k < 28 → t.cpsr.bit k = s.cpsr.bit k ∧ t.cpsr.knows k = s.cpsr.knows k) ∧
    (v.arith = false → t.cpsr.flag .v = s.cpsr.flag .v ∧ t.cpsr.knowsFlag .v = s.cpsr.knowsFlag .v)

/-- The frame of B and BL: memory, the status registers and every register but, for BL, the current mode's r14
(R32, R47, R163, R164). -/
def Obligations.BranchFrame : Prop :=
  ∀ (c : Cond) (offset : BitVec 24) (s t : State),
    let same := (∀ a, Memory.readByte t.mem a = Memory.readByte s.mem a) ∧ t.events = s.events ∧ t.params = s.params ∧
      t.cpsr = s.cpsr ∧ t.spsrs = s.spsrs ∧ t.mode = s.mode ∧ t.spsrSlot = s.spsrSlot
    (exec (.b c offset) s = .next t → same ∧ t.regs = s.regs) ∧
    (exec (.bl c offset) s = .next t → same ∧ ∀ q, bankReg .r14 s.mode ≠ some q → t.getReg q = s.getReg q)

/-- The frame of LDR and LDRB: every byte of memory, the status registers, and every register but Rd and a base
written back (R32, R47, R155). -/
def Obligations.LoadFrame : Prop :=
  ∀ (c : Cond) (p u w : Bool) (rn rd : RegNum) (off : Offset) (s t : State),
    exec (ldr c p u w rn rd off) s = .next t ∨ exec (ldrb c p u w rn rd off) s = .next t →
    (∀ a, Memory.readByte t.mem a = Memory.readByte s.mem a) ∧ t.cpsr = s.cpsr ∧ t.spsrs = s.spsrs ∧ t.mode = s.mode ∧
    t.spsrSlot = s.spsrSlot ∧ t.params = s.params ∧
    ∀ q, bankReg rd s.mode ≠ some q → ¬ (writtenBack p w = true ∧ bankReg rn s.mode = some q) → t.getReg q = s.getReg q

/-- The frame of STR and STRB: every byte but the four of the aligned word, or the one byte, at the address that
the meaning computes; the status registers, and every register but a base written back (R32, R52, R155). -/
def Obligations.StoreFrame : Prop :=
  ∀ (c : Cond) (p u w : Bool) (rn rd : RegNum) (off : Offset) (s t : State),
    let same := t.cpsr = s.cpsr ∧ t.spsrs = s.spsrs ∧ t.mode = s.mode ∧ t.spsrSlot = s.spsrSlot ∧ t.params = s.params ∧
      ∀ q, ¬ (writtenBack p w = true ∧ bankReg rn s.mode = some q) → t.getReg q = s.getReg q
    (exec (str c p u w rn rd off) s = .next t → same ∧
      ∀ base offset, s.readReg rn = .ok base → off.read s = .ok offset →
        ∀ a, 4 ≤ (a - Bits.align4 (effectiveAddress p u w base offset).ea).toNat →
          Memory.readByte t.mem a = Memory.readByte s.mem a) ∧
    (exec (strb c p u w rn rd off) s = .next t → same ∧
      ∀ base offset, s.readReg rn = .ok base → off.read s = .ok offset →
        ∀ a, a ≠ (effectiveAddress p u w base offset).ea → Memory.readByte t.mem a = Memory.readByte s.mem a)

/-! ### Registers, modes and memory -/

/-- R24: the bank mapping, over all 18 logical registers and all seven modes; and what it must keep apart: no
two numbers share a word, only USR and SYS share an r13 and r14, each SPSR belongs to one mode. -/
def Obligations.BankMapping : Prop :=
  (∀ m, bank (.reg .r15) m = some .r15 ∧ bank .cpsr m = some .cpsr) ∧
  (∀ e ∈ [(RegNum.r0, PhysReg.R0), (.r1, .R1), (.r2, .R2), (.r3, .R3), (.r4, .R4), (.r5, .R5), (.r6, .R6), (.r7, .R7)],
    ∀ m, bank (.reg e.1) m = some (.gpr e.2)) ∧
  (∀ e ∈ [(RegNum.r8, PhysReg.R8_usr, PhysReg.R8_fiq), (.r9, .R9_usr, .R9_fiq), (.r10, .R10_usr, .R10_fiq),
      (.r11, .R11_usr, .R11_fiq), (.r12, .R12_usr, .R12_fiq)],
    ∀ m, bank (.reg e.1) m = some (.gpr (if m = .fiq then e.2.2 else e.2.1))) ∧
  (∀ e ∈ [(Mode.usr, PhysReg.R13_usr, PhysReg.R14_usr), (.sys, .R13_usr, .R14_usr), (.fiq, .R13_fiq, .R14_fiq),
      (.irq, .R13_irq, .R14_irq), (.svc, .R13_svc, .R14_svc), (.abt, .R13_abt, .R14_abt), (.und, .R13_und, .R14_und)],
    bank (.reg .r13) e.1 = some (.gpr e.2.1) ∧ bank (.reg .r14) e.1 = some (.gpr e.2.2)) ∧
  (∀ e ∈ [(Mode.usr, (none : Option PhysWord)), (.sys, none), (.fiq, some (.spsr .fiq)), (.irq, some (.spsr .irq)),
      (.svc, some (.spsr .svc)), (.abt, some (.spsr .abt)), (.und, some (.spsr .und))], bank .spsr e.1 = e.2) ∧
  (∀ r r' m m', r ≠ .r15 → bankReg r m = bankReg r' m' → r = r') ∧
  (∀ r m m', (r = RegNum.r13 ∨ r = .r14) → bankReg r m = bankReg r m' →
    m = m' ∨ (m = .usr ∨ m = .sys) ∧ (m' = .usr ∨ m' = .sys)) ∧
  ∀ m m' b, Mode.spsr m = some b → Mode.spsr m' = some b → m = m'

/-- R11, R25, R27, R28, R41: a register operand reads its bank's word, or pc + 8 for r15, and stops on an unknown
word; a write goes to that word, which becomes known, and to nothing else of the state: no other of the 37
words, not the mode, not memory; a write of r15 sets the pc and nothing else. -/
def Obligations.LogicalReadsAndWrites : Prop :=
  ∀ (s : State) (v : Word),
    s.readReg .r15 = .ok (s.pc + 8) ∧ s.writeReg .r15 v = { s with pc := v } ∧
    ∀ r p, bankReg r s.mode = some p →
      ((s.getReg p).known = true → s.readReg r = .ok (s.getReg p).val) ∧
      ((s.getReg p).known = false → s.readReg r = .error (.fault (.unknownRead (.word p)))) ∧
      (s.writeReg r v).readReg r = .ok v ∧
      s.writeReg r v = { s with regs := (s.writeReg r v).regs } ∧
      ∀ q, (s.writeReg r v).getReg q = if q = p then ⟨v, true⟩ else s.getReg q

/-- R25, R35: `setMode` writes the mode and the mode field, known, and nothing else of CPSR; no value moves between
words, so every register reads as before after a switch there and back. -/
def Obligations.ModeSwitchCopiesNothing : Prop :=
  ∀ (s : State) (m : Mode),
    (s.setMode m).mode = m ∧ (s.setMode m).cpsr.modeBits = m.encoding ∧
    (∀ k, k < 5 → (s.setMode m).cpsr.knows k = true) ∧
    (∀ k, 5 ≤ k → (s.setMode m).cpsr.bit k = s.cpsr.bit k ∧ (s.setMode m).cpsr.knows k = s.cpsr.knows k) ∧
    (s.setMode m).regs = s.regs ∧ (s.setMode m).spsrs = s.spsrs ∧ (s.setMode m).pc = s.pc ∧
    (s.setMode m).mem = s.mem ∧ (∀ b, m.spsr = some b → (s.setMode m).spsrSlot = b) ∧
    (m.spsr = none → (s.setMode m).spsrSlot = s.spsrSlot) ∧
    ∀ r, ((s.setMode m).setMode s.mode).readReg r = s.readReg r

/-- R49, R50: after a word write, the word reads back, and each of its bytes is its eight bits; no other byte
changes. -/
def Obligations.WordReadAfterWrite : Prop :=
  ∀ (m : Memory) (a v : Word), Memory.wf m = true →
    Memory.readWord (Memory.writeWord m a v) a = v ∧
    (∀ k, k < 4 → Memory.readByte (Memory.writeWord m a v) (a + BitVec.ofNat 32 k) = v.extractLsb' (8 * k) 8) ∧
    ∀ b, 4 ≤ (b - a).toNat → Memory.readByte (Memory.writeWord m a v) b = Memory.readByte m b

/-! ### The step and the whole machine -/

/-- R104: a step in ARM state at an aligned pc whose word decodes is `exec` of that instruction, from the state
whose record of accesses is the fetch (R48, R63); the pc still is the instruction's own address. -/
def Obligations.StepRunsDecodedInstruction : Prop :=
  ∀ (s : State) (i : Instr), Starts s → decodeWord (Memory.readWord s.mem s.pc) = some i →
    step s = exec i { s with events := [⟨.fetch, s.pc, .word, Memory.readWord s.mem s.pc, false⟩] }

/-- R30, R36, R91, R173: T = 1 stops the step first, then a misaligned pc, then a word that no row's fixed bits
match. -/
def Obligations.StepStopsBeforeExecution : Prop :=
  ∀ s : State,
    (s.cpsr.thumb = true → step s = .refused .thumbNotModelled) ∧
    (s.cpsr.thumb = false → s.pc.toNat % 4 ≠ 0 → step s = .fault (.unpredictable .misalignedFetch)) ∧
    (Starts s → (∀ r ∈ instructionTable, fetchWord s &&& r.entry.fixedBits.1 ≠ r.entry.fixedBits.2) →
      step s = .refused .noMatch)

/-- R108: the handled result is true exactly where the outcome is `Done`. -/
def Obligations.HandledExactlyWhenDone : Prop :=
  ∀ s : State, handled s = true ↔ ∃ t, step s = .next t

/-- R57, R63: a successful step records its fetch, then at most one data access, which is a read by a load or a
write by a store. -/
def Obligations.StepRecordsItsAccesses : Prop :=
  ∀ s t : State, step s = .next t → ∃ i data, decodeWord (fetchWord s) = some i ∧
    t.events = ⟨.fetch, s.pc, .word, fetchWord s, false⟩ :: data ∧ data.length ≤ 1 ∧
    (∀ e ∈ data, (e.kind = .read ∧ i.isLoad = true) ∨ (e.kind = .write ∧ i.isStore = true)) ∧
    (t.mem ≠ s.mem → ∃ e ∈ data, e.kind = .write)

/-- R34, R176, R181: bits 27:6 of CPSR, with I and F among them, are read by no instruction: with any other values
there, each stops alike or goes on to the same state but for those bits. -/
def Obligations.StorageBitsAreNotRead : Prop :=
  ∀ (i : Instr) (s : State) (p : Psr), AgreeOutsideStorage p s.cpsr →
    SameButStorage (exec i { s with cpsr := p }) (exec i s)

/-- R24, R25, R181: a register word that the current mode does not name is neither read nor written: with any
other value there, each instruction does the same and leaves that value. -/
def Obligations.HiddenRegistersAreInert : Prop :=
  ∀ (i : Instr) (s : State) (q : PhysReg) (v : Reg), Hidden s.mode q →
    exec i (s.setReg q v) = mapNext (fun t => t.setReg q v) (exec i s) ∧
    ∀ t, exec i s = .next t → t.getReg q = s.getReg q

/-- R31, R32, R38, R179, R181: a step changes the mode, M, I, F, T or a reserved bit of CPSR only by a
data-processing instruction with S = 1 and Rd = r15. -/
def Obligations.OnlyReturnChangesMode : Prop :=
  ∀ s t : State, step s = .next t →
    (t.mode ≠ s.mode ∨ ∃ k, k < 28 ∧ (t.cpsr.bit k ≠ s.cpsr.bit k ∨ t.cpsr.knows k ≠ s.cpsr.knows k)) →
    ∃ i v, decodeWord (fetchWord s) = some i ∧ dpView i = some v ∧ v.sf = true ∧ v.rd = some .r15

/-- R8, R37, R47: no step writes an SPSR or a parameter, and only a store writes memory. -/
def Obligations.StepsKeepSavedStatus : Prop :=
  ∀ s t : State, step s = .next t → t.spsrs = s.spsrs ∧ t.params = s.params ∧
    ∀ i, decodeWord (fetchWord s) = some i → i.isStore = false → t.mem = s.mem

/-- R21, R30, R33, R38, R39, R41: every step keeps the invariant: memory and registers in canonical form, CPSR's mode
field the encoding of the mode, M, T, F and I known, the pc aligned in ARM state, SPSR's slot the mode's own. -/
def Obligations.StepKeepsInvariant : Prop := ∀ s t : State, s.Inv → step s = .next t → t.Inv

/-- R20, R21, R30, R33, R42: the launch state meets the invariant for every aligned `ResetPC` and every memory in
canonical form; so does the model's own reset state (its zeros are log entry 1's choice). -/
def Obligations.LaunchMeetsInvariant : Prop :=
  (∀ (params : Params) (mem : Memory), params.resetPc.toNat % 4 = 0 → Memory.wf mem = true → (State.launch params mem).Inv) ∧
  State.reset.Inv

/-- R42, R183: the launch state: pc at `ResetPC`, SVC, I = F = 1, T = 0, every other register word, flag and status
bit unknown, memory as given, no event; a reset during a run applies the register part and leaves memory. -/
def Obligations.LaunchState : Prop :=
  ∀ (params : Params) (mem : Memory),
    let s := State.launch params mem
    s.pc = params.resetPc ∧ s.mode = .svc ∧ s.cpsr.modeBits = 0b10011 ∧ s.cpsr.bit 7 = true ∧ s.cpsr.bit 6 = true ∧
    s.cpsr.bit 5 = false ∧ (∀ k, s.cpsr.knows k = true ↔ k < 8) ∧ (∀ p, (s.getReg p).known = false) ∧
    (∀ b k, (s.getSpsr b).knows k = false) ∧ s.mem = mem ∧ s.events = [] ∧ s.params = params ∧
    ∀ t : State, t.params = params → t.mem = mem → hostAct t .reset = some s

/-- The model's reset state (log entry 1) is the launch state after host writes that R43 allows, and it has the
values that R42 states. -/
def Obligations.ResetIsHostPreparedLaunch : Prop :=
  hostActs (State.launch Config.defaults []) zeroingActions = some State.reset ∧
  State.reset.pc = 0 ∧ State.reset.mode = .svc ∧ State.reset.cpsr.modeBits = 0b10011 ∧
  State.reset.cpsr.bit 7 = true ∧ State.reset.cpsr.bit 6 = true ∧ State.reset.cpsr.bit 5 = false

end
end

