-- ==== Sys2Proof/Laws/State.lean ====
section
/-! SUPPORT. The state's updates, field by field: what each shared update of a state does to each field. -/

namespace Sys2Proof.Machine

/-! ### setPc -/

@[simp] theorem State.setPc_pc (s : State) (v : Word) : (s.setPc v).pc = v := rfl
@[simp] theorem State.setPc_regs (s : State) (v : Word) : (s.setPc v).regs = s.regs := rfl
@[simp] theorem State.setPc_mode (s : State) (v : Word) : (s.setPc v).mode = s.mode := rfl
@[simp] theorem State.setPc_cpsr (s : State) (v : Word) : (s.setPc v).cpsr = s.cpsr := rfl
@[simp] theorem State.setPc_spsrs (s : State) (v : Word) : (s.setPc v).spsrs = s.spsrs := rfl
@[simp] theorem State.setPc_spsrSlot (s : State) (v : Word) : (s.setPc v).spsrSlot = s.spsrSlot := rfl
@[simp] theorem State.setPc_mem (s : State) (v : Word) : (s.setPc v).mem = s.mem := rfl
@[simp] theorem State.setPc_events (s : State) (v : Word) : (s.setPc v).events = s.events := rfl
@[simp] theorem State.setPc_params (s : State) (v : Word) : (s.setPc v).params = s.params := rfl
@[simp] theorem State.setPc_getReg (s : State) (v : Word) (p : PhysReg) : (s.setPc v).getReg p = s.getReg p := rfl
@[simp] theorem State.setPc_getSpsr (s : State) (v : Word) (b : SpsrBank) : (s.setPc v).getSpsr b = s.getSpsr b := rfl

/-! ### setReg -/

@[simp] theorem State.setReg_pc (s : State) (p : PhysReg) (v : Reg) : (s.setReg p v).pc = s.pc := rfl
@[simp] theorem State.setReg_mode (s : State) (p : PhysReg) (v : Reg) : (s.setReg p v).mode = s.mode := rfl
@[simp] theorem State.setReg_cpsr (s : State) (p : PhysReg) (v : Reg) : (s.setReg p v).cpsr = s.cpsr := rfl
@[simp] theorem State.setReg_spsrs (s : State) (p : PhysReg) (v : Reg) : (s.setReg p v).spsrs = s.spsrs := rfl
@[simp] theorem State.setReg_spsrSlot (s : State) (p : PhysReg) (v : Reg) : (s.setReg p v).spsrSlot = s.spsrSlot := rfl
@[simp] theorem State.setReg_mem (s : State) (p : PhysReg) (v : Reg) : (s.setReg p v).mem = s.mem := rfl
@[simp] theorem State.setReg_events (s : State) (p : PhysReg) (v : Reg) : (s.setReg p v).events = s.events := rfl
@[simp] theorem State.setReg_params (s : State) (p : PhysReg) (v : Reg) : (s.setReg p v).params = s.params := rfl
@[simp] theorem State.setReg_getSpsr (s : State) (p : PhysReg) (v : Reg) (b : SpsrBank) :
    (s.setReg p v).getSpsr b = s.getSpsr b := rfl

/-! ### record -/

@[simp] theorem State.record_pc (s : State) (e : MemEvent) : (s.record e).pc = s.pc := rfl
@[simp] theorem State.record_regs (s : State) (e : MemEvent) : (s.record e).regs = s.regs := rfl
@[simp] theorem State.record_mode (s : State) (e : MemEvent) : (s.record e).mode = s.mode := rfl
@[simp] theorem State.record_cpsr (s : State) (e : MemEvent) : (s.record e).cpsr = s.cpsr := rfl
@[simp] theorem State.record_spsrs (s : State) (e : MemEvent) : (s.record e).spsrs = s.spsrs := rfl
@[simp] theorem State.record_spsrSlot (s : State) (e : MemEvent) : (s.record e).spsrSlot = s.spsrSlot := rfl
@[simp] theorem State.record_mem (s : State) (e : MemEvent) : (s.record e).mem = s.mem := rfl
@[simp] theorem State.record_events (s : State) (e : MemEvent) : (s.record e).events = s.events ++ [e] := rfl
@[simp] theorem State.record_params (s : State) (e : MemEvent) : (s.record e).params = s.params := rfl
@[simp] theorem State.record_getReg (s : State) (e : MemEvent) (p : PhysReg) : (s.record e).getReg p = s.getReg p := rfl
@[simp] theorem State.record_getSpsr (s : State) (e : MemEvent) (b : SpsrBank) : (s.record e).getSpsr b = s.getSpsr b := rfl

/-! ### setFlags -/

@[simp] theorem State.setFlags_pc (s : State) (o : AluOut) (c : ShiftCarry) : (s.setFlags o c).pc = s.pc := rfl
@[simp] theorem State.setFlags_regs (s : State) (o : AluOut) (c : ShiftCarry) : (s.setFlags o c).regs = s.regs := rfl
@[simp] theorem State.setFlags_mode (s : State) (o : AluOut) (c : ShiftCarry) : (s.setFlags o c).mode = s.mode := rfl
@[simp] theorem State.setFlags_cpsr (s : State) (o : AluOut) (c : ShiftCarry) :
    (s.setFlags o c).cpsr = s.cpsr.setFlags o c := rfl
@[simp] theorem State.setFlags_spsrs (s : State) (o : AluOut) (c : ShiftCarry) : (s.setFlags o c).spsrs = s.spsrs := rfl
@[simp] theorem State.setFlags_spsrSlot (s : State) (o : AluOut) (c : ShiftCarry) :
    (s.setFlags o c).spsrSlot = s.spsrSlot := rfl
@[simp] theorem State.setFlags_mem (s : State) (o : AluOut) (c : ShiftCarry) : (s.setFlags o c).mem = s.mem := rfl
@[simp] theorem State.setFlags_events (s : State) (o : AluOut) (c : ShiftCarry) : (s.setFlags o c).events = s.events := rfl
@[simp] theorem State.setFlags_params (s : State) (o : AluOut) (c : ShiftCarry) : (s.setFlags o c).params = s.params := rfl
@[simp] theorem State.setFlags_getReg (s : State) (o : AluOut) (c : ShiftCarry) (p : PhysReg) :
    (s.setFlags o c).getReg p = s.getReg p := rfl
@[simp] theorem State.setFlags_getSpsr (s : State) (o : AluOut) (c : ShiftCarry) (b : SpsrBank) :
    (s.setFlags o c).getSpsr b = s.getSpsr b := rfl

/-! ### setMode -/

@[simp] theorem State.setMode_pc (s : State) (m : Mode) : (s.setMode m).pc = s.pc := rfl
@[simp] theorem State.setMode_regs (s : State) (m : Mode) : (s.setMode m).regs = s.regs := rfl
@[simp] theorem State.setMode_mode (s : State) (m : Mode) : (s.setMode m).mode = m := rfl
@[simp] theorem State.setMode_cpsr (s : State) (m : Mode) : (s.setMode m).cpsr = s.cpsr.setMode m := rfl
@[simp] theorem State.setMode_spsrs (s : State) (m : Mode) : (s.setMode m).spsrs = s.spsrs := rfl
@[simp] theorem State.setMode_spsrSlot (s : State) (m : Mode) :
    (s.setMode m).spsrSlot = m.spsr.getD s.spsrSlot := rfl
@[simp] theorem State.setMode_mem (s : State) (m : Mode) : (s.setMode m).mem = s.mem := rfl
@[simp] theorem State.setMode_events (s : State) (m : Mode) : (s.setMode m).events = s.events := rfl
@[simp] theorem State.setMode_params (s : State) (m : Mode) : (s.setMode m).params = s.params := rfl

/-! ### writeReg and writeBack: nothing but the named word, or the pc for r15 -/

@[simp] theorem State.writeReg_mode (s : State) (r : RegNum) (v : Word) : (s.writeReg r v).mode = s.mode := by
  unfold State.writeReg; split <;> rfl
@[simp] theorem State.writeReg_cpsr (s : State) (r : RegNum) (v : Word) : (s.writeReg r v).cpsr = s.cpsr := by
  unfold State.writeReg; split <;> rfl
@[simp] theorem State.writeReg_spsrs (s : State) (r : RegNum) (v : Word) : (s.writeReg r v).spsrs = s.spsrs := by
  unfold State.writeReg; split <;> rfl
@[simp] theorem State.writeReg_spsrSlot (s : State) (r : RegNum) (v : Word) : (s.writeReg r v).spsrSlot = s.spsrSlot := by
  unfold State.writeReg; split <;> rfl
@[simp] theorem State.writeReg_mem (s : State) (r : RegNum) (v : Word) : (s.writeReg r v).mem = s.mem := by
  unfold State.writeReg; split <;> rfl
@[simp] theorem State.writeReg_events (s : State) (r : RegNum) (v : Word) : (s.writeReg r v).events = s.events := by
  unfold State.writeReg; split <;> rfl
@[simp] theorem State.writeReg_params (s : State) (r : RegNum) (v : Word) : (s.writeReg r v).params = s.params := by
  unfold State.writeReg; split <;> rfl
@[simp] theorem State.writeReg_getSpsr (s : State) (r : RegNum) (v : Word) (b : SpsrBank) :
    (s.writeReg r v).getSpsr b = s.getSpsr b := by
  unfold State.writeReg; split <;> rfl

@[simp] theorem State.writeBack_mode (s : State) (r : RegNum) (a : Address) : (s.writeBack r a).mode = s.mode := by
  unfold State.writeBack; split <;> simp
@[simp] theorem State.writeBack_cpsr (s : State) (r : RegNum) (a : Address) : (s.writeBack r a).cpsr = s.cpsr := by
  unfold State.writeBack; split <;> simp
@[simp] theorem State.writeBack_spsrs (s : State) (r : RegNum) (a : Address) : (s.writeBack r a).spsrs = s.spsrs := by
  unfold State.writeBack; split <;> simp
@[simp] theorem State.writeBack_spsrSlot (s : State) (r : RegNum) (a : Address) : (s.writeBack r a).spsrSlot = s.spsrSlot := by
  unfold State.writeBack; split <;> simp
@[simp] theorem State.writeBack_mem (s : State) (r : RegNum) (a : Address) : (s.writeBack r a).mem = s.mem := by
  unfold State.writeBack; split <;> simp
@[simp] theorem State.writeBack_events (s : State) (r : RegNum) (a : Address) : (s.writeBack r a).events = s.events := by
  unfold State.writeBack; split <;> simp
@[simp] theorem State.writeBack_params (s : State) (r : RegNum) (a : Address) : (s.writeBack r a).params = s.params := by
  unfold State.writeBack; split <;> simp
@[simp] theorem State.writeBack_getSpsr (s : State) (r : RegNum) (a : Address) (b : SpsrBank) :
    (s.writeBack r a).getSpsr b = s.getSpsr b := by
  unfold State.writeBack; split <;> simp

/-! ### fetched -/

@[simp] theorem State.fetched_pc (s : State) : s.fetched.pc = s.pc := rfl
@[simp] theorem State.fetched_regs (s : State) : s.fetched.regs = s.regs := rfl
@[simp] theorem State.fetched_mode (s : State) : s.fetched.mode = s.mode := rfl
@[simp] theorem State.fetched_cpsr (s : State) : s.fetched.cpsr = s.cpsr := rfl
@[simp] theorem State.fetched_spsrs (s : State) : s.fetched.spsrs = s.spsrs := rfl
@[simp] theorem State.fetched_spsrSlot (s : State) : s.fetched.spsrSlot = s.spsrSlot := rfl
@[simp] theorem State.fetched_mem (s : State) : s.fetched.mem = s.mem := rfl
@[simp] theorem State.fetched_params (s : State) : s.fetched.params = s.params := rfl
@[simp] theorem State.fetched_getReg (s : State) (p : PhysReg) : s.fetched.getReg p = s.getReg p := rfl
@[simp] theorem State.fetched_getSpsr (s : State) (b : SpsrBank) : s.fetched.getSpsr b = s.getSpsr b := rfl
@[simp] theorem State.fetched_events (s : State) :
    s.fetched.events = [⟨.fetch, s.pc, .word, fetchWord s, false⟩] := rfl

end Sys2Proof.Machine
end

