-- ==== Sys2Proof/Laws/Psr.lean ====
section
/-! SUPPORT. Status registers: what writing a bit, a flag or the mode field does to each bit, and the
canonical form that every write keeps. -/

namespace Sys2Proof.Machine

/-- A bit after `setbit` (R14). -/
theorem bit_setbit (v : Word) (i : Fin 32) (b : Bool) (j : Fin 32) :
    Bits.bit j (Bits.setbit v i b) = if i = j then b else Bits.bit j v := by
  have hj := j.isLt
  unfold Bits.setbit Bits.bit
  by_cases h : i = j
  · subst h; cases b <;> simp
  · have hv : i.val ≠ j.val := fun e => h (Fin.ext e)
    cases b <;>
    · by_cases hlt : j.val < i.val
      · simp [h, hlt]
      · have : ¬ (j.val - i.val = 0) := by omega
        simp [h, hlt, this]

/-- A bit of a status register after a write of one bit. -/
theorem Psr.bit_setBit (p : Psr) (i : Fin 32) (b : Bool) (j : Fin 32) :
    (p.setBit i b).bit j = if i = j then b else p.bit j := bit_setbit _ _ _ _

/-- A written bit becomes known, and no other changes. -/
theorem Psr.knows_setBit (p : Psr) (i : Fin 32) (b : Bool) (j : Fin 32) :
    (p.setBit i b).knows j = (decide (i = j) || p.knows j) := by
  have := bit_setbit p.known i true j
  unfold Psr.knows Psr.setBit
  simp only [this]
  by_cases h : i = j <;> simp [h]

theorem Flag.position_ge (f : Flag) : 28 ≤ f.position := by cases f <;> decide

theorem Psr.bit_setFlag (p : Psr) (f : Flag) (b : Bool) (j : Fin 32) :
    (p.setFlag f b).bit j = if f.position = j then b else p.bit j := Psr.bit_setBit p f.position b j

theorem Psr.knows_setFlag (p : Psr) (f : Flag) (b : Bool) (j : Fin 32) :
    (p.setFlag f b).knows j = (decide (f.position = j) || p.knows j) := Psr.knows_setBit p f.position b j

/-- Two status registers with the same bits and the same known bits are equal. -/
theorem Psr.ext_bits {p q : Psr} (hb : ∀ i, p.bit i = q.bit i) (hk : ∀ i, p.knows i = q.knows i) : p = q := by
  have h1 : p.val = q.val := BitVec.eq_of_getLsbD_eq (fun i hi => hb ⟨i, hi⟩)
  have h2 : p.known = q.known := BitVec.eq_of_getLsbD_eq (fun i hi => hk ⟨i, hi⟩)
  cases p; cases q; simp_all

/-- The canonical form bit by bit: a bit that is 1 is known. -/
theorem Psr.wf_iff {p : Psr} : p.wf = true ↔ ∀ i, p.bit i = true → p.knows i = true := by
  unfold Psr.wf
  rw [decide_eq_true_eq]
  constructor
  · intro h i hb
    have := congrArg (fun v => BitVec.getLsbD v i) h
    simp only [BitVec.getLsbD_and, BitVec.getLsbD_not, i.isLt, decide_true, Bool.true_and] at this
    unfold Psr.bit Bits.bit at hb
    rw [hb] at this
    simpa [Psr.knows, Bits.bit] using this
  · intro h
    apply BitVec.eq_of_getLsbD_eq
    intro i hi
    have := h ⟨i, hi⟩
    simp only [BitVec.getLsbD_and, BitVec.getLsbD_not, hi, decide_true, Bool.true_and]
    unfold Psr.bit Psr.knows Bits.bit at this
    cases hb : p.val.getLsbD i
    · simp
    · simp [this hb]

theorem Psr.wf_setFlag {p : Psr} (h : p.wf = true) (f : Flag) (b : Bool) : (p.setFlag f b).wf = true := by
  rw [Psr.wf_iff] at h ⊢
  intro i hb
  rw [Psr.bit_setFlag] at hb
  rw [Psr.knows_setFlag]
  by_cases e : f.position = i
  · simp [e]
  · simp only [e, if_false] at hb
    simp [h i hb]

theorem Psr.wf_setFlags {p : Psr} (h : p.wf = true) (o : AluOut) (c : ShiftCarry) : (p.setFlags o c).wf = true := by
  unfold Psr.setFlags Psr.setNZ
  split
  · cases c <;> simp only [Psr.setShiftCarry] <;> (repeat' first | apply Psr.wf_setFlag | exact h)
  · repeat' first | apply Psr.wf_setFlag | exact h

/-- Writing the flags changes no bit below 28 (R31). -/
theorem Psr.bit_setFlags_low (p : Psr) (o : AluOut) (c : ShiftCarry) {j : Fin 32} (hj : j < 28) :
    (p.setFlags o c).bit j = p.bit j := by
  have hne : ∀ f : Flag, f.position ≠ j := fun f e => absurd (e ▸ f.position_ge) (Fin.not_le.mpr hj)
  unfold Psr.setFlags Psr.setNZ
  split
  · cases c <;> simp [Psr.setShiftCarry, Psr.bit_setFlag, hne]
  · simp [Psr.bit_setFlag, hne]

theorem Psr.knows_setFlags_low (p : Psr) (o : AluOut) (c : ShiftCarry) {j : Fin 32} (hj : j < 28) :
    (p.setFlags o c).knows j = p.knows j := by
  have hne : ∀ f : Flag, f.position ≠ j := fun f e => absurd (e ▸ f.position_ge) (Fin.not_le.mpr hj)
  unfold Psr.setFlags Psr.setNZ
  split
  · cases c <;> simp [Psr.setShiftCarry, Psr.knows_setFlag, hne]
  · simp [Psr.knows_setFlag, hne]

theorem Psr.thumb_setFlags (p : Psr) (o : AluOut) (c : ShiftCarry) : (p.setFlags o c).thumb = p.thumb :=
  Psr.bit_setFlags_low p o c (by decide)

/-- Equal bits 4:0 are equal mode fields. -/
theorem Psr.modeBits_eq {p q : Psr} (h : ∀ i : Fin 32, i < 5 → p.bit i = q.bit i) : p.modeBits = q.modeBits := by
  apply BitVec.eq_of_getLsbD_eq
  intro i hi
  simpa [Psr.modeBits, Psr.bit, Bits.bit, hi] using h ⟨i, by omega⟩ hi

theorem Psr.modeBits_setFlags (p : Psr) (o : AluOut) (c : ShiftCarry) : (p.setFlags o c).modeBits = p.modeBits :=
  Psr.modeBits_eq (fun _ hi => Psr.bit_setFlags_low p o c (Fin.lt_trans hi (by decide)))

/-! ### The mode field -/

@[simp] theorem Mode.ofEncoding_encoding (m : Mode) : Mode.ofEncoding m.encoding = some m := by cases m <;> rfl

theorem Mode.encoding_of_ofEncoding {v : BitVec 5} {m : Mode} (h : Mode.ofEncoding v = some m) : v = m.encoding := by
  have all : ∀ v : BitVec 5, ∀ m ∈ [Mode.usr, .fiq, .irq, .svc, .abt, .und, .sys], Mode.ofEncoding v = some m → v = m.encoding := by
    decide
  exact all v m (by cases m <;> decide) h

theorem Psr.modeBits_setMode (p : Psr) (m : Mode) : (p.setMode m).modeBits = m.encoding := by
  apply BitVec.eq_of_getLsbD_eq
  intro i hi
  have : i = 0 ∨ i = 1 ∨ i = 2 ∨ i = 3 ∨ i = 4 := by omega
  rcases this with h | h | h | h | h <;> subst h <;> cases m <;>
    simp [Psr.modeBits, Psr.setMode, Bits.FieldMask.replace, Bits.FieldMask.mask, modeField, Mode.encoding]

theorem Psr.knows_setMode_mode (p : Psr) (m : Mode) {i : Fin 32} (hi : i < 5) : (p.setMode m).knows i = true := by
  have : i = 0 ∨ i = 1 ∨ i = 2 ∨ i = 3 ∨ i = 4 := by revert i; decide
  rcases this with h | h | h | h | h <;> subst h <;>
    simp [Psr.knows, Psr.setMode, Bits.bit, Bits.FieldMask.replace, Bits.FieldMask.mask, modeField]

theorem modeField_bits : ∀ i : Fin 32, 5 ≤ i → (31#32)[i.val] = false ∧ (4294967264#32)[i.val] = true := by decide

theorem modeField_replace_high (w v : Word) {i : Fin 32} (hi : 5 ≤ i) :
    (modeField.replace w v).getLsbD i = w.getLsbD i := by
  obtain ⟨h1, h2⟩ := modeField_bits i hi
  simp [Bits.FieldMask.replace, Bits.FieldMask.mask, modeField, h1, h2]

/-- A mode switch changes no bit above the mode field (R35). -/
theorem Psr.bit_setMode_high (p : Psr) (m : Mode) {i : Fin 32} (hi : 5 ≤ i) : (p.setMode m).bit i = p.bit i :=
  modeField_replace_high _ _ hi

theorem Psr.knows_setMode_high (p : Psr) (m : Mode) {i : Fin 32} (hi : 5 ≤ i) : (p.setMode m).knows i = p.knows i :=
  modeField_replace_high _ _ hi

/-- Writing the mode a status register already holds, known, changes nothing. -/
theorem Psr.setMode_self {p : Psr} {m : Mode} (hm : p.modeBits = m.encoding) (hk : ∀ i : Fin 32, i < 5 → p.knows i = true) :
    p.setMode m = p := by
  apply Psr.ext_bits
  · intro i
    by_cases h : i < 5
    · have := congrArg (fun v => BitVec.getLsbD v i) ((Psr.modeBits_setMode p m).trans hm.symm)
      have h' : i.val < 5 := h
      simpa [Psr.modeBits, Psr.bit, Bits.bit, h'] using this
    · exact Psr.bit_setMode_high p m (Fin.not_lt.mp h)
  · intro i
    by_cases h : i < 5
    · rw [Psr.knows_setMode_mode p m h, hk i h]
    · exact Psr.knows_setMode_high p m (Fin.not_lt.mp h)

/-! ### RestoreCPSR -/

/-- All that a restore can do (R38): where it succeeds, the SPSR's readable bits are known, its mode is
legal, and CPSR is the SPSR whole. -/
theorem State.restoreCpsr_ok {s t : State} (h : s.restoreCpsr = .ok t) :
    ∃ b m, s.mode.spsr = some b ∧ (∀ i ∈ restoreReads, (s.getSpsr b).knows i = true) ∧
      (s.getSpsr b).modeBits = m.encoding ∧
      t = { s with cpsr := s.getSpsr b, mode := m, spsrSlot := m.spsr.getD s.spsrSlot } := by
  unfold State.restoreCpsr at h
  cases hb : s.mode.spsr with
  | none => simp [hb] at h
  | some b =>
    simp only [hb] at h
    cases hf : restoreReads.find? (fun i => !(s.getSpsr b).knows i) with
    | some i => simp [hf] at h
    | none =>
      simp only [hf] at h
      cases hm : Mode.ofEncoding (s.getSpsr b).modeBits with
      | none => simp [hm] at h
      | some m =>
        simp only [hm, Except.ok.injEq] at h
        have hk : ∀ i ∈ restoreReads, (s.getSpsr b).knows i = true := by
          intro i hi
          have := List.find?_eq_none.mp hf i hi
          simpa using this
        have hme := Mode.encoding_of_ofEncoding hm
        have hself : (s.getSpsr b).setMode m = s.getSpsr b :=
          Psr.setMode_self hme (fun i hi => hk i (by revert i; decide))
        refine ⟨b, m, rfl, hk, hme, ?_⟩
        subst h
        simp [State.setMode, hself]

end Sys2Proof.Machine
end

