-- ==== Sys2Proof/Laws/Registers.lean ====
section
/-! SUPPORT. The register file: the physical words are distinct, and what a read gives after a write. -/

namespace Sys2Proof.Machine

/-- The physical word at a place of the register file. -/
def PhysReg.ofIndex : Nat → PhysReg
  | 0 => .R0 | 1 => .R1 | 2 => .R2 | 3 => .R3 | 4 => .R4 | 5 => .R5 | 6 => .R6 | 7 => .R7
  | 8 => .R8_usr | 9 => .R9_usr | 10 => .R10_usr | 11 => .R11_usr | 12 => .R12_usr
  | 13 => .R8_fiq | 14 => .R9_fiq | 15 => .R10_fiq | 16 => .R11_fiq | 17 => .R12_fiq
  | 18 => .R13_usr | 19 => .R14_usr | 20 => .R13_fiq | 21 => .R14_fiq | 22 => .R13_irq | 23 => .R14_irq
  | 24 => .R13_svc | 25 => .R14_svc | 26 => .R13_abt | 27 => .R14_abt | 28 => .R13_und | _ => .R14_und

theorem PhysReg.ofIndex_index (p : PhysReg) : PhysReg.ofIndex p.index = p := by cases p <;> rfl

theorem PhysReg.index_injective {p q : PhysReg} (h : p.index = q.index) : p = q := by
  rw [← PhysReg.ofIndex_index p, h, PhysReg.ofIndex_index]

theorem SpsrBank.index_injective {a b : SpsrBank} (h : a.index = b.index) : a = b := by
  cases a <;> cases b <;> first | rfl | exact absurd h (by decide)

@[simp] theorem State.getReg_setReg_same (s : State) (p : PhysReg) (v : Reg) : (s.setReg p v).getReg p = v := by
  simp [State.getReg, State.setReg]

theorem State.getReg_setReg_other (s : State) {p q : PhysReg} (v : Reg) (h : p ≠ q) :
    (s.setReg p v).getReg q = s.getReg q := by
  have hne : (p.index : Nat) ≠ q.index := fun e => h (PhysReg.index_injective (Fin.ext e))
  simp [State.getReg, State.setReg, hne]

theorem State.getReg_setReg (s : State) (p q : PhysReg) (v : Reg) :
    (s.setReg p v).getReg q = if p = q then v else s.getReg q := by
  by_cases h : p = q
  · subst h; simp
  · simp [h, State.getReg_setReg_other]

theorem State.getSpsr_setSpsr (s : State) (a b : SpsrBank) (v : Psr) :
    (s.setSpsr a v).getSpsr b = if a = b then v else s.getSpsr b := by
  by_cases h : a = b
  · subst h; simp [State.getSpsr, State.setSpsr]
  · have hne : (a.index : Nat) ≠ b.index := fun e => h (SpsrBank.index_injective (Fin.ext e))
    simp [h, State.getSpsr, State.setSpsr, hne]

@[simp] theorem bankReg_eq_none {r : RegNum} {m : Mode} : bankReg r m = none ↔ r = .r15 := by
  cases r <;> simp [bankReg]

theorem bankReg_some {r : RegNum} (h : r ≠ .r15) (m : Mode) : ∃ p, bankReg r m = some p :=
  Option.ne_none_iff_exists'.mp (fun e => h (bankReg_eq_none.mp e))

@[simp] theorem State.writeReg_r15 (s : State) (v : Word) : s.writeReg .r15 v = s.setPc v := rfl

theorem State.writeReg_of_bank {s : State} {r : RegNum} {p : PhysReg} (h : bankReg r s.mode = some p) (v : Word) :
    s.writeReg r v = s.setReg p ⟨v, true⟩ := by simp [State.writeReg, h]

@[simp] theorem State.writeReg_pc {s : State} {r : RegNum} (h : r ≠ .r15) (v : Word) : (s.writeReg r v).pc = s.pc := by
  obtain ⟨p, hp⟩ := bankReg_some h s.mode
  simp [State.writeReg_of_bank hp]

/-- A write of a register changes the word its bank names and no other (R25). -/
theorem State.getReg_writeReg (s : State) (r : RegNum) (v : Word) (q : PhysReg) :
    (s.writeReg r v).getReg q = if bankReg r s.mode = some q then ⟨v, true⟩ else s.getReg q := by
  by_cases hr : r = .r15
  · subst hr; simp [bankReg]
  · obtain ⟨p, hp⟩ := bankReg_some hr s.mode
    simp [State.writeReg_of_bank hp, hp, State.getReg_setReg]

theorem State.getReg_writeBack (s : State) (r : RegNum) (a : Address) (q : PhysReg) :
    (s.writeBack r a).getReg q = if a.wb ∧ bankReg r s.mode = some q then ⟨a.addr, true⟩ else s.getReg q := by
  unfold State.writeBack
  by_cases h : a.wb <;> simp [h, State.getReg_writeReg]

/-- A register operand that is read is the value of its word, or `pc + 8` for r15 (R27). -/
theorem State.readReg_ok {s : State} {r : RegNum} {v : Word} :
    s.readReg r = .ok v ↔ s.unknownWord r = none ∧ s.regValue r = v := by
  unfold State.readReg
  cases h : s.unknownWord r <;> simp

@[simp] theorem State.readReg_r15 (s : State) : s.readReg .r15 = .ok (s.pc + 8) := rfl

theorem State.readReg_of_bank {s : State} {r : RegNum} {p : PhysReg} (h : bankReg r s.mode = some p)
    (hk : (s.getReg p).known = true) : s.readReg r = .ok (s.getReg p).val := by
  simp [State.readReg, State.unknownWord, State.regValue, h, hk]

end Sys2Proof.Machine
end

