-- ==== Sys2Proof/Laws/Gate.lean ====
section
/-! SUPPORT. What the shared stages can do: one inversion lemma for the gate, and one each for the shared
bodies of the data-processing instructions and of the loads and stores. -/

namespace Sys2Proof.Machine

@[simp] theorem outcome_next {r : Except Stop State} {t : State} : outcome r = .next t ↔ r = .ok t := by
  rcases r with (f | r) | s <;> simp [outcome]

/-- A gated instruction that succeeds passed its field checks, has a condition other than NV, and either failed
its condition and only advanced, or ran its body. -/
theorem runGated_next {check : Option Stop} {c : Cond} {body : State → Except Stop State} {s t : State} :
    runGated check c body s = .next t ↔
      check = none ∧ c ≠ .nv ∧ ((conditionPassed c s.cpsr = .ok false ∧ t = s.setPc s.nextPc) ∨
        (conditionPassed c s.cpsr = .ok true ∧ body s = .ok t)) := by
  unfold runGated
  cases check with
  | some stop => simp
  | none =>
    by_cases hc : c = .nv
    · simp [hc]
    · simp only [hc, if_false, ne_eq, not_false_eq_true, true_and]
      cases h : conditionPassed c s.cpsr with
      | error stop => simp
      | ok b =>
        cases b
        · simp [eq_comm]
        · simp

/-- A gated instruction that is admitted and passes its condition is its body. -/
theorem runGated_pass {c : Cond} {body : State → Except Stop State} {s : State} (hc : c ≠ .nv)
    (hp : conditionPassed c s.cpsr = .ok true) : runGated none c body s = outcome (body s) := by
  simp [runGated, hc, hp]

/-- A gated instruction that is admitted and fails its condition advances (R107). -/
theorem runGated_fail {c : Cond} {body : State → Except Stop State} {s : State} (hc : c ≠ .nv)
    (hp : conditionPassed c s.cpsr = .ok false) : runGated none c body s = .next (s.setPc s.nextPc) := by
  simp [runGated, hc, hp]

theorem Except.bind_ok {ε α β : Type} {x : Except ε α} {f : α → Except ε β} {r : β} :
    (x >>= f) = .ok r ↔ ∃ a, x = .ok a ∧ f a = .ok r := by
  cases x with
  | error e => simp [bind, Except.bind]
  | ok a => simp [bind, Except.bind]

/-! ### Data processing -/

/-- All that the destination part of R133 can do where it succeeds. -/
theorem dpWrite_ok {sf : Bool} {rd : RegNum} {out : AluOut} {sc : ShiftCarry} {s t : State}
    (h : dpWrite sf rd out sc s = .ok t) :
    (rd ≠ .r15 ∧ sf = false ∧ t = (s.writeReg rd out.result).setPc s.nextPc) ∨
    (rd ≠ .r15 ∧ sf = true ∧ t = ((s.writeReg rd out.result).setFlags out sc).setPc s.nextPc) ∨
    (rd = .r15 ∧ sf = false ∧ Bits.low2 out.result = 0 ∧ t = s.setPc out.result) ∨
    (rd = .r15 ∧ sf = true ∧ ∃ u, s.restoreCpsr = .ok u ∧ (u.cpsr.thumb = false → Bits.low2 out.result = 0) ∧
      t = u.setPc out.result) := by
  unfold dpWrite at h
  by_cases hr : rd = .r15
  · simp only [hr, if_true] at h
    unfold writePcDp at h
    cases sf with
    | false =>
      rw [if_neg (by simp)] at h
      by_cases hl : Bits.low2 out.result ≠ 0
      · rw [if_pos hl] at h; simp at h
      · rw [if_neg hl, Except.ok.injEq] at h
        exact .inr (.inr (.inl ⟨hr, rfl, not_not.mp hl, h.symm⟩))
    | true =>
      rw [if_pos rfl] at h
      obtain ⟨u, hu, h⟩ := Except.bind_ok.mp h
      by_cases hl : u.cpsr.thumb = false ∧ Bits.low2 out.result ≠ 0
      · rw [if_pos hl] at h; simp at h
      · rw [if_neg hl, Except.ok.injEq] at h
        refine .inr (.inr (.inr ⟨hr, rfl, u, hu, ?_, h.symm⟩))
        intro ht
        by_contra hn
        exact hl ⟨ht, hn⟩
  · cases sf <;> simp [hr] at h <;> simp [hr, ← h]

/-- All that a data-processing instruction with Rn and Rd can do where it succeeds. -/
theorem dpBinary_next {op : AluOp} {c : Cond} {sf : Bool} {rn rd : RegNum} {op2 : Operand2} {s t : State}
    (h : dpBinary op c sf rn rd op2 s = .next t) :
    dpCheck op2 [rn, rd] = none ∧ c ≠ .nv ∧
    ((conditionPassed c s.cpsr = .ok false ∧ t = s.setPc s.nextPc) ∨
     (conditionPassed c s.cpsr = .ok true ∧ ∃ sh a out, shifter op2 s = .ok sh ∧ s.readReg rn = .ok a ∧
        op s a sh.operand = .ok out ∧ dpWrite sf rd out sh.carry s = .ok t)) := by
  obtain ⟨h1, h2, h3⟩ := runGated_next.mp h
  refine ⟨h1, h2, h3.imp id ?_⟩
  rintro ⟨hp, hb⟩
  refine ⟨hp, ?_⟩
  obtain ⟨sh, hsh, hb⟩ := Except.bind_ok.mp hb
  obtain ⟨a, ha, hb⟩ := Except.bind_ok.mp hb
  obtain ⟨out, ho, hb⟩ := Except.bind_ok.mp hb
  exact ⟨sh, a, out, hsh, ha, ho, hb⟩

/-- All that MOV and MVN can do where they succeed. -/
theorem dpUnary_next {op : Word → AluOut} {c : Cond} {sf : Bool} {rd : RegNum} {op2 : Operand2} {s t : State}
    (h : dpUnary op c sf rd op2 s = .next t) :
    dpCheck op2 [rd] = none ∧ c ≠ .nv ∧
    ((conditionPassed c s.cpsr = .ok false ∧ t = s.setPc s.nextPc) ∨
     (conditionPassed c s.cpsr = .ok true ∧ ∃ sh, shifter op2 s = .ok sh ∧
        dpWrite sf rd (op sh.operand) sh.carry s = .ok t)) := by
  obtain ⟨h1, h2, h3⟩ := runGated_next.mp h
  refine ⟨h1, h2, h3.imp id ?_⟩
  rintro ⟨hp, hb⟩
  obtain ⟨sh, hsh, hb⟩ := Except.bind_ok.mp hb
  exact ⟨hp, sh, hsh, hb⟩

/-- All that TST, TEQ, CMP and CMN can do where they succeed. -/
theorem dpCompare_next {op : Word → Word → AluOut} {c : Cond} {rn : RegNum} {op2 : Operand2} {s t : State}
    (h : dpCompare op c rn op2 s = .next t) :
    dpCheck op2 [rn] = none ∧ c ≠ .nv ∧
    ((conditionPassed c s.cpsr = .ok false ∧ t = s.setPc s.nextPc) ∨
     (conditionPassed c s.cpsr = .ok true ∧ ∃ sh a, shifter op2 s = .ok sh ∧ s.readReg rn = .ok a ∧
        t = (s.setFlags (op a sh.operand) sh.carry).setPc s.nextPc)) := by
  obtain ⟨h1, h2, h3⟩ := runGated_next.mp h
  refine ⟨h1, h2, h3.imp id ?_⟩
  rintro ⟨hp, hb⟩
  obtain ⟨sh, hsh, hb⟩ := Except.bind_ok.mp hb
  obtain ⟨a, ha, hb⟩ := Except.bind_ok.mp hb
  simp only [Except.ok.injEq] at hb
  exact ⟨hp, sh, a, hsh, ha, hb.symm⟩

/-! ### Loads and stores -/

/-- The load-word body never stops once its operands are read. -/
theorem loadWord_ok {a : Address} {user : Bool} {rn rd : RegNum} {s t : State} (h : loadWord a user rn rd s = .ok t) :
    let u := (s.record ⟨.read, Bits.align4 a.ea, .word, Memory.readWord s.mem (Bits.align4 a.ea), user⟩).writeBack rn a
    (rd = .r15 ∧ t = u.setPc (loadedWord s.mem a.ea &&& 0xFFFFFFFC#32)) ∨
    (rd ≠ .r15 ∧ t = (u.writeReg rd (loadedWord s.mem a.ea)).setPc s.nextPc) := by
  unfold loadWord at h
  by_cases hr : rd = .r15
  · simp only [hr, if_true, Except.ok.injEq] at h
    exact .inl ⟨hr, h.symm⟩
  · simp only [hr, if_false, Except.ok.injEq] at h
    exact .inr ⟨hr, h.symm⟩

theorem loadByte_ok {a : Address} {user : Bool} {rn rd : RegNum} {s t : State} (h : loadByte a user rn rd s = .ok t) :
    t = ((((s.record ⟨.read, a.ea, .byte, Bits.zext (Memory.readByte s.mem a.ea), user⟩).writeBack rn a).writeReg rd
      (Bits.zext (Memory.readByte s.mem a.ea))).setPc s.nextPc) := by
  unfold loadByte at h
  simp only [Except.ok.injEq] at h
  exact h.symm

/-- The store-word body stops on an unknown Rd or in the prefetch window, and else stores. -/
theorem storeWord_ok {a : Address} {user : Bool} {rn rd : RegNum} {s t : State} (h : storeWord a user rn rd s = .ok t) :
    ∃ v, storeValue rd s = .ok v ∧ hitsPrefetch s.pc (Bits.align4 a.ea) 4 = false ∧
      t = ((({ s with mem := Memory.writeWord s.mem (Bits.align4 a.ea) v } : State).record
        ⟨.write, Bits.align4 a.ea, .word, v, user⟩).writeBack rn a).setPc s.nextPc := by
  obtain ⟨v, hv, h⟩ := Except.bind_ok.mp h
  by_cases hp : hitsPrefetch s.pc (Bits.align4 a.ea) 4
  · simp [hp] at h
  · simp only [hp, Bool.false_eq_true, if_false, Except.ok.injEq] at h
    exact ⟨v, hv, by simpa using hp, h.symm⟩

theorem storeByte_ok {a : Address} {user : Bool} {rn rd : RegNum} {s t : State} (h : storeByte a user rn rd s = .ok t) :
    ∃ v, s.readReg rd = .ok v ∧ hitsPrefetch s.pc a.ea 1 = false ∧
      t = ((({ s with mem := Memory.writeByte s.mem a.ea (Bits.byteOf v 0) } : State).record
        ⟨.write, a.ea, .byte, Bits.zext (Bits.byteOf v 0), user⟩).writeBack rn a).setPc s.nextPc := by
  obtain ⟨v, hv, h⟩ := Except.bind_ok.mp h
  by_cases hp : hitsPrefetch s.pc a.ea 1
  · simp [hp] at h
  · simp only [hp, Bool.false_eq_true, if_false, Except.ok.injEq] at h
    exact ⟨v, hv, by simpa using hp, h.symm⟩

/-- All that a transfer of Format LSI can do where it succeeds. -/
theorem transferImm_next {access : Transfer} {load byte : Bool} {c : Cond} {p u w : Bool} {rn rd : RegNum}
    {offset : BitVec 12} {s t : State} (h : transferImm access load byte c p u w rn rd offset s = .next t) :
    transferCheck p w rn rd none load byte = none ∧ c ≠ .nv ∧
    ((conditionPassed c s.cpsr = .ok false ∧ t = s.setPc s.nextPc) ∨
     (conditionPassed c s.cpsr = .ok true ∧ ∃ base, s.readReg rn = .ok base ∧
        access (effectiveAddress p u w base (immediateOffset offset)) (userAccess p w) rn rd s = .ok t)) := by
  obtain ⟨h1, h2, h3⟩ := runGated_next.mp h
  refine ⟨h1, h2, h3.imp id ?_⟩
  rintro ⟨hp, hb⟩
  obtain ⟨base, hbase, hb⟩ := Except.bind_ok.mp hb
  exact ⟨hp, base, hbase, hb⟩

/-- All that a transfer of Format LSR can do where it succeeds. -/
theorem transferReg_next {access : Transfer} {load byte : Bool} {c : Cond} {p u w : Bool} {rn rd : RegNum}
    {amount : BitVec 5} {type : ShiftType} {rm : RegNum} {s t : State}
    (h : transferReg access load byte c p u w rn rd amount type rm s = .next t) :
    transferCheck p w rn rd (some rm) load byte = none ∧ c ≠ .nv ∧
    ((conditionPassed c s.cpsr = .ok false ∧ t = s.setPc s.nextPc) ∨
     (conditionPassed c s.cpsr = .ok true ∧ ∃ base offset, s.readReg rn = .ok base ∧
        registerOffset rm type amount s = .ok offset ∧
        access (effectiveAddress p u w base offset) (userAccess p w) rn rd s = .ok t)) := by
  obtain ⟨h1, h2, h3⟩ := runGated_next.mp h
  refine ⟨h1, h2, h3.imp id ?_⟩
  rintro ⟨hp, hb⟩
  obtain ⟨base, hbase, hb⟩ := Except.bind_ok.mp hb
  obtain ⟨offset, hoff, hb⟩ := Except.bind_ok.mp hb
  exact ⟨hp, base, offset, hbase, hoff, hb⟩

/-- The check of R156 that a base writeback passes: its base is not r15. -/
theorem transferCheck_base {p w : Bool} {rn rd : RegNum} {rm : Option RegNum} {load byte : Bool}
    (h : transferCheck p w rn rd rm load byte = none) (hw : baseWriteback p w = true) : rn ≠ .r15 := by
  intro e
  simp [transferCheck, e, hw] at h

theorem transferCheck_byte {p w : Bool} {rn rd : RegNum} {rm : Option RegNum} {load : Bool}
    (h : transferCheck p w rn rd rm load true = none) : rd ≠ .r15 := by
  intro e
  subst e
  unfold transferCheck at h
  split at h
  · simp at h
  · split at h
    · simp at h
    · split at h
      · simp at h
      · simp at h

theorem effectiveAddress_wb (p u w : Bool) (base offset : Word) :
    (effectiveAddress p u w base offset).wb = baseWriteback p w := by cases p <;> cases w <;> rfl

end Sys2Proof.Machine
end

