-- ==== Sys2Proof/Laws/Admit.lean ====
section
/-! SUPPORT. Every instruction as its field check, its condition and its body, and the field check as the
first problem of `Instr.problems`. -/

namespace Sys2Proof.Machine

/-- The body of a data-processing instruction with Rn and Rd (R133). -/
def binaryBody (op : AluOp) (sf : Bool) (rn rd : RegNum) (op2 : Operand2) (s : State) : Except Stop State := do
  let sh ← shifter op2 s
  let a ← s.readReg rn
  let out ← op s a sh.operand
  dpWrite sf rd out sh.carry s

/-- The body of MOV and MVN (R133). -/
def unaryBody (op : Word → AluOut) (sf : Bool) (rd : RegNum) (op2 : Operand2) (s : State) : Except Stop State := do
  let sh ← shifter op2 s
  dpWrite sf rd (op sh.operand) sh.carry s

/-- The body of TST, TEQ, CMP and CMN (R133). -/
def compareBody (op : Word → Word → AluOut) (rn : RegNum) (op2 : Operand2) (s : State) : Except Stop State := do
  let sh ← shifter op2 s
  let a ← s.readReg rn
  .ok ((s.setFlags (op a sh.operand) sh.carry).setPc s.nextPc)

/-- The body of a transfer of Format LSI (R155, R175). -/
def immBody (access : Transfer) (p u w : Bool) (rn rd : RegNum) (offset : BitVec 12) (s : State) : Except Stop State := do
  let base ← s.readReg rn
  access (effectiveAddress p u w base (immediateOffset offset)) (userAccess p w) rn rd s

/-- The body of a transfer of Format LSR (R155, R175). -/
def regBody (access : Transfer) (p u w : Bool) (rn rd : RegNum) (amount : BitVec 5) (type : ShiftType) (rm : RegNum)
    (s : State) : Except Stop State := do
  let base ← s.readReg rn
  let offset ← registerOffset rm type amount s
  access (effectiveAddress p u w base offset) (userAccess p w) rn rd s

/-- The checks of stages 5 to 7 (R104). -/
def check : Instr → Option Stop
  | .and _ _ rn rd op2 => dpCheck op2 [rn, rd]
  | .eor _ _ rn rd op2 => dpCheck op2 [rn, rd]
  | .sub _ _ rn rd op2 => dpCheck op2 [rn, rd]
  | .rsb _ _ rn rd op2 => dpCheck op2 [rn, rd]
  | .add _ _ rn rd op2 => dpCheck op2 [rn, rd]
  | .adc _ _ rn rd op2 => dpCheck op2 [rn, rd]
  | .sbc _ _ rn rd op2 => dpCheck op2 [rn, rd]
  | .rsc _ _ rn rd op2 => dpCheck op2 [rn, rd]
  | .tst _ rn op2 => dpCheck op2 [rn]
  | .teq _ rn op2 => dpCheck op2 [rn]
  | .cmp _ rn op2 => dpCheck op2 [rn]
  | .cmn _ rn op2 => dpCheck op2 [rn]
  | .orr _ _ rn rd op2 => dpCheck op2 [rn, rd]
  | .mov _ _ rd op2 => dpCheck op2 [rd]
  | .bic _ _ rn rd op2 => dpCheck op2 [rn, rd]
  | .mvn _ _ rd op2 => dpCheck op2 [rd]
  | .b _ _ => none
  | .bl _ _ => none
  | .strImm _ p _ w rn rd _ => transferCheck p w rn rd none false false
  | .strReg _ p _ w rn rd _ _ rm => transferCheck p w rn rd (some rm) false false
  | .ldrImm _ p _ w rn rd _ => transferCheck p w rn rd none true false
  | .ldrReg _ p _ w rn rd _ _ rm => transferCheck p w rn rd (some rm) true false
  | .strbImm _ p _ w rn rd _ => transferCheck p w rn rd none false true
  | .strbReg _ p _ w rn rd _ _ rm => transferCheck p w rn rd (some rm) false true
  | .ldrbImm _ p _ w rn rd _ => transferCheck p w rn rd none true true
  | .ldrbReg _ p _ w rn rd _ _ rm => transferCheck p w rn rd (some rm) true true
  | .cdp _ _ _ _ _ _ _ => some (.refusal (.unimplemented .cdp))
  | .mcr _ _ _ _ _ _ _ => some (.refusal (.unimplemented .mcr))
  | .mrc _ _ _ _ _ _ _ => some (.refusal (.unimplemented .mrc))

/-- Stages 11 and 12 (R104). -/
def body : Instr → State → Except Stop State
  | .and _ sf rn rd op2, s => binaryBody (plainOp fun a b => logical (a &&& b)) sf rn rd op2 s
  | .eor _ sf rn rd op2, s => binaryBody (plainOp fun a b => logical (a ^^^ b)) sf rn rd op2 s
  | .sub _ sf rn rd op2, s => binaryBody (plainOp fun a b => subWithCarry a b true) sf rn rd op2 s
  | .rsb _ sf rn rd op2, s => binaryBody (plainOp fun a b => subWithCarry b a true) sf rn rd op2 s
  | .add _ sf rn rd op2, s => binaryBody (plainOp fun a b => addWithCarry a b false) sf rn rd op2 s
  | .adc _ sf rn rd op2, s => binaryBody (carryOp fun a b cin => addWithCarry a b cin) sf rn rd op2 s
  | .sbc _ sf rn rd op2, s => binaryBody (carryOp fun a b cin => subWithCarry a b cin) sf rn rd op2 s
  | .rsc _ sf rn rd op2, s => binaryBody (carryOp fun a b cin => subWithCarry b a cin) sf rn rd op2 s
  | .tst _ rn op2, s => compareBody (fun a b => logical (a &&& b)) rn op2 s
  | .teq _ rn op2, s => compareBody (fun a b => logical (a ^^^ b)) rn op2 s
  | .cmp _ rn op2, s => compareBody (fun a b => subWithCarry a b true) rn op2 s
  | .cmn _ rn op2, s => compareBody (fun a b => addWithCarry a b false) rn op2 s
  | .orr _ sf rn rd op2, s => binaryBody (plainOp fun a b => logical (a ||| b)) sf rn rd op2 s
  | .mov _ sf rd op2, s => unaryBody (fun b => logical b) sf rd op2 s
  | .bic _ sf rn rd op2, s => binaryBody (plainOp fun a b => logical (a &&& ~~~b)) sf rn rd op2 s
  | .mvn _ sf rd op2, s => unaryBody (fun b => logical (~~~b)) sf rd op2 s
  | .b _ offset, s => .ok (s.setPc (branchTarget s.pc offset))
  | .bl _ offset, s => .ok ((s.writeReg .r14 s.nextPc).setPc (branchTarget s.pc offset))
  | .strImm _ p u w rn rd offset, s => immBody storeWord p u w rn rd offset s
  | .strReg _ p u w rn rd amount type rm, s => regBody storeWord p u w rn rd amount type rm s
  | .ldrImm _ p u w rn rd offset, s => immBody loadWord p u w rn rd offset s
  | .ldrReg _ p u w rn rd amount type rm, s => regBody loadWord p u w rn rd amount type rm s
  | .strbImm _ p u w rn rd offset, s => immBody storeByte p u w rn rd offset s
  | .strbReg _ p u w rn rd amount type rm, s => regBody storeByte p u w rn rd amount type rm s
  | .ldrbImm _ p u w rn rd offset, s => immBody loadByte p u w rn rd offset s
  | .ldrbReg _ p u w rn rd amount type rm, s => regBody loadByte p u w rn rd amount type rm s
  | .cdp _ _ _ _ _ _ _, _ => .error (.refusal (.unimplemented .cdp))
  | .mcr _ _ _ _ _ _ _, _ => .error (.refusal (.unimplemented .mcr))
  | .mrc _ _ _ _ _ _ _, _ => .error (.refusal (.unimplemented .mrc))

/-- Every instruction is its check, its condition and its body. -/
theorem exec_eq_runGated (i : Instr) (s : State) : exec i s = runGated (check i) i.cond (body i) s := by
  cases i <;> rfl

/-- A stop for a problem of the fields (R92, R113, R136, R156). -/
def problemOf : FormProblem → Stop
  | .unsupportedOperand2 => .refusal .unsupportedEncoding
  | .r15InRegisterShift => unpredictable .r15InRegisterShift
  | .r15BaseWriteback => unpredictable .r15BaseWriteback
  | .r15OffsetRegister => unpredictable .r15OffsetRegister
  | .loadBaseWriteback => unpredictable .loadBaseWriteback
  | .r15ByteTransfer => unpredictable .r15ByteTransfer
  | .reservedCondition => .fault .unknownCondition

theorem dpCheck_eq (op2 : Operand2) (regs : List RegNum) :
    dpCheck op2 regs = (op2.problems regs).head?.map problemOf := by
  cases op2 with
  | imm => rfl
  | immShift => rfl
  | unsupported => rfl
  | regShift rs ty rm =>
    have : (rs = .r15 ∨ rm = .r15 ∨ .r15 ∈ regs) ↔ (rs == .r15 || rm == .r15 || regs.contains .r15) = true := by simp [or_assoc]
    simp only [dpCheck, this, Operand2.problems, problemIf]
    split <;> rfl

theorem transferCheck_eq (p w : Bool) (rn rd : RegNum) (rm : Option RegNum) (load byte : Bool) :
    transferCheck p w rn rd rm load byte = (transferProblems p w rn rd rm load byte).head?.map problemOf := by
  have h1 : (rn = .r15 ∧ baseWriteback p w = true) ↔ (rn == .r15 && writesBack p w) = true := by
    simp [writesBack, baseWriteback]
  have h2 : rm = some .r15 ↔ (rm == some .r15) = true := by simp
  have h3 : (load = true ∧ baseWriteback p w = true ∧ rn = rd) ↔ (load && writesBack p w && rn == rd) = true := by
    simp [writesBack, baseWriteback, and_assoc]
  have h4 : (byte = true ∧ rd = .r15) ↔ (byte && rd == .r15) = true := by simp
  unfold transferCheck transferProblems problemIf
  simp only [h1, h2, h3, h4]
  cases (rn == .r15 && writesBack p w) <;> cases (rm == some .r15) <;> cases (load && writesBack p w && rn == rd) <;>
    cases (byte && rd == .r15) <;> rfl

/-- The problems of an instruction are those of its check, then that of its condition (R173). -/
theorem problems_split {i : Instr} (h : i.isCoprocessor = false) :
    ∃ ps, i.problems = ps ++ i.cond.problems ∧ check i = ps.head?.map problemOf := by
  cases i <;> first
    | exact ⟨_, rfl, dpCheck_eq _ _⟩
    | exact ⟨_, rfl, transferCheck_eq _ _ _ _ _ _ _⟩
    | exact ⟨[], rfl, rfl⟩
    | simp [Instr.isCoprocessor] at h

/-- The condition's own check (R113). -/
theorem cond_problems_eq_nil {c : Cond} : c.problems = [] ↔ c ≠ .nv := by cases c <;> decide

/-- A well-formed instruction passes its field checks, and its condition is not NV. -/
theorem wellFormed_iff {i : Instr} (h : i.isCoprocessor = false) : i.wellFormed = true ↔ check i = none ∧ i.cond ≠ .nv := by
  obtain ⟨ps, hp, hc⟩ := problems_split h
  simp [Instr.wellFormed, hp, hc, cond_problems_eq_nil]

/-- A well-formed instruction whose condition passes is its body. -/
theorem exec_of_passes {i : Instr} {s : State} (h : i.isCoprocessor = false) (hw : i.wellFormed = true)
    (hp : conditionPassed i.cond s.cpsr = .ok true) : exec i s = outcome (body i s) := by
  obtain ⟨hk, hc⟩ := (wellFormed_iff h).mp hw
  rw [exec_eq_runGated, hk, runGated_pass hc hp]

end Sys2Proof.Machine
end

