-- ==== Sys2Proof/Laws/Decode.lean ====
section
/-! SUPPORT. The matcher and the scan of the instruction table: what a field extracts, when a group and a
pattern match, and which row the scan returns. -/

namespace Sys2Proof

/-- Where two numbers make a field mask, it has them as its place and its length, and fits a word (R67). -/
theorem Bits.FieldMask.make_some {p n : Nat} {m : Bits.FieldMask} (h : Bits.FieldMask.make p n = some m) :
    m.position.val = p ∧ m.length.val = n ∧ m.wf = true := by
  unfold Bits.FieldMask.make at h
  split at h
  · rename_i hb
    rw [Option.some.injEq] at h
    subst h
    exact ⟨rfl, rfl, decide_eq_true hb.2.2⟩
  · exact absurd h (by simp)

/-- A field's value is the word's bits at its place (R67). -/
theorem extract_toNat (m : Bits.FieldMask) (w : Word) :
    (m.extract w).toNat = (w.extractLsb' m.position m.length).toNat := by
  have hlt : 2 ^ m.length.val - 1 < 2 ^ 32 := by
    have := Nat.pow_le_pow_right (n := 2) (by decide) (Nat.le_of_lt m.length.isLt)
    have := Nat.two_pow_pos m.length.val
    omega
  rw [Bits.FieldMask.extract, Bits.FieldMask.mask, BitVec.toNat_and, BitVec.toNat_ofNat, Nat.mod_eq_of_lt hlt,
    Nat.and_two_pow_sub_one_eq_mod, BitVec.toNat_ushiftRight, BitVec.extractLsb'_toNat]

/-- A field cut to its own width is the word's bits at its place. -/
theorem extract_setWidth (m : Bits.FieldMask) (w : Word) :
    (m.extract w).setWidth m.length = w.extractLsb' m.position m.length := by
  apply BitVec.eq_of_toNat_eq
  rw [BitVec.toNat_setWidth, extract_toNat m w, Nat.mod_eq_of_lt (w.extractLsb' m.position m.length).isLt]

/-- A group matches by a candidate whose value is the word's bits (R71). -/
theorem matchGroup_some {g : DecodeGroup} {w : Word} {c : Candidate} (h : Pattern.matchGroup g w = some c) :
    c ∈ Pattern.candidates g ∧ c.value = (g.mask.extract w).toNat := by
  exact ⟨List.mem_of_find?_eq_some h, by simpa using List.find?_some h⟩

/-- A group fails where no candidate has the word's bits (R71). -/
theorem matchGroup_none {g : DecodeGroup} {w : Word} :
    Pattern.matchGroup g w = none ↔ ∀ c ∈ Pattern.candidates g, c.value ≠ (g.mask.extract w).toNat := by
  simp [Pattern.matchGroup, List.find?_eq_none]

/-- A group without wildcards matches exactly its value, with no flag (R70). -/
theorem matchGroup_literal {g : DecodeGroup} {v : Nat} (h : Pattern.candidates g = [⟨v, []⟩]) (w : Word) :
    Pattern.matchGroup g w = if (g.mask.extract w).toNat = v then some ⟨v, []⟩ else none := by
  unfold Pattern.matchGroup
  rw [h]
  by_cases e : (g.mask.extract w).toNat = v
  · simp [e]
  · have : ¬ v = (g.mask.extract w).toNat := fun x => e x.symm
    simp [e, this]

/-- A group of one symbol in one bit always matches, and its flag is that bit (R68). -/
theorem matchGroup_symbol {p : Fin 32} {ch : Char} (h : Pattern.candidates ⟨.single p, [ch]⟩ = [⟨0, []⟩, ⟨1, [ch]⟩]) (w : Word) :
    Pattern.matchGroup ⟨.single p, [ch]⟩ w = some (if Bits.bit p w then ⟨1, [ch]⟩ else ⟨0, []⟩) := by
  unfold Pattern.matchGroup
  rw [h]
  have hx : ((Bits.FieldMask.single p).extract w).toNat = (Bits.bit p w).toNat := by
    rw [extract_toNat, Bits.FieldMask.single, BitVec.extractLsb'_toNat, Bits.bit, BitVec.getLsbD, Nat.toNat_testBit,
      Nat.shiftRight_eq_div_pow]
    rfl
  simp only [hx]
  cases Bits.bit p w <;> rfl

/-- The scan returns a row of the table that matches, with the row's own field map (R75). -/
theorem scanRows_some {rows : List TableRow} {w : Word} {e : TableEntry} {f : FieldMap} (h : scanRows rows w = some (e, f)) :
    ∃ r ∈ rows, r.entry = e ∧ r.matchWord w = some f := by
  induction rows with
  | nil => simp [scanRows] at h
  | cons r rs ih =>
    unfold scanRows at h
    cases hm : r.matchWord w with
    | some g =>
      rw [hm] at h
      simp only [Option.some.injEq, Prod.mk.injEq] at h
      exact ⟨r, List.mem_cons_self, h.1, by rw [hm, h.2]⟩
    | none =>
      rw [hm] at h
      obtain ⟨r', hr, h'⟩ := ih h
      exact ⟨r', List.mem_cons_of_mem _ hr, h'⟩

/-- The scan fails exactly where no row matches (R75, R91). -/
theorem scanRows_none {rows : List TableRow} {w : Word} : scanRows rows w = none ↔ ∀ r ∈ rows, r.matchWord w = none := by
  induction rows with
  | nil => simp [scanRows]
  | cons r rs ih =>
    unfold scanRows
    cases hm : r.matchWord w with
    | some g => simp [hm]
    | none => simp [hm, ih]

/-- A decoded instruction is built from a matching row's field map (R19, R75). -/
theorem decodeWord_some {w : Word} {i : Instr} (h : decodeWord w = some i) :
    ∃ r ∈ instructionTable, ∃ f, r.matchWord w = some f ∧ i = r.entry.build f := by
  unfold decodeWord at h
  cases hs : scanTable w with
  | none => simp [hs] at h
  | some ef =>
    obtain ⟨e, f⟩ := ef
    obtain ⟨r, hr, he, hm⟩ := scanRows_some hs
    rw [hs] at h
    simp only [Option.some.injEq] at h
    exact ⟨r, hr, f, hm, by rw [he, h]⟩

/-- A word that no row matches is not decoded (R91). -/
theorem decodeWord_none {w : Word} : decodeWord w = none ↔ ∀ r ∈ instructionTable, r.matchWord w = none := by
  unfold decodeWord
  rw [← scanRows_none, ← scanTable.eq_def]
  cases scanTable w <;> simp

end Sys2Proof
end

