-- ==== Sys2Proof/Laws/Memory.lean ====
section
/-! SUPPORT. Memory: a read after a write, and the canonical form that every memory operation keeps. -/

namespace Sys2Proof.Machine

theorem Memory.wfFrom_mono {lo lo' : Nat} (h : lo' ≤ lo) : ∀ {m : Memory}, Memory.wfFrom lo m = true → Memory.wfFrom lo' m = true
  | [], _ => rfl
  | (k, v) :: m, hm => by
    simp only [Memory.wfFrom, Bool.and_eq_true, decide_eq_true_eq] at hm ⊢
    exact ⟨⟨⟨by omega, hm.1.1.2⟩, hm.1.2⟩, hm.2⟩

/-- An address below the first listed one is unlisted. -/
theorem Memory.lookup_below {lo a : Nat} (h : a < lo) :
    ∀ {m : Memory}, Memory.wfFrom lo m = true → Memory.lookup m a = Config.unlistedByte
  | [], _ => rfl
  | (k, v) :: m, hm => by
    simp only [Memory.wfFrom, Bool.and_eq_true, decide_eq_true_eq] at hm
    have hk : k ≠ a := by omega
    simp only [Memory.lookup, hk, if_false]
    exact Memory.lookup_below (lo := k + 1) (by omega) hm.2

/-- Reading the address just stored gives the stored byte, in a memory in canonical form. -/
theorem Memory.lookup_store_same {lo a : Nat} {v : Byte} :
    ∀ {m : Memory}, Memory.wfFrom lo m = true → Memory.lookup (Memory.store m a v) a = v
  | [], _ => by
    unfold Memory.store
    split
    · rename_i h; simp [Memory.lookup, h]
    · simp [Memory.lookup]
  | (k, u) :: m, hm => by
    simp only [Memory.wfFrom, Bool.and_eq_true, decide_eq_true_eq] at hm
    unfold Memory.store
    by_cases h1 : k < a
    · have hk : k ≠ a := by omega
      simp only [h1, if_true, Memory.lookup, hk, if_false]
      exact Memory.lookup_store_same hm.2
    · by_cases h2 : k = a
      · subst h2
        by_cases h3 : v = Config.unlistedByte
        · simp only [lt_irrefl, if_false, if_true, h3]
          exact Memory.lookup_below (lo := k + 1) (by omega) hm.2
        · simp [h3, Memory.lookup]
      · by_cases h3 : v = Config.unlistedByte
        · simp only [h1, h2, h3, if_true, if_false, Memory.lookup]
          exact Memory.lookup_below (lo := k + 1) (by omega) hm.2
        · simp [h1, h2, h3, Memory.lookup]

/-- A store leaves every other address as it was. -/
theorem Memory.lookup_store_other {a b : Nat} {v : Byte} (h : a ≠ b) :
    ∀ {m : Memory}, Memory.lookup (Memory.store m a v) b = Memory.lookup m b
  | [] => by
    unfold Memory.store
    split <;> simp [Memory.lookup, h]
  | (k, u) :: m => by
    unfold Memory.store
    by_cases h1 : k < a
    · simp only [h1, if_true, Memory.lookup, Memory.lookup_store_other h (m := m)]
    · by_cases h2 : k = a
      · subst h2
        by_cases h3 : v = Config.unlistedByte <;> simp [h3, Memory.lookup, h]
      · by_cases h3 : v = Config.unlistedByte <;> simp [h1, h2, h3, Memory.lookup, h]

theorem Memory.wfFrom_store {a : Nat} {v : Byte} (ha : a < 2 ^ 32) :
    ∀ {lo : Nat} {m : Memory}, lo ≤ a → Memory.wfFrom lo m = true → Memory.wfFrom lo (Memory.store m a v) = true
  | lo, [], hlo, _ => by
    unfold Memory.store
    by_cases h3 : v = Config.unlistedByte
    · simp [h3, Memory.wfFrom]
    · simp only [h3, if_false, Memory.wfFrom, Bool.and_eq_true, decide_eq_true_eq, Bool.not_eq_true', beq_eq_false_iff_ne]
      exact ⟨⟨⟨hlo, ha⟩, h3⟩, trivial⟩
  | lo, (k, u) :: m, hlo, hm => by
    have hm' := hm
    simp only [Memory.wfFrom, Bool.and_eq_true, decide_eq_true_eq] at hm
    unfold Memory.store
    by_cases h1 : k < a
    · simp only [h1, if_true, Memory.wfFrom, Bool.and_eq_true, decide_eq_true_eq]
      exact ⟨hm.1, Memory.wfFrom_store ha (by omega) hm.2⟩
    · by_cases h2 : k = a
      · subst h2
        by_cases h3 : v = Config.unlistedByte
        · simp only [lt_irrefl, if_false, if_true, h3]
          exact Memory.wfFrom_mono (by omega) hm.2
        · simp only [lt_irrefl, if_false, if_true, h3, Memory.wfFrom, Bool.and_eq_true, decide_eq_true_eq, Bool.not_eq_true',
            beq_eq_false_iff_ne]
          exact ⟨⟨hm.1.1, h3⟩, hm.2⟩
      · by_cases h3 : v = Config.unlistedByte
        · simp only [h1, h2, h3, if_true, if_false]; exact hm'
        · simp only [h1, h2, h3, if_false, Memory.wfFrom, Bool.and_eq_true, decide_eq_true_eq, Bool.not_eq_true',
            beq_eq_false_iff_ne]
          refine ⟨⟨⟨hlo, ha⟩, h3⟩, ⟨⟨by omega, hm.1.1.2⟩, ?_⟩, hm.2⟩
          simpa using hm.1.2

/-- A byte write keeps the canonical form. -/
theorem Memory.wf_writeByte {m : Memory} (h : Memory.wf m = true) (a : Word) (v : Byte) :
    Memory.wf (Memory.writeByte m a v) = true :=
  Memory.wfFrom_store a.isLt (Nat.zero_le _) h

/-- A word write keeps the canonical form. -/
theorem Memory.wf_writeWord {m : Memory} (h : Memory.wf m = true) (a v : Word) :
    Memory.wf (Memory.writeWord m a v) = true :=
  Memory.wf_writeByte (Memory.wf_writeByte (Memory.wf_writeByte (Memory.wf_writeByte h _ _) _ _) _ _) _ _

theorem Memory.readByte_writeByte_same {m : Memory} (h : Memory.wf m = true) (a : Word) (v : Byte) :
    Memory.readByte (Memory.writeByte m a v) a = v :=
  Memory.lookup_store_same h

theorem Memory.readByte_writeByte_other (m : Memory) {a b : Word} (h : a ≠ b) (v : Byte) :
    Memory.readByte (Memory.writeByte m a v) b = Memory.readByte m b :=
  Memory.lookup_store_other (fun e => h (BitVec.eq_of_toNat_eq e))

theorem Memory.readByte_writeByte {m : Memory} (h : Memory.wf m = true) (a b : Word) (v : Byte) :
    Memory.readByte (Memory.writeByte m a v) b = if a = b then v else Memory.readByte m b := by
  by_cases e : a = b
  · subst e; simp [Memory.readByte_writeByte_same h]
  · simp [e, Memory.readByte_writeByte_other]

/-- A word write leaves every byte outside its four as it was. -/
theorem Memory.readByte_writeWord_other (m : Memory) {a b : Word} (v : Word)
    (h0 : a ≠ b) (h1 : a + 1 ≠ b) (h2 : a + 2 ≠ b) (h3 : a + 3 ≠ b) :
    Memory.readByte (Memory.writeWord m a v) b = Memory.readByte m b := by
  rw [Memory.writeWord, Memory.readByte_writeByte_other _ h3, Memory.readByte_writeByte_other _ h2,
    Memory.readByte_writeByte_other _ h1, Memory.readByte_writeByte_other _ h0]

end Sys2Proof.Machine
end

