-- ==== Sys2Proof/Laws/Operands.lean ====
section
/-! SUPPORT. The bit operations of the shifter and of addresses as arithmetic, and operand reads that succeed. -/

namespace Sys2Proof.Machine

/-- `rotateRight32` is the rotation of a 32-bit word (R14). -/
theorem rotateRight32_eq (x : Word) {r : Nat} (h : r < 32) : Bits.rotateRight32 x r = x.rotateRight r := by
  unfold Bits.rotateRight32
  by_cases h0 : r = 0
  · subst h0; simp [BitVec.rotateRight_def]
  · rw [if_neg h0, BitVec.rotateRight_def, Nat.mod_eq_of_lt h]

theorem low2_toNat (a : Word) : (Bits.low2 a).toNat = a.toNat % 4 := by
  simp [Bits.low2, BitVec.extractLsb'_toNat]

theorem low2_eq_zero_iff {a : Word} : Bits.low2 a = 0 ↔ a.toNat % 4 = 0 := by
  rw [← low2_toNat, ← BitVec.toNat_inj]
  simp

/-- The aligned word of an address is the multiple of 4 below it (R52). -/
theorem align4_toNat (a : Word) : (Bits.align4 a).toNat = a.toNat / 4 * 4 := by
  have h : Bits.align4 a = (a >>> 2) <<< 2 := by
    unfold Bits.align4
    apply BitVec.eq_of_getLsbD_eq
    intro i hi
    have key : ∀ i : Fin 32, (0xFFFFFFFC#32).getLsbD i.val = decide (2 ≤ i.val) := by decide
    have := key ⟨i, hi⟩
    simp only at this
    rw [BitVec.getLsbD_and, this]
    by_cases h2 : i < 2
    · simp [h2, Nat.not_le.mpr h2]
    · have e : 2 + (i - 2) = i := by omega
      simp [hi, h2, Nat.not_lt.mp h2, e]
  rw [h, BitVec.toNat_shiftLeft, BitVec.toNat_ushiftRight, Nat.shiftRight_eq_div_pow, Nat.shiftLeft_eq]
  have := a.isLt
  omega
 
theorem align4_eq (a : Word) : Bits.align4 a = BitVec.ofNat 32 (a.toNat / 4 * 4) := by
  rw [← align4_toNat, BitVec.ofNat_toNat, BitVec.setWidth_eq]

theorem State.readReg_of_known {s : State} {r : RegNum} (h : ∀ p, bankReg r s.mode = some p → (s.getReg p).known = true) :
    s.readReg r = .ok (s.regValue r) := by
  rw [State.readReg_ok]
  refine ⟨?_, rfl⟩
  unfold State.unknownWord
  split
  · rfl
  · rename_i p hp; simp [h p hp]

theorem bit31_eq_msb (m : Word) : Bits.bit 31 m = m.msb := by simp [Bits.bit, BitVec.msb_eq_getLsbD_last]

theorem State.readFlag_of_known {s : State} {f : Flag} (h : s.cpsr.knowsFlag f = true) : s.readFlag f = .ok (s.cpsr.flag f) := by
  simp [State.readFlag, h]

end Sys2Proof.Machine
end

