-- ==== Sys2Proof/Laws/Exec.lean ====
section
/-! SUPPORT. What an instruction can do, said once: every next state of `exec` has one of ten shapes. -/

namespace Sys2Proof.Machine

/-- The shapes of an instruction's next state. -/
inductive Effect (i : Instr) (s : State) : State → Prop where
  /-- Only the pc advances. -/
  | advance : Effect i s (s.setPc s.nextPc)
  /-- A result in Rd. -/
  | dest (rd : RegNum) (v : Word) (hrd : rd ≠ .r15) : Effect i s ((s.writeReg rd v).setPc s.nextPc)
  /-- A result in Rd, and the flags. -/
  | destFlags (rd : RegNum) (o : AluOut) (sc : ShiftCarry) (hrd : rd ≠ .r15) (hi : i.setsFlags = true) :
      Effect i s (((s.writeReg rd o.result).setFlags o sc).setPc s.nextPc)
  /-- The flags only. -/
  | flags (o : AluOut) (sc : ShiftCarry) (hi : i.setsFlags = true) : Effect i s ((s.setFlags o sc).setPc s.nextPc)
  /-- A word-aligned jump. -/
  | jump (v : Word) (hv : Bits.low2 s.pc = 0 → Bits.low2 v = 0) : Effect i s (s.setPc v)
  /-- A word-aligned jump with a link. -/
  | link (v : Word) (hv : Bits.low2 s.pc = 0 → Bits.low2 v = 0) : Effect i s ((s.writeReg .r14 s.nextPc).setPc v)
  /-- A return (R179). -/
  | ret (u : State) (v : Word) (hi : i.isReturn = true) (hu : s.restoreCpsr = .ok u)
      (hv : u.cpsr.thumb = false → Bits.low2 v = 0) : Effect i s (u.setPc v)
  /-- A load into the pc. -/
  | loadPc (e : MemEvent) (rn : RegNum) (a : Address) (v : Word) (hi : i.isLoad = true) (he : e.kind = .read) (hn : a.wb = true → rn ≠ .r15) (hv : Bits.low2 v = 0) :
      Effect i s (((s.record e).writeBack rn a).setPc v)
  /-- A load into Rd. -/
  | load (e : MemEvent) (rn : RegNum) (a : Address) (rd : RegNum) (v : Word) (hi : i.isLoad = true) (he : e.kind = .read)
      (hn : a.wb = true → rn ≠ .r15) (hrd : rd ≠ .r15) : Effect i s ((((s.record e).writeBack rn a).writeReg rd v).setPc s.nextPc)
  /-- A store. -/
  | store (m : Memory) (e : MemEvent) (rn : RegNum) (a : Address) (hi : i.isStore = true) (he : e.kind = .write) (hn : a.wb = true → rn ≠ .r15)
      (hm : Memory.wf s.mem = true → Memory.wf m = true) :
      Effect i s (((({ s with mem := m } : State).record e).writeBack rn a).setPc s.nextPc)

theorem low2_add_of_low2_zero {a b : Word} (ha : Bits.low2 a = 0) (hb : Bits.low2 b = 0) : Bits.low2 (a + b) = 0 := by
  rw [low2_eq_zero_iff] at *
  rw [BitVec.toNat_add]
  omega

theorem low2_branchTarget {pc : Word} (h : Bits.low2 pc = 0) (offset : BitVec 24) : Bits.low2 (branchTarget pc offset) = 0 := by
  refine low2_add_of_low2_zero (low2_add_of_low2_zero h (by decide)) ?_
  apply BitVec.eq_of_getLsbD_eq
  intro i hi
  have : i = 0 ∨ i = 1 := by omega
  rcases this with h | h <;> subst h <;>
    simp [Bits.low2, Bits.sext, BitVec.getElem_signExtend] <;>
    rw [← BitVec.getLsbD_eq_getElem, BitVec.getLsbD_append] <;> simp

theorem low2_clear (v : Word) : Bits.low2 (v &&& 0xFFFFFFFC#32) = 0 := by
  apply BitVec.eq_of_getLsbD_eq
  intro i hi
  have : i = 0 ∨ i = 1 := by omega
  rcases this with h | h <;> subst h <;> simp [Bits.low2]

theorem effect_of_dpWrite {i : Instr} {sf : Bool} {rd : RegNum} {out : AluOut} {sc : ShiftCarry} {s t : State}
    (hf : sf = true → i.setsFlags = true) (hr : sf = true → rd = .r15 → i.isReturn = true)
    (h : dpWrite sf rd out sc s = .ok t) : Effect i s t := by
  rcases dpWrite_ok h with ⟨hrd, _, rfl⟩ | ⟨hrd, hs, rfl⟩ | ⟨_, _, hl, rfl⟩ | ⟨hrd, hs, u, hu, hl, rfl⟩
  · exact .dest rd _ hrd
  · exact .destFlags rd out sc hrd (hf hs)
  · exact .jump _ (fun _ => hl)
  · exact .ret u _ (hr hs hrd) hu hl

theorem effect_of_dpBinary {i : Instr} {op : AluOp} {c : Cond} {sf : Bool} {rn rd : RegNum} {op2 : Operand2} {s t : State}
    (hf : sf = true → i.setsFlags = true) (hr : sf = true → rd = .r15 → i.isReturn = true)
    (h : dpBinary op c sf rn rd op2 s = .next t) : Effect i s t := by
  obtain ⟨_, _, ⟨_, rfl⟩ | ⟨_, _, _, _, _, _, _, hw⟩⟩ := dpBinary_next h
  · exact .advance
  · exact effect_of_dpWrite hf hr hw

theorem effect_of_dpUnary {i : Instr} {op : Word → AluOut} {c : Cond} {sf : Bool} {rd : RegNum} {op2 : Operand2} {s t : State}
    (hf : sf = true → i.setsFlags = true) (hr : sf = true → rd = .r15 → i.isReturn = true)
    (h : dpUnary op c sf rd op2 s = .next t) : Effect i s t := by
  obtain ⟨_, _, ⟨_, rfl⟩ | ⟨_, _, _, hw⟩⟩ := dpUnary_next h
  · exact .advance
  · exact effect_of_dpWrite hf hr hw

theorem effect_of_dpCompare {i : Instr} {op : Word → Word → AluOut} {c : Cond} {rn : RegNum} {op2 : Operand2} {s t : State}
    (hf : i.setsFlags = true) (h : dpCompare op c rn op2 s = .next t) : Effect i s t := by
  obtain ⟨_, _, ⟨_, rfl⟩ | ⟨_, _, _, _, _, rfl⟩⟩ := dpCompare_next h
  · exact .advance
  · exact .flags _ _ hf

theorem effect_of_loadWord {i : Instr} {a : Address} {user : Bool} {rn rd : RegNum} {s t : State} (hi : i.isLoad = true)
    (hn : a.wb = true → rn ≠ .r15) (h : loadWord a user rn rd s = .ok t) : Effect i s t := by
  rcases loadWord_ok h with ⟨_, rfl⟩ | ⟨hrd, rfl⟩
  · exact .loadPc _ rn a _ hi rfl hn (low2_clear _)
  · exact .load _ rn a rd _ hi rfl hn hrd

theorem effect_of_loadByte {i : Instr} {a : Address} {user : Bool} {rn rd : RegNum} {s t : State} (hi : i.isLoad = true)
    (hn : a.wb = true → rn ≠ .r15) (hrd : rd ≠ .r15) (h : loadByte a user rn rd s = .ok t) : Effect i s t := by
  rw [loadByte_ok h]
  exact .load _ rn a rd _ hi rfl hn hrd

theorem effect_of_storeWord {i : Instr} {a : Address} {user : Bool} {rn rd : RegNum} {s t : State} (hi : i.isStore = true)
    (hn : a.wb = true → rn ≠ .r15) (h : storeWord a user rn rd s = .ok t) : Effect i s t := by
  obtain ⟨_, _, _, rfl⟩ := storeWord_ok h
  exact .store _ _ rn a hi rfl hn (fun hm => Memory.wf_writeWord hm _ _)

theorem effect_of_storeByte {i : Instr} {a : Address} {user : Bool} {rn rd : RegNum} {s t : State} (hi : i.isStore = true)
    (hn : a.wb = true → rn ≠ .r15) (h : storeByte a user rn rd s = .ok t) : Effect i s t := by
  obtain ⟨_, _, _, rfl⟩ := storeByte_ok h
  exact .store _ _ rn a hi rfl hn (fun hm => Memory.wf_writeByte hm _ _)

theorem effect_of_transferImm {i : Instr} {access : Transfer} {load byte : Bool} {c : Cond} {p u w : Bool} {rn rd : RegNum}
    {offset : BitVec 12} {s t : State}
    (ha : ∀ a user, transferCheck p w rn rd none load byte = none → (a.wb = true → rn ≠ .r15) →
      access a user rn rd s = .ok t → Effect i s t)
    (h : transferImm access load byte c p u w rn rd offset s = .next t) : Effect i s t := by
  obtain ⟨hc, _, ⟨_, rfl⟩ | ⟨_, _, _, hb⟩⟩ := transferImm_next h
  · exact .advance
  · exact ha _ _ hc (fun hw => transferCheck_base hc (by rwa [effectiveAddress_wb] at hw)) hb

theorem effect_of_transferReg {i : Instr} {access : Transfer} {load byte : Bool} {c : Cond} {p u w : Bool} {rn rd : RegNum}
    {amount : BitVec 5} {type : ShiftType} {rm : RegNum} {s t : State}
    (ha : ∀ a user, transferCheck p w rn rd (some rm) load byte = none → (a.wb = true → rn ≠ .r15) →
      access a user rn rd s = .ok t → Effect i s t)
    (h : transferReg access load byte c p u w rn rd amount type rm s = .next t) : Effect i s t := by
  obtain ⟨hc, _, ⟨_, rfl⟩ | ⟨_, _, _, _, _, hb⟩⟩ := transferReg_next h
  · exact .advance
  · exact ha _ _ hc (fun hw => transferCheck_base hc (by rwa [effectiveAddress_wb] at hw)) hb

/-- Every next state of `exec` has one of the shapes of `Effect`. -/
theorem exec_effect {i : Instr} {s t : State} (h : exec i s = .next t) : Effect i s t := by
  cases i with
  | and c sf rn rd op2 =>
    rw [exec, execAnd] at h
    exact effect_of_dpBinary (by simp [Instr.setsFlags]) (by simp +contextual [Instr.isReturn]) h
  | eor c sf rn rd op2 =>
    rw [exec, execEor] at h
    exact effect_of_dpBinary (by simp [Instr.setsFlags]) (by simp +contextual [Instr.isReturn]) h
  | sub c sf rn rd op2 =>
    rw [exec, execSub] at h
    exact effect_of_dpBinary (by simp [Instr.setsFlags]) (by simp +contextual [Instr.isReturn]) h
  | rsb c sf rn rd op2 =>
    rw [exec, execRsb] at h
    exact effect_of_dpBinary (by simp [Instr.setsFlags]) (by simp +contextual [Instr.isReturn]) h
  | add c sf rn rd op2 =>
    rw [exec, execAdd] at h
    exact effect_of_dpBinary (by simp [Instr.setsFlags]) (by simp +contextual [Instr.isReturn]) h
  | adc c sf rn rd op2 =>
    rw [exec, execAdc] at h
    exact effect_of_dpBinary (by simp [Instr.setsFlags]) (by simp +contextual [Instr.isReturn]) h
  | sbc c sf rn rd op2 =>
    rw [exec, execSbc] at h
    exact effect_of_dpBinary (by simp [Instr.setsFlags]) (by simp +contextual [Instr.isReturn]) h
  | rsc c sf rn rd op2 =>
    rw [exec, execRsc] at h
    exact effect_of_dpBinary (by simp [Instr.setsFlags]) (by simp +contextual [Instr.isReturn]) h
  | tst c rn op2 =>
    rw [exec, execTst] at h
    exact effect_of_dpCompare rfl h
  | teq c rn op2 =>
    rw [exec, execTeq] at h
    exact effect_of_dpCompare rfl h
  | cmp c rn op2 =>
    rw [exec, execCmp] at h
    exact effect_of_dpCompare rfl h
  | cmn c rn op2 =>
    rw [exec, execCmn] at h
    exact effect_of_dpCompare rfl h
  | orr c sf rn rd op2 =>
    rw [exec, execOrr] at h
    exact effect_of_dpBinary (by simp [Instr.setsFlags]) (by simp +contextual [Instr.isReturn]) h
  | mov c sf rd op2 =>
    rw [exec, execMov] at h
    exact effect_of_dpUnary (by simp [Instr.setsFlags]) (by simp +contextual [Instr.isReturn]) h
  | bic c sf rn rd op2 =>
    rw [exec, execBic] at h
    exact effect_of_dpBinary (by simp [Instr.setsFlags]) (by simp +contextual [Instr.isReturn]) h
  | mvn c sf rd op2 =>
    rw [exec, execMvn] at h
    exact effect_of_dpUnary (by simp [Instr.setsFlags]) (by simp +contextual [Instr.isReturn]) h
  | b c offset =>
    rw [exec, execB] at h
    obtain ⟨_, _, ⟨_, rfl⟩ | ⟨_, hb⟩⟩ := runGated_next.mp h
    · exact .advance
    · rw [Except.ok.injEq] at hb
      exact hb ▸ .jump _ (fun ha => low2_branchTarget ha offset)
  | bl c offset =>
    rw [exec, execBl] at h
    obtain ⟨_, _, ⟨_, rfl⟩ | ⟨_, hb⟩⟩ := runGated_next.mp h
    · exact .advance
    · rw [Except.ok.injEq] at hb
      exact hb ▸ .link _ (fun ha => low2_branchTarget ha offset)
  | strImm c p u w rn rd offset =>
    rw [exec, execStrImm] at h
    exact effect_of_transferImm (fun _ _ _ hn hb => effect_of_storeWord rfl hn hb) h
  | strReg c p u w rn rd amount type rm =>
    rw [exec, execStrReg] at h
    exact effect_of_transferReg (fun _ _ _ hn hb => effect_of_storeWord rfl hn hb) h
  | ldrImm c p u w rn rd offset =>
    rw [exec, execLdrImm] at h
    exact effect_of_transferImm (fun _ _ _ hn hb => effect_of_loadWord rfl hn hb) h
  | ldrReg c p u w rn rd amount type rm =>
    rw [exec, execLdrReg] at h
    exact effect_of_transferReg (fun _ _ _ hn hb => effect_of_loadWord rfl hn hb) h
  | strbImm c p u w rn rd offset =>
    rw [exec, execStrbImm] at h
    exact effect_of_transferImm (fun _ _ _ hn hb => effect_of_storeByte rfl hn hb) h
  | strbReg c p u w rn rd amount type rm =>
    rw [exec, execStrbReg] at h
    exact effect_of_transferReg (fun _ _ _ hn hb => effect_of_storeByte rfl hn hb) h
  | ldrbImm c p u w rn rd offset =>
    rw [exec, execLdrbImm] at h
    exact effect_of_transferImm (fun _ _ hc hn hb => effect_of_loadByte rfl hn (transferCheck_byte hc) hb) h
  | ldrbReg c p u w rn rd amount type rm =>
    rw [exec, execLdrbReg] at h
    exact effect_of_transferReg (fun _ _ hc hn hb => effect_of_loadByte rfl hn (transferCheck_byte hc) hb) h
  | cdp c opc1 crn crd cpNum opc2 crm => simp [exec, execCdp] at h
  | mcr c opc1 crn rd cpNum opc2 crm => simp [exec, execMcr] at h
  | mrc c opc1 crn rd cpNum opc2 crm => simp [exec, execMrc] at h

/-- All that a step can do where it succeeds: the state is in ARM state and aligned, its word decodes, and the
instruction runs from the fetched state. -/
theorem step_next {s t : State} (h : step s = .next t) :
    s.cpsr.thumb = false ∧ Bits.low2 s.pc = 0 ∧ ∃ i, decodeWord (fetchWord s) = some i ∧ exec i s.fetched = .next t := by
  unfold step at h
  cases ht : s.cpsr.thumb with
  | true => simp [ht] at h
  | false =>
    by_cases hp : Bits.low2 s.pc ≠ 0
    · simp only [ht, Bool.false_eq_true, if_false, if_pos hp] at h
      simp at h
    · simp only [ht, Bool.false_eq_true, if_false, if_neg hp] at h
      cases hd : decodeWord (fetchWord s) with
      | none => simp [hd] at h
      | some i => exact ⟨rfl, not_not.mp hp, i, rfl, by simpa [hd] using h⟩

end Sys2Proof.Machine
end

