-- ==== Sys2Proof/Laws/PerInstr.lean ====
section
/-! SUPPORT. Facts about each instruction as syntax, one lemma per constructor.  `FixedBits`: the word of an
instruction has the bits that its row of the opcode table fixes (R76 to R82, R84, R90, R94). -/

namespace Sys2Proof.Laws.FixedBits

/-- The word of `i` has the `mask` and `match` of its row of the opcode table. -/
def Statement (i : Instr) : Prop := encode i &&& i.entry.fixedBits.1 = i.entry.fixedBits.2

/-! ### The formats -/

theorem encodeDp_opcode (c : Cond) (opcode : BitVec 4) (s : Bool) (rn rd : BitVec 4) (op2 : Operand2) :
    encodeDp c opcode s rn rd op2 &&& 0x0DE00000#32 = opcode.setWidth 32 <<< 21 := by
  apply BitVec.eq_of_getLsbD_eq
  intro i hi
  simp only [encodeDp, bitOf, BitVec.getLsbD_and, BitVec.getLsbD_append]
  interval_cases i <;> simp

theorem encodeDp_compare (c : Cond) (opcode rn : BitVec 4) (op2 : Operand2) :
    encodeDp c opcode true rn 0 op2 &&& 0x0DF0F000#32 = (opcode.setWidth 32 <<< 21) ||| (1#32 <<< 20) := by
  apply BitVec.eq_of_getLsbD_eq
  intro i hi
  simp only [encodeDp, bitOf, BitVec.getLsbD_and, BitVec.getLsbD_or, BitVec.getLsbD_append]
  interval_cases i <;> simp

theorem encodeDp_move (c : Cond) (opcode : BitVec 4) (s : Bool) (rd : BitVec 4) (op2 : Operand2) :
    encodeDp c opcode s 0 rd op2 &&& 0x0DEF0000#32 = opcode.setWidth 32 <<< 21 := by
  apply BitVec.eq_of_getLsbD_eq
  intro i hi
  simp only [encodeDp, bitOf, BitVec.getLsbD_and, BitVec.getLsbD_append]
  interval_cases i <;> simp

theorem encodeBr_link (c : Cond) (l : BitVec 1) (offset : BitVec 24) :
    encodeBr c l offset &&& 0x0F000000#32 = 0x0A000000#32 ||| (l.setWidth 32 <<< 24) := by
  apply BitVec.eq_of_getLsbD_eq
  intro i hi
  simp only [encodeBr, BitVec.getLsbD_and, BitVec.getLsbD_or, BitVec.getLsbD_append]
  interval_cases i <;> simp

theorem encodeLsi_kind (c : Cond) (p u : Bool) (b : BitVec 1) (w : Bool) (l : BitVec 1) (rn rd : RegNum) (offset : BitVec 12) :
    encodeLsi c p u b w l rn rd offset &&& 0x0E500000#32 =
      0x04000000#32 ||| (b.setWidth 32 <<< 22) ||| (l.setWidth 32 <<< 20) := by
  apply BitVec.eq_of_getLsbD_eq
  intro i hi
  simp only [encodeLsi, bitOf, BitVec.getLsbD_and, BitVec.getLsbD_or, BitVec.getLsbD_append]
  interval_cases i <;> simp

theorem encodeLsr_kind (c : Cond) (p u : Bool) (b : BitVec 1) (w : Bool) (l : BitVec 1) (rn rd : RegNum) (amount : BitVec 5)
    (type : ShiftType) (rm : RegNum) :
    encodeLsr c p u b w l rn rd amount type rm &&& 0x0E500010#32 =
      0x06000000#32 ||| (b.setWidth 32 <<< 22) ||| (l.setWidth 32 <<< 20) := by
  apply BitVec.eq_of_getLsbD_eq
  intro i hi
  simp only [encodeLsr, bitOf, BitVec.getLsbD_and, BitVec.getLsbD_or, BitVec.getLsbD_append]
  interval_cases i <;> simp

theorem encodeCdp_kind (c : Cond) (opc1 crn crd cpNum : BitVec 4) (opc2 : BitVec 3) (crm : BitVec 4) :
    encodeCdp c opc1 crn crd cpNum opc2 crm &&& 0x0F000010#32 = 0x0E000000#32 := by
  apply BitVec.eq_of_getLsbD_eq
  intro i hi
  simp only [encodeCdp, BitVec.getLsbD_and, BitVec.getLsbD_append]
  interval_cases i <;> simp

theorem encodeMrt_kind (c : Cond) (opc1 : BitVec 3) (l : BitVec 1) (crn : BitVec 4) (rd : RegNum) (cpNum : BitVec 4)
    (opc2 : BitVec 3) (crm : BitVec 4) :
    encodeMrt c opc1 l crn rd cpNum opc2 crm &&& 0x0F100010#32 = 0x0E000010#32 ||| (l.setWidth 32 <<< 20) := by
  apply BitVec.eq_of_getLsbD_eq
  intro i hi
  simp only [encodeMrt, BitVec.getLsbD_and, BitVec.getLsbD_or, BitVec.getLsbD_append]
  interval_cases i <;> simp

/-! ### The instructions -/

theorem and (c : Cond) (s : Bool) (rn rd : RegNum) (op2 : Operand2) :
    Statement (.and c s rn rd op2) :=
  (encodeDp_opcode _ _ _ _ _ _).trans rfl

theorem eor (c : Cond) (s : Bool) (rn rd : RegNum) (op2 : Operand2) :
    Statement (.eor c s rn rd op2) :=
  (encodeDp_opcode _ _ _ _ _ _).trans rfl

theorem sub (c : Cond) (s : Bool) (rn rd : RegNum) (op2 : Operand2) :
    Statement (.sub c s rn rd op2) :=
  (encodeDp_opcode _ _ _ _ _ _).trans rfl

theorem rsb (c : Cond) (s : Bool) (rn rd : RegNum) (op2 : Operand2) :
    Statement (.rsb c s rn rd op2) :=
  (encodeDp_opcode _ _ _ _ _ _).trans rfl

theorem add (c : Cond) (s : Bool) (rn rd : RegNum) (op2 : Operand2) :
    Statement (.add c s rn rd op2) :=
  (encodeDp_opcode _ _ _ _ _ _).trans rfl

theorem adc (c : Cond) (s : Bool) (rn rd : RegNum) (op2 : Operand2) :
    Statement (.adc c s rn rd op2) :=
  (encodeDp_opcode _ _ _ _ _ _).trans rfl

theorem sbc (c : Cond) (s : Bool) (rn rd : RegNum) (op2 : Operand2) :
    Statement (.sbc c s rn rd op2) :=
  (encodeDp_opcode _ _ _ _ _ _).trans rfl

theorem rsc (c : Cond) (s : Bool) (rn rd : RegNum) (op2 : Operand2) :
    Statement (.rsc c s rn rd op2) :=
  (encodeDp_opcode _ _ _ _ _ _).trans rfl

theorem tst (c : Cond) (rn : RegNum) (op2 : Operand2) :
    Statement (.tst c rn op2) :=
  (encodeDp_compare _ _ _ _).trans rfl

theorem teq (c : Cond) (rn : RegNum) (op2 : Operand2) :
    Statement (.teq c rn op2) :=
  (encodeDp_compare _ _ _ _).trans rfl

theorem cmp (c : Cond) (rn : RegNum) (op2 : Operand2) :
    Statement (.cmp c rn op2) :=
  (encodeDp_compare _ _ _ _).trans rfl

theorem cmn (c : Cond) (rn : RegNum) (op2 : Operand2) :
    Statement (.cmn c rn op2) :=
  (encodeDp_compare _ _ _ _).trans rfl

theorem orr (c : Cond) (s : Bool) (rn rd : RegNum) (op2 : Operand2) :
    Statement (.orr c s rn rd op2) :=
  (encodeDp_opcode _ _ _ _ _ _).trans rfl

theorem mov (c : Cond) (s : Bool) (rd : RegNum) (op2 : Operand2) :
    Statement (.mov c s rd op2) :=
  (encodeDp_move _ _ _ _ _).trans rfl

theorem bic (c : Cond) (s : Bool) (rn rd : RegNum) (op2 : Operand2) :
    Statement (.bic c s rn rd op2) :=
  (encodeDp_opcode _ _ _ _ _ _).trans rfl

theorem mvn (c : Cond) (s : Bool) (rd : RegNum) (op2 : Operand2) :
    Statement (.mvn c s rd op2) :=
  (encodeDp_move _ _ _ _ _).trans rfl

theorem b (c : Cond) (offset : BitVec 24) :
    Statement (.b c offset) :=
  (encodeBr_link _ _ _).trans rfl

theorem bl (c : Cond) (offset : BitVec 24) :
    Statement (.bl c offset) :=
  (encodeBr_link _ _ _).trans rfl

theorem strImm (c : Cond) (p u w : Bool) (rn rd : RegNum) (offset : BitVec 12) :
    Statement (.strImm c p u w rn rd offset) :=
  (encodeLsi_kind _ _ _ _ _ _ _ _ _).trans rfl

theorem strReg (c : Cond) (p u w : Bool) (rn rd : RegNum) (amount : BitVec 5) (type : ShiftType) (rm : RegNum) :
    Statement (.strReg c p u w rn rd amount type rm) :=
  (encodeLsr_kind _ _ _ _ _ _ _ _ _ _ _).trans rfl

theorem ldrImm (c : Cond) (p u w : Bool) (rn rd : RegNum) (offset : BitVec 12) :
    Statement (.ldrImm c p u w rn rd offset) :=
  (encodeLsi_kind _ _ _ _ _ _ _ _ _).trans rfl

theorem ldrReg (c : Cond) (p u w : Bool) (rn rd : RegNum) (amount : BitVec 5) (type : ShiftType) (rm : RegNum) :
    Statement (.ldrReg c p u w rn rd amount type rm) :=
  (encodeLsr_kind _ _ _ _ _ _ _ _ _ _ _).trans rfl

theorem strbImm (c : Cond) (p u w : Bool) (rn rd : RegNum) (offset : BitVec 12) :
    Statement (.strbImm c p u w rn rd offset) :=
  (encodeLsi_kind _ _ _ _ _ _ _ _ _).trans rfl

theorem strbReg (c : Cond) (p u w : Bool) (rn rd : RegNum) (amount : BitVec 5) (type : ShiftType) (rm : RegNum) :
    Statement (.strbReg c p u w rn rd amount type rm) :=
  (encodeLsr_kind _ _ _ _ _ _ _ _ _ _ _).trans rfl

theorem ldrbImm (c : Cond) (p u w : Bool) (rn rd : RegNum) (offset : BitVec 12) :
    Statement (.ldrbImm c p u w rn rd offset) :=
  (encodeLsi_kind _ _ _ _ _ _ _ _ _).trans rfl

theorem ldrbReg (c : Cond) (p u w : Bool) (rn rd : RegNum) (amount : BitVec 5) (type : ShiftType) (rm : RegNum) :
    Statement (.ldrbReg c p u w rn rd amount type rm) :=
  (encodeLsr_kind _ _ _ _ _ _ _ _ _ _ _).trans rfl

theorem cdp (c : Cond) (opc1 crn crd cpNum : BitVec 4) (opc2 : BitVec 3) (crm : BitVec 4) :
    Statement (.cdp c opc1 crn crd cpNum opc2 crm) :=
  (encodeCdp_kind _ _ _ _ _ _ _).trans rfl

theorem mcr (c : Cond) (opc1 : BitVec 3) (crn : BitVec 4) (rd : RegNum) (cpNum : BitVec 4) (opc2 : BitVec 3) (crm : BitVec 4) :
    Statement (.mcr c opc1 crn rd cpNum opc2 crm) :=
  (encodeMrt_kind _ _ _ _ _ _ _ _).trans rfl

theorem mrc (c : Cond) (opc1 : BitVec 3) (crn : BitVec 4) (rd : RegNum) (cpNum : BitVec 4) (opc2 : BitVec 3) (crm : BitVec 4) :
    Statement (.mrc c opc1 crn rd cpNum opc2 crm) :=
  (encodeMrt_kind _ _ _ _ _ _ _ _).trans rfl

end Sys2Proof.Laws.FixedBits
end

