-- ==== Sys2Proof/Machine/Run.lean ====
section
/-! DEFINITION. Runs (spec/40_step_and_condition.md R110): the steps from a launch state, under fuel
(spec/60_exceptions.md R172, spec/70_reset_and_hazards.md R185). -/

namespace Sys2Proof.Machine

/-- How a run under fuel is left: at the first stop, which is final, with the state that the stop leaves (R171);
or with its fuel used up and no stop met, the state being the last one reached. -/
inductive RunEnd where
  | stopped (last : State) (stop : Stop)
  | outOfFuel (last : State)
deriving DecidableEq, Repr

/-- The run from a state, at most `fuel` steps of it (R110).  Nothing but a stop ends it: the core has no halt and
no wait. -/
def run : Nat → State → RunEnd
  | 0, s => .outOfFuel s
  | fuel + 1, s =>
    match step s with
    | .next t => run fuel t
    | .fault f => .stopped s (.fault f)
    | .refused r => .stopped s (.refusal r)

/-- No end of a run is successful (R110, R172). -/
def RunEnd.successful : RunEnd → Bool
  | .stopped _ _ => false
  | .outOfFuel _ => false

/-- The run goes on for ever: no fuel meets a stop (R110). -/
def RunsForever (s : State) : Prop := ∀ fuel, ∃ t, run fuel s = .outOfFuel t

/-- The launch premises of R185: the parameters of R8, the initial memory among them, and the host actions that
prepare the state before the first step (R43, R184), none for the reset state itself. -/
structure Launch where
  params        : Params
  initialMemory : Memory
  actions       : List HostAction
deriving DecidableEq, Repr

/-- The state a run starts from, `none` where a host action is a contract violation. -/
def Launch.state (l : Launch) : Option State := hostActs (State.launch l.params l.initialMemory) l.actions

/-- The run from a launch (R110, R185). -/
def Launch.run (l : Launch) (fuel : Nat) : Option RunEnd := l.state.map (Sys2Proof.Machine.run fuel)

end Sys2Proof.Machine
end

