-- ==== Sys2Proof/Laws/Run.lean ====
section
/-! SUPPORT. Runs: a stop is final.  And runs whose words are all known: every step keeps them known, and none
stops with `UnknownRead`, so no run from `State.reset` does. -/

namespace Sys2Proof.Machine

/-! ### A stop is final -/

theorem run_succ_of_next {s t : State} (h : step s = .next t) (fuel : Nat) : run (fuel + 1) s = run fuel t := by
  simp [run, h]

/-- More fuel changes nothing of a run that has stopped (R110). -/
theorem run_stopped_add {fuel : Nat} {s t : State} {r : Stop} (h : run fuel s = .stopped t r) (k : Nat) :
    run (fuel + k) s = .stopped t r := by
  induction fuel generalizing s with
  | zero => simp [run] at h
  | succ fuel ih =>
    rw [Nat.add_right_comm, run]
    rw [run] at h
    cases hs : step s with
    | next u => rw [hs] at h; exact ih h
    | fault f => rw [hs] at h; exact h
    | refused f => rw [hs] at h; exact h

/-- Where a run has stopped, the step from its last state is that stop: the state is that of the start of the
stopped instruction (R171). -/
theorem run_stopped_step {fuel : Nat} {s t : State} {r : Stop} (h : run fuel s = .stopped t r) :
    step t = outcome (.error r) := by
  induction fuel generalizing s with
  | zero => simp [run] at h
  | succ fuel ih =>
    rw [run] at h
    cases hs : step s with
    | next u => rw [hs] at h; exact ih h
    | fault f =>
      rw [hs] at h
      simp only [RunEnd.stopped.injEq] at h
      obtain ⟨rfl, rfl⟩ := h
      exact hs
    | refused f =>
      rw [hs] at h
      simp only [RunEnd.stopped.injEq] at h
      obtain ⟨rfl, rfl⟩ := h
      exact hs

/-! ### States whose words are all known -/

/-- Every register word, every bit of CPSR and every bit of every SPSR is known (R41). -/
structure State.AllKnown (s : State) : Prop where
  regs  : ∀ p, (s.getReg p).known = true
  cpsr  : ∀ i, s.cpsr.knows i = true
  spsrs : ∀ b i, (s.getSpsr b).knows i = true

theorem State.allKnown_reset : State.reset.AllKnown where
  regs := by intro p; cases p <;> rfl
  cpsr := by decide
  spsrs := by intro b; cases b <;> decide

theorem State.AllKnown.setPc {s : State} (h : s.AllKnown) (v : Word) : (s.setPc v).AllKnown := ⟨h.regs, h.cpsr, h.spsrs⟩

theorem State.AllKnown.record {s : State} (h : s.AllKnown) (e : MemEvent) : (s.record e).AllKnown := ⟨h.regs, h.cpsr, h.spsrs⟩

theorem State.AllKnown.fetched {s : State} (h : s.AllKnown) : s.fetched.AllKnown := ⟨h.regs, h.cpsr, h.spsrs⟩

theorem State.AllKnown.withMem {s : State} (h : s.AllKnown) (m : Memory) : ({ s with mem := m } : State).AllKnown :=
  ⟨h.regs, h.cpsr, h.spsrs⟩

theorem State.AllKnown.writeReg {s : State} (h : s.AllKnown) (r : RegNum) (v : Word) : (s.writeReg r v).AllKnown where
  regs p := by
    rw [State.getReg_writeReg]
    split
    · rfl
    · exact h.regs p
  cpsr := by simpa using h.cpsr
  spsrs := by simpa using h.spsrs

theorem State.AllKnown.writeBack {s : State} (h : s.AllKnown) (r : RegNum) (a : Address) : (s.writeBack r a).AllKnown := by
  unfold State.writeBack
  split
  · exact h.writeReg r a.addr
  · exact h

theorem Psr.knows_setFlags {p : Psr} {i : Fin 32} (h : p.knows i = true) (o : AluOut) (c : ShiftCarry) :
    (p.setFlags o c).knows i = true := by
  unfold Psr.setFlags Psr.setNZ
  split
  · cases c <;> simp [Psr.setShiftCarry, Psr.knows_setFlag, h]
  · simp [Psr.knows_setFlag, h]

theorem State.AllKnown.setFlags {s : State} (h : s.AllKnown) (o : AluOut) (c : ShiftCarry) : (s.setFlags o c).AllKnown :=
  ⟨h.regs, fun i => Psr.knows_setFlags (h.cpsr i) o c, h.spsrs⟩

/-- Every instruction that completes keeps all words known. -/
theorem Effect.allKnown {i : Instr} {s t : State} (e : Effect i s t) (h : s.AllKnown) : t.AllKnown := by
  cases e with
  | advance => exact h.setPc _
  | dest rd v _ => exact (h.writeReg rd v).setPc _
  | destFlags rd o sc _ _ => exact ((h.writeReg rd _).setFlags o sc).setPc _
  | flags o sc _ => exact (h.setFlags o sc).setPc _
  | jump v _ => exact h.setPc _
  | link v _ => exact (h.writeReg .r14 _).setPc _
  | ret u v _ hu _ =>
    obtain ⟨b, m, _, _, _, rfl⟩ := State.restoreCpsr_ok hu
    have hk : State.AllKnown { s with cpsr := s.getSpsr b, mode := m, spsrSlot := m.spsr.getD s.spsrSlot } :=
      ⟨h.regs, h.spsrs b, h.spsrs⟩
    exact hk.setPc v
  | loadPc e rn a v _ _ _ _ => exact ((h.record e).writeBack rn a).setPc _
  | load e rn a rd v _ _ _ _ => exact (((h.record e).writeBack rn a).writeReg rd v).setPc _
  | store m e rn a _ _ _ _ => exact (((h.withMem m).record e).writeBack rn a).setPc _

theorem step_allKnown {s t : State} (h : s.AllKnown) (hs : step s = .next t) : t.AllKnown := by
  obtain ⟨_, _, i, _, he⟩ := step_next hs
  exact (exec_effect he).allKnown h.fetched

theorem State.AllKnown.setMode {s : State} (h : s.AllKnown) (m : Mode) : (s.setMode m).AllKnown where
  regs := h.regs
  cpsr i := by
    rw [State.setMode_cpsr]
    by_cases hi : i < 5
    · exact Psr.knows_setMode_mode _ m hi
    · rw [Psr.knows_setMode_high _ m (Fin.not_lt.mp hi)]
      exact h.cpsr i
  spsrs := h.spsrs

theorem State.AllKnown.setReg {s : State} (h : s.AllKnown) (p : PhysReg) (v : Word) : (s.setReg p ⟨v, true⟩).AllKnown where
  regs q := by
    rw [State.getReg_setReg]
    split
    · rfl
    · exact h.regs q
  cpsr := h.cpsr
  spsrs := h.spsrs

theorem State.AllKnown.setSpsr {s : State} (h : s.AllKnown) (b : SpsrBank) {p : Psr} (hp : ∀ i, p.knows i = true) :
    (s.setSpsr b p).AllKnown where
  regs := h.regs
  cpsr := h.cpsr
  spsrs c i := by
    rw [State.getSpsr_setSpsr]
    split
    · exact hp i
    · exact h.spsrs c i

theorem State.AllKnown.withCpsr {s : State} (h : s.AllKnown) {p : Psr} (hp : ∀ i, p.knows i = true) :
    ({ s with cpsr := p } : State).AllKnown := ⟨h.regs, hp, h.spsrs⟩

theorem Psr.knows_whole (v : Word) (i : Fin 32) : (⟨v, BitVec.allOnes 32⟩ : Psr).knows i = true := by
  rw [Psr.knows, Bits.bit, BitVec.getLsbD_allOnes]
  exact decide_eq_true i.isLt

theorem Psr.knows_writeField {p : Psr} {i : Fin 32} (h : p.knows i = true) (f : Bits.FieldMask) (v : Word) :
    (p.writeField f v).knows i = true := by
  unfold Psr.knows Bits.bit at *
  simp only [Psr.writeField, BitVec.getLsbD_or, h, Bool.true_or]

/-- Where a host write of CPSR's mode field is no violation, it is `setMode` of the mode that the word encodes,
over the written word (R43). -/
theorem State.hostSetCpsr_some {s t : State} {p : Psr} (h : s.hostSetCpsr p = some t) :
    ∃ m, p.modeBits = m.encoding ∧ t = State.setMode { s with cpsr := p } m := by
  unfold State.hostSetCpsr at h
  split at h
  · obtain ⟨m, hm, rfl⟩ := Option.map_eq_some_iff.mp h
    exact ⟨m, Mode.encoding_of_ofEncoding hm, rfl⟩
  · simp at h

theorem State.AllKnown.hostSetCpsr {s t : State} (h : s.AllKnown) {p : Psr} (hp : ∀ i, p.knows i = true)
    (ht : s.hostSetCpsr p = some t) : t.AllKnown := by
  obtain ⟨m, _, rfl⟩ := State.hostSetCpsr_some ht
  exact (h.withCpsr hp).setMode m

theorem State.AllKnown.hostWrite {s t : State} (h : s.AllKnown) {v : Word} {p : PhysWord} (ht : s.hostWrite v p = some t) :
    t.AllKnown := by
  cases p with
  | gpr p => exact Option.some.inj ht ▸ h.setReg p v
  | r15 => exact Option.some.inj ht ▸ h.setPc v
  | cpsr => exact h.hostSetCpsr (Psr.knows_whole v) ht
  | spsr b => exact Option.some.inj ht ▸ h.setSpsr b (Psr.knows_whole v)

theorem State.AllKnown.hostWriteField {s t : State} (h : s.AllKnown) {f : Bits.FieldMask} {v : Word} {p : PhysWord}
    (ht : s.hostWriteField f v p = some t) : t.AllKnown := by
  have hc : ∀ i, (s.cpsr.writeField f v).knows i = true := fun i => Psr.knows_writeField (h.cpsr i) f v
  cases p with
  | gpr p =>
    rw [State.hostWriteField, h.regs p, if_pos rfl] at ht
    exact Option.some.inj ht ▸ h.setReg p _
  | r15 => exact Option.some.inj ht ▸ h.setPc _
  | cpsr =>
    rw [State.hostWriteField] at ht
    split at ht
    · exact Option.some.inj ht ▸ h.withCpsr hc
    · exact h.hostSetCpsr hc ht
  | spsr b => exact Option.some.inj ht ▸ h.setSpsr b (fun i => Psr.knows_writeField (h.spsrs b i) f v)

/-- Every host action but a reset keeps all words known; a reset makes the launch state, whose words R42 leaves
unknown. -/
theorem hostAct_allKnown {s t : State} (h : s.AllKnown) {a : HostAction} (ha : a ≠ .reset) (ht : hostAct s a = some t) :
    t.AllKnown := by
  cases a with
  | writeWord p v => exact h.hostWrite ht
  | writeField p f v =>
    rw [hostAct] at ht
    split at ht
    · exact h.hostWriteField ht
    · simp at ht
  | writeByte a v => exact Option.some.inj ht ▸ h.withMem _
  | setMode m => exact Option.some.inj ht ▸ h.setMode m
  | reset => exact absurd rfl ha

/-! ### No read of an unknown word -/

/-- The stages do not stop with `UnknownRead`. -/
def Quiet {α : Type} (r : Except Stop α) : Prop := ∀ n, r ≠ .error (.fault (.unknownRead n))

theorem Quiet.ok {α : Type} (a : α) : Quiet (.ok a : Except Stop α) := by simp [Quiet]

theorem Quiet.unpredictable {α : Type} (r : Reason) : Quiet (.error (unpredictable r) : Except Stop α) := by
  simp [Quiet, Machine.unpredictable]

theorem Quiet.refusal {α : Type} (r : Refusal) : Quiet (.error (.refusal r) : Except Stop α) := by simp [Quiet]

theorem Quiet.bind {α β : Type} {x : Except Stop α} {f : α → Except Stop β} (hx : Quiet x) (hf : ∀ a, Quiet (f a)) :
    Quiet (x >>= f) := by
  cases x with
  | error e => simpa [Quiet, Bind.bind, Except.bind] using hx
  | ok a => exact hf a

theorem Quiet.ite {α : Type} {c : Prop} [Decidable c] {x y : Except Stop α} (hx : Quiet x) (hy : Quiet y) :
    Quiet (if c then x else y) := by
  split
  · exact hx
  · exact hy

variable {s : State}

theorem quiet_readReg (h : s.AllKnown) (r : RegNum) : Quiet (s.readReg r) := by
  rw [State.readReg_of_known (fun p _ => h.regs p)]
  exact .ok _

theorem quiet_readFlag (h : s.AllKnown) (f : Flag) : Quiet (s.readFlag f) := by
  rw [State.readFlag_of_known (h.cpsr _)]
  exact .ok _

theorem quiet_conditionPassed (h : s.AllKnown) (c : Cond) : Quiet (conditionPassed c s.cpsr) := by
  have : (condReads c).find? (fun f => !s.cpsr.knowsFlag f) = none := by
    rw [List.find?_eq_none]
    intro f _
    simp [Psr.knowsFlag, h.cpsr]
  rw [conditionPassed, this]
  exact .ok _

theorem quiet_immediateShift (h : s.AllKnown) (type : ShiftType) (amount : BitVec 5) (m : Word) :
    Quiet (immediateShift type amount m s) := by
  refine .ite ?_ (.ok _)
  cases type with
  | ror => exact .bind (quiet_readFlag h _) (fun _ => .ok _)
  | _ => exact .ok _

theorem quiet_shifter (h : s.AllKnown) (op2 : Operand2) : Quiet (shifter op2 s) := by
  cases op2 with
  | imm => exact .ok _
  | immShift amount type rm => exact .bind (quiet_readReg h rm) (fun _ => quiet_immediateShift h _ _ _)
  | regShift rs type rm => exact .bind (quiet_readReg h rm) (fun _ => .bind (quiet_readReg h rs) (fun _ => .ok _))
  | unsupported => exact .refusal _

theorem quiet_restoreCpsr (h : s.AllKnown) : Quiet s.restoreCpsr := by
  unfold State.restoreCpsr
  split
  · exact .unpredictable _
  · rename_i b _
    have : restoreReads.find? (fun i => !(s.getSpsr b).knows i) = none := by
      rw [List.find?_eq_none]
      intro i _
      simp [h.spsrs b i]
    simp only [this]
    split
    · exact .unpredictable _
    · exact .ok _

theorem quiet_dpWrite (h : s.AllKnown) (sf : Bool) (rd : RegNum) (out : AluOut) (sc : ShiftCarry) : Quiet (dpWrite sf rd out sc s) := by
  refine .ite (.ite (.bind (quiet_restoreCpsr h) fun _ => .ite (.unpredictable _) (.ok _)) (.ite (.unpredictable _) (.ok _))) (.ok _)

theorem quiet_plainOp (f : Word → Word → AluOut) (a b : Word) : Quiet (plainOp f s a b) := .ok _

theorem quiet_carryOp (h : s.AllKnown) (f : Word → Word → Bool → AluOut) (a b : Word) : Quiet (carryOp f s a b) :=
  .bind (quiet_readFlag h _) (fun _ => .ok _)

theorem quiet_binaryBody (h : s.AllKnown) {op : AluOp} (ho : ∀ a b, Quiet (op s a b)) (sf : Bool) (rn rd : RegNum) (op2 : Operand2) :
    Quiet (binaryBody op sf rn rd op2 s) :=
  .bind (quiet_shifter h op2) fun _ => .bind (quiet_readReg h rn) fun _ => .bind (ho _ _) fun _ => quiet_dpWrite h _ _ _ _

theorem quiet_unaryBody (h : s.AllKnown) (op : Word → AluOut) (sf : Bool) (rd : RegNum) (op2 : Operand2) :
    Quiet (unaryBody op sf rd op2 s) :=
  .bind (quiet_shifter h op2) fun _ => quiet_dpWrite h _ _ _ _

theorem quiet_compareBody (h : s.AllKnown) (op : Word → Word → AluOut) (rn : RegNum) (op2 : Operand2) : Quiet (compareBody op rn op2 s) :=
  .bind (quiet_shifter h op2) fun _ => .bind (quiet_readReg h rn) fun _ => .ok _

theorem quiet_loadWord (a : Address) (user : Bool) (rn rd : RegNum) : Quiet (loadWord a user rn rd s) := .ite (.ok _) (.ok _)

theorem quiet_loadByte (a : Address) (user : Bool) (rn rd : RegNum) : Quiet (loadByte a user rn rd s) := .ok _

theorem quiet_storeWord (h : s.AllKnown) (a : Address) (user : Bool) (rn rd : RegNum) : Quiet (storeWord a user rn rd s) :=
  .bind (.ite (.ok _) (quiet_readReg h rd)) fun _ => .ite (.unpredictable _) (.ok _)

theorem quiet_storeByte (h : s.AllKnown) (a : Address) (user : Bool) (rn rd : RegNum) : Quiet (storeByte a user rn rd s) :=
  .bind (quiet_readReg h rd) fun _ => .ite (.unpredictable _) (.ok _)

theorem quiet_immBody (h : s.AllKnown) {access : Transfer} {rn rd : RegNum} (ha : ∀ a user, Quiet (access a user rn rd s))
    (p u w : Bool) (offset : BitVec 12) : Quiet (immBody access p u w rn rd offset s) :=
  .bind (quiet_readReg h rn) fun _ => ha _ _

theorem quiet_regBody (h : s.AllKnown) {access : Transfer} {rn rd : RegNum} (ha : ∀ a user, Quiet (access a user rn rd s))
    (p u w : Bool) (amount : BitVec 5) (type : ShiftType) (rm : RegNum) : Quiet (regBody access p u w rn rd amount type rm s) :=
  .bind (quiet_readReg h rn) fun _ =>
    .bind (.bind (quiet_readReg h rm) fun _ => .bind (quiet_immediateShift h _ _ _) fun _ => .ok _) fun _ => ha _ _

/-- No body reads an unknown word where all are known. -/
theorem quiet_body (h : s.AllKnown) (i : Instr) : Quiet (body i s) := by
  cases i with
  | and | eor | sub | rsb | add | orr | bic => rw [body]; exact quiet_binaryBody h (fun a b => quiet_plainOp _ a b) _ _ _ _
  | adc | sbc | rsc => rw [body]; exact quiet_binaryBody h (fun a b => quiet_carryOp h _ a b) _ _ _ _
  | mov | mvn => rw [body]; exact quiet_unaryBody h _ _ _ _
  | tst | teq | cmp | cmn => rw [body]; exact quiet_compareBody h _ _ _
  | b | bl => rw [body]; exact .ok _
  | strImm => rw [body]; exact quiet_immBody h (fun _ _ => quiet_storeWord h _ _ _ _) _ _ _ _
  | strReg => rw [body]; exact quiet_regBody h (fun _ _ => quiet_storeWord h _ _ _ _) _ _ _ _ _ _
  | ldrImm => rw [body]; exact quiet_immBody h (fun _ _ => quiet_loadWord _ _ _ _) _ _ _ _
  | ldrReg => rw [body]; exact quiet_regBody h (fun _ _ => quiet_loadWord _ _ _ _) _ _ _ _ _ _
  | strbImm => rw [body]; exact quiet_immBody h (fun _ _ => quiet_storeByte h _ _ _ _) _ _ _ _
  | strbReg => rw [body]; exact quiet_regBody h (fun _ _ => quiet_storeByte h _ _ _ _) _ _ _ _ _ _
  | ldrbImm => rw [body]; exact quiet_immBody h (fun _ _ => quiet_loadByte _ _ _ _) _ _ _ _
  | ldrbReg => rw [body]; exact quiet_regBody h (fun _ _ => quiet_loadByte _ _ _ _) _ _ _ _ _ _
  | cdp | mcr | mrc => rw [body]; exact .refusal _

/-- No field check is an `UnknownRead`. -/
theorem problemOf_ne_unknownRead (p : FormProblem) (n : UnknownName) : problemOf p ≠ .fault (.unknownRead n) := by
  cases p <;> simp [problemOf, unpredictable]

theorem check_ne_unknownRead (i : Instr) (n : UnknownName) : check i ≠ some (.fault (.unknownRead n)) := by
  cases hc : i.isCoprocessor with
  | true => cases i <;> simp [check, Instr.isCoprocessor] at hc ⊢
  | false =>
    obtain ⟨ps, _, h⟩ := problems_split hc
    cases ps <;> simp [h, problemOf_ne_unknownRead]

theorem outcome_ne_unknownRead {r : Except Stop State} (h : Quiet r) (n : UnknownName) : outcome r ≠ .fault (.unknownRead n) := by
  rcases r with (f | f) | t
  · intro e
    rw [outcome, Host.Outcome.fault.injEq] at e
    exact h n (by rw [e])
  · simp [outcome]
  · simp [outcome]

theorem runGated_ne_unknownRead {chk : Option Stop} {c : Cond} {bd : State → Except Stop State}
    (hk : ∀ n, chk ≠ some (.fault (.unknownRead n))) (hp : Quiet (conditionPassed c s.cpsr)) (hb : Quiet (bd s)) (n : UnknownName) :
    runGated chk c bd s ≠ .fault (.unknownRead n) := by
  unfold runGated
  cases chk with
  | some stop => exact outcome_ne_unknownRead (fun m e => hk m (congrArg some (Except.error.inj e))) n
  | none =>
    by_cases hn : c = .nv
    · simp [hn]
    · simp only [hn, if_false]
      cases hq : conditionPassed c s.cpsr with
      | error stop => exact outcome_ne_unknownRead (fun m e => hp m (hq.trans (congrArg Except.error (Except.error.inj e)))) n
      | ok b =>
        cases b
        · simp
        · exact outcome_ne_unknownRead hb n

/-- An instruction whose state has all words known never stops with `UnknownRead`. -/
theorem exec_ne_unknownRead (h : s.AllKnown) (i : Instr) (n : UnknownName) : exec i s ≠ .fault (.unknownRead n) := by
  rw [exec_eq_runGated]
  exact runGated_ne_unknownRead (check_ne_unknownRead i) (quiet_conditionPassed h i.cond) (quiet_body h i) n

theorem step_ne_unknownRead (h : s.AllKnown) (n : UnknownName) : step s ≠ .fault (.unknownRead n) := by
  unfold step
  split
  · simp
  · split
    · simp
    · split
      · simp
      · exact exec_ne_unknownRead h.fetched _ n

/-- A run from a state whose words are all known never stops with `UnknownRead`. -/
theorem run_ne_unknownRead (h : s.AllKnown) (fuel : Nat) (t : State) (n : UnknownName) :
    run fuel s ≠ .stopped t (.fault (.unknownRead n)) := by
  induction fuel generalizing s with
  | zero => simp [run]
  | succ fuel ih =>
    rw [run]
    cases hs : step s with
    | next u => exact ih (step_allKnown h hs)
    | fault f =>
      intro e
      simp only [RunEnd.stopped.injEq, Stop.fault.injEq] at e
      exact step_ne_unknownRead h n (by rw [hs, e.2])
    | refused f => simp

/-- No run from `State.reset`, whatever memory it starts with, stops on a register, a flag or an SPSR bit that
nothing has written since reset. -/
theorem run_reset_ne_unknownRead (mem : Memory) (fuel : Nat) (t : State) (n : UnknownName) :
    run fuel { State.reset with mem := mem } ≠ .stopped t (.fault (.unknownRead n)) :=
  run_ne_unknownRead (State.allKnown_reset.withMem mem) fuel t n

end Sys2Proof.Machine
end

