-- ==== Sys2Proof/Machine/Assembly.lean ====
section
/-! DEFINITION. The assembler syntax of spec/30_encoding.md R98 to R102, a reading aid: the text of an
instruction, and what the assembler's labels, immediates and pseudo-instructions stand for.  No meaning
depends on this file. -/

namespace Sys2Proof.Machine

/-! ### Names (R98) -/

/-- A register's name. -/
def regName (r : RegNum) : String := "r" ++ Nat.repr r.toBits.toNat

/-- The register of a name or an alias. -/
def regOfName (name : String) : Option RegNum :=
  match name with
  | "sp" => some .r13
  | "lr" => some .r14
  | "pc" => some .r15
  | _ => ((List.range 16).map fun n => RegNum.ofBits (BitVec.ofNat 4 n)).find? fun r => regName r == name

/-- The condition suffix; AL has none. -/
def condSuffix : Cond → String
  | .eq => "EQ" | .ne => "NE" | .cs => "CS" | .cc => "CC" | .mi => "MI" | .pl => "PL" | .vs => "VS" | .vc => "VC"
  | .hi => "HI" | .ls => "LS" | .ge => "GE" | .lt => "LT" | .gt => "GT" | .le => "LE" | .al => "" | .nv => "NV"

def shiftName : ShiftType → String
  | .lsl => "LSL" | .lsr => "LSR" | .asr => "ASR" | .ror => "ROR"

def number (n : Nat) : String := "#" ++ Nat.repr n

/-! ### Operands (R99, R100) -/

/-- An immediate shift: nothing for LSL #0, 32 for LSR #0 and ASR #0, RRX for ROR #0. -/
def shiftText (type : ShiftType) (amount : BitVec 5) : String :=
  if amount = 0 then
    match type with
    | .lsl => ""
    | .ror => ", RRX"
    | _ => ", " ++ shiftName type ++ " #32"
  else ", " ++ shiftName type ++ " " ++ number amount.toNat

/-- The text of `operand2`; the unsupported form has none. -/
def operand2Text : Operand2 → Option String
  | .imm rotate immed => some (number (immediateOperand rotate immed).operand.toNat)
  | .immShift amount type rm => some (regName rm ++ shiftText type amount)
  | .regShift rs type rm => some (regName rm ++ ", " ++ shiftName type ++ " " ++ regName rs)
  | .unsupported _ _ _ => none

/-- The four address forms: pre-indexed with `!` for writeback, and post-indexed. -/
def addressText (p w : Bool) (rn : RegNum) (offset : String) : String :=
  if p then "[" ++ regName rn ++ ", " ++ offset ++ "]" ++ (if w then "!" else "")
  else "[" ++ regName rn ++ "], " ++ offset

def immOffsetText (u : Bool) (offset : BitVec 12) : String := "#" ++ (if u then "" else "-") ++ Nat.repr offset.toNat

def regOffsetText (u : Bool) (amount : BitVec 5) (type : ShiftType) (rm : RegNum) : String :=
  (if u then "" else "-") ++ regName rm ++ shiftText type amount

/-! ### Instructions (R99 to R101) -/

def dpText (op : String) (c : Cond) (s : Bool) (regs : List RegNum) (op2 : Operand2) : Option String :=
  (operand2Text op2).map fun t =>
    op ++ condSuffix c ++ (if s then "S" else "") ++ " " ++ String.join (regs.map fun r => regName r ++ ", ") ++ t

/-- A load or store; the T suffix is for the post-indexed form with W = 1. -/
def transferText (op : String) (c : Cond) (byte p w : Bool) (rn rd : RegNum) (offset : String) : Option String :=
  some (op ++ condSuffix c ++ (if byte then "B" else "") ++ (if !p && w then "T" else "") ++ " " ++ regName rd ++ ", " ++
    addressText p w rn offset)

def branchText (op : String) (c : Cond) (pc : Word) (offset : BitVec 24) : Option String :=
  some (op ++ condSuffix c ++ " " ++ Nat.repr (branchTarget pc offset).toNat)

def coprocText (op : String) (c : Cond) (cpNum : BitVec 4) (opc1 : Nat) (first : String) (crn crm : BitVec 4) (opc2 : BitVec 3) :
    Option String :=
  some (op ++ condSuffix c ++ " p" ++ Nat.repr cpNum.toNat ++ ", " ++ Nat.repr opc1 ++ ", " ++ first ++ ", c" ++
    Nat.repr crn.toNat ++ ", c" ++ Nat.repr crm.toNat ++ ", " ++ Nat.repr opc2.toNat)

/-- The text of an instruction at an address; a branch's label is its target's address. -/
def instrText (pc : Word) : Instr → Option String
  | .and c s rn rd op2 => dpText "AND" c s [rd, rn] op2
  | .eor c s rn rd op2 => dpText "EOR" c s [rd, rn] op2
  | .sub c s rn rd op2 => dpText "SUB" c s [rd, rn] op2
  | .rsb c s rn rd op2 => dpText "RSB" c s [rd, rn] op2
  | .add c s rn rd op2 => dpText "ADD" c s [rd, rn] op2
  | .adc c s rn rd op2 => dpText "ADC" c s [rd, rn] op2
  | .sbc c s rn rd op2 => dpText "SBC" c s [rd, rn] op2
  | .rsc c s rn rd op2 => dpText "RSC" c s [rd, rn] op2
  | .tst c rn op2 => dpText "TST" c false [rn] op2
  | .teq c rn op2 => dpText "TEQ" c false [rn] op2
  | .cmp c rn op2 => dpText "CMP" c false [rn] op2
  | .cmn c rn op2 => dpText "CMN" c false [rn] op2
  | .orr c s rn rd op2 => dpText "ORR" c s [rd, rn] op2
  | .mov c s rd op2 => dpText "MOV" c s [rd] op2
  | .bic c s rn rd op2 => dpText "BIC" c s [rd, rn] op2
  | .mvn c s rd op2 => dpText "MVN" c s [rd] op2
  | .b c offset => branchText "B" c pc offset
  | .bl c offset => branchText "BL" c pc offset
  | .strImm c p u w rn rd offset => transferText "STR" c false p w rn rd (immOffsetText u offset)
  | .strReg c p u w rn rd amount type rm => transferText "STR" c false p w rn rd (regOffsetText u amount type rm)
  | .ldrImm c p u w rn rd offset => transferText "LDR" c false p w rn rd (immOffsetText u offset)
  | .ldrReg c p u w rn rd amount type rm => transferText "LDR" c false p w rn rd (regOffsetText u amount type rm)
  | .strbImm c p u w rn rd offset => transferText "STR" c true p w rn rd (immOffsetText u offset)
  | .strbReg c p u w rn rd amount type rm => transferText "STR" c true p w rn rd (regOffsetText u amount type rm)
  | .ldrbImm c p u w rn rd offset => transferText "LDR" c true p w rn rd (immOffsetText u offset)
  | .ldrbReg c p u w rn rd amount type rm => transferText "LDR" c true p w rn rd (regOffsetText u amount type rm)
  | .cdp c opc1 crn crd cpNum opc2 crm => coprocText "CDP" c cpNum opc1.toNat ("c" ++ Nat.repr crd.toNat) crn crm opc2
  | .mcr c opc1 crn rd cpNum opc2 crm => coprocText "MCR" c cpNum opc1.toNat (regName rd) crn crm opc2
  | .mrc c opc1 crn rd cpNum opc2 crm => coprocText "MRC" c cpNum opc1.toNat (regName rd) crn crm opc2

/-! ### What the assembler encodes (R99, R101, R102) -/

/-- An immediate as an 8-bit value rotated right by an even amount, the least rotation that gives it (log
entry 15), `none` where there is none (R99). -/
def immediateOf (v : Word) : Option Operand2 :=
  ((List.range 16).find? fun r => decide ((v.rotateLeft (2 * r)).toNat < 256)).map fun r =>
    .imm (BitVec.ofNat 4 r) ((v.rotateLeft (2 * r)).setWidth 8)

/-- The offset field of a branch to a label, `none` where it does not fit or the label is not on a word of
the branch (R101). -/
def offsetTo (address label : Word) : Option (BitVec 24) :=
  let d := (label - (address + 8)).toInt
  if d % 4 = 0 ∧ -(2 ^ 25) ≤ d ∧ d < 2 ^ 25 then some (BitVec.ofInt 24 (d / 4)) else none

/-- The offset of a PC-relative address: U and the distance from the address plus 8, where it fits 12 bits. -/
def pcRelative (address label : Word) : Option (Bool × BitVec 12) :=
  let d := (label - (address + 8)).toInt
  if d.natAbs < 4096 then some (decide (0 ≤ d), BitVec.ofNat 12 d.natAbs) else none

/-- `NOP` (R95, R102). -/
def pseudoNop : Instr := .mov .al false .r0 (.immShift 0 .lsl .r0)

/-- `LDR Rd, =const` (R102), with the constant at `pool` where neither MOV nor MVN can encode it. -/
def pseudoLoadConstant (rd : RegNum) (value address pool : Word) : Option Instr :=
  match immediateOf value, immediateOf (~~~value) with
  | some op2, _ => some (.mov .al false rd op2)
  | none, some op2 => some (.mvn .al false rd op2)
  | none, none => (pcRelative address pool).map fun d => .ldrImm .al true d.1 false .r15 rd d.2

/-- `ADR Rd, label` (R102). -/
def pseudoAdr (rd : RegNum) (address label : Word) : Option Instr :=
  let d := label - (address + 8)
  if d.msb then (immediateOf (0 - d)).map fun op2 => .sub .al false .r15 rd op2
  else (immediateOf d).map fun op2 => .add .al false .r15 rd op2

end Sys2Proof.Machine
end

