-- ==== Sys2Proof/Tests/Slice0.lean ====
section
/-! SUPPORT. Tests of the model and witnesses of the obligations' hypotheses.  Expected values are those of
spec/95_test_vectors.md (named in each docstring) or are worked out by hand from the rule named there. -/

namespace Sys2Proof.Tests

open Sys2Proof.Machine Sys2Proof.Claims

/-! ### Well-formedness: one ill-formed term for each check -/

theorem test_wf_unsupported_operand2 :
    (Instr.and .al false .r0 .r0 (.unsupported 2 0 1)).problems = [.unsupportedOperand2] := by decide

theorem test_wf_r15_in_register_shift :
    (Instr.mov .al false .r0 (.regShift .r15 .lsl .r1)).problems = [.r15InRegisterShift] ∧
    (Instr.add .al false .r1 .r15 (.regShift .r3 .lsl .r2)).wellFormed = false ∧
    (Instr.cmp .al .r15 (.regShift .r3 .lsl .r2)).wellFormed = false ∧
    (Instr.add .al false .r15 .r15 (.immShift 3 .lsl .r15)).wellFormed = true := by decide

theorem test_wf_r15_base_writeback :
    (Instr.ldrImm .al false true false .r15 .r0 4).problems = [.r15BaseWriteback] ∧
    (Instr.strImm .al true true true .r15 .r0 4).wellFormed = false ∧
    (Instr.ldrImm .al true false false .r15 .r0 4).wellFormed = true := by decide

theorem test_wf_r15_offset_register :
    (Instr.strReg .al true true false .r1 .r0 0 .lsl .r15).problems = [.r15OffsetRegister] := by decide

theorem test_wf_load_base_writeback :
    (Instr.ldrImm .al true true true .r1 .r1 4).problems = [.loadBaseWriteback] ∧
    (Instr.ldrbReg .al false true false .r1 .r1 0 .lsl .r2).wellFormed = false ∧
    (Instr.strImm .al true true true .r1 .r1 4).wellFormed = true := by decide

theorem test_wf_r15_byte_transfer :
    (Instr.ldrbImm .al true true false .r1 .r15 0).problems = [.r15ByteTransfer] ∧
    (Instr.strbImm .al true true false .r1 .r15 0).wellFormed = false ∧
    (Instr.ldrImm .al true true false .r1 .r15 0).wellFormed = true := by decide

theorem test_wf_reserved_condition :
    (Instr.b .nv 0).problems = [.reservedCondition] ∧ (Instr.cdp .nv 0 0 0 0 0 0).wellFormed = true := by decide

/-! ### Decoding: words written out from the formats R76 to R82 and the table R90 -/

/-- R76, R84, R138 to R145: cond, 00, I, opcode, S, Rn, Rd, operand2. -/
theorem test_decode_dp_first :
    decodeWord 0b11100010000000010000000011111111 = some (.and .al false .r1 .r0 (.imm 0 0xFF)) ∧
    decodeWord 0b11100010001000010000000011111111 = some (.eor .al false .r1 .r0 (.imm 0 0xFF)) ∧
    decodeWord 0b11100000010100010000000000000010 = some (.sub .al true .r1 .r0 (.immShift 0 .lsl .r2)) ∧
    decodeWord 0b11100000011100010000000010000010 = some (.rsb .al true .r1 .r0 (.immShift 1 .lsl .r2)) ∧
    decodeWord 0b11100010100000100001000000000101 = some (.add .al false .r2 .r1 (.imm 0 5)) ∧
    decodeWord 0b11100000101100010000000000000010 = some (.adc .al true .r1 .r0 (.immShift 0 .lsl .r2)) ∧
    decodeWord 0b11100000110100010000000000000010 = some (.sbc .al true .r1 .r0 (.immShift 0 .lsl .r2)) ∧
    decodeWord 0b11100010111100010000000000000000 = some (.rsc .al true .r1 .r0 (.imm 0 0)) := by decide

/-- R90, R146 to R153: the compares have S = 1 and Rd = 0, MOV and MVN have Rn = 0. -/
theorem test_decode_dp_second :
    decodeWord 0b11100011000100010000000100000010 = some (.tst .al .r1 (.imm 1 2)) ∧
    decodeWord 0b11100001001100010000000000000010 = some (.teq .al .r1 (.immShift 0 .lsl .r2)) ∧
    decodeWord 0b11100011010100010000000000000001 = some (.cmp .al .r1 (.imm 0 1)) ∧
    decodeWord 0b11100011011100010000000000000001 = some (.cmn .al .r1 (.imm 0 1)) ∧
    decodeWord 0b11100001100100010000001000100010 = some (.orr .al true .r1 .r0 (.immShift 4 .lsr .r2)) ∧
    decodeWord 0b11100001101100001111000000001110 = some (.mov .al true .r15 (.immShift 0 .lsl .r14)) ∧
    decodeWord 0b11100011110100010000000011111111 = some (.bic .al true .r1 .r0 (.imm 0 0xFF)) ∧
    decodeWord 0b11100001111100000000111111000001 = some (.mvn .al true .r0 (.immShift 31 .asr .r1)) := by decide

/-- R77: the register-shift form and the unsupported form. -/
theorem test_decode_operand2_forms :
    decodeWord 0xE0300211 = some (.eor .al true .r0 .r0 (.regShift .r2 .lsl .r1)) ∧
    decodeWord 0xE1A00271 = some (.mov .al false .r0 (.regShift .r2 .ror .r1)) ∧
    decodeWord 0xE0000291 = some (.and .al false .r0 .r0 (.unsupported 2 0 1)) := by decide

/-- R80: cond, 101, L, offset. -/
theorem test_decode_branches :
    decodeWord 0b11101010111111111111111111111110 = some (.b .al 0xFFFFFE) ∧
    decodeWord 0b11101011000000000000001111111110 = some (.bl .al 0x3FE) := by decide

/-- R78, R79: cond, 010 or 011, P, U, B, W, L, Rn, Rd, offset. -/
theorem test_decode_transfers :
    decodeWord 0b11100101001000010000000000000100 = some (.strImm .al true false true .r1 .r0 4) ∧
    decodeWord 0b11100111100000010000000000000010 = some (.strReg .al true true false .r1 .r0 0 .lsl .r2) ∧
    decodeWord 0b11100100100100010000000000000100 = some (.ldrImm .al false true false .r1 .r0 4) ∧
    decodeWord 0b11100111000100010000000100000010 = some (.ldrReg .al true false false .r1 .r0 2 .lsl .r2) ∧
    decodeWord 0b11100101110000010000000000000001 = some (.strbImm .al true true false .r1 .r0 1) ∧
    decodeWord 0b11100111111000010000000110100010 = some (.strbReg .al true true true .r1 .r0 3 .lsr .r2) ∧
    decodeWord 0b11100101110100010000000000000011 = some (.ldrbImm .al true true false .r1 .r0 3) ∧
    decodeWord 0b11100110110100010000000000000010 = some (.ldrbReg .al false true false .r1 .r0 0 .lsl .r2) := by decide

/-- R81, R82: cond, 1110, opc1, CRn, CRd or Rd, cp_num, opc2, bit 4, CRm. -/
theorem test_decode_coprocessor :
    decodeWord 0b11101110010100100011111100100100 = some (.cdp .al 5 2 3 15 1 4) ∧
    decodeWord 0b11101110000000010000111100010000 = some (.mcr .al 0 1 .r0 15 0 0) ∧
    decodeWord 0b11101110000100010000111100010000 = some (.mrc .al 0 1 .r0 15 0 0) := by decide

/-- Section 2.1: words of the NoMatch space (R91, R94). -/
theorem test_decode_no_match :
    decodeWord 0xE10F0000 = none ∧ decodeWord 0xE12FFF1E = none ∧ decodeWord 0xE1010092 = none ∧
    decodeWord 0xE8BD8000 = none ∧ decodeWord 0xEF000000 = none ∧ decodeWord 0xED900000 = none ∧
    decodeWord 0xE7F000F0 = none ∧ decodeWord 0xE1A10002 = none ∧ decodeWord 0xE1101002 = none ∧
    decodeWord 0xE1010002 = none ∧ decodeWord 0xFFFFFFFF = none := by decide

/-- R48, R97: four bytes, lowest address first; fewer are refused by name. -/
theorem test_decode_bytes :
    decode [0x05, 0x10, 0x82, 0xE2, 0x77] = .ok (.add .al false .r2 .r1 (.imm 0 5), [0x77]) ∧
    decode [0x05, 0x10, 0x82] = .error .truncated ∧ decode [0xF0, 0x00, 0xF0, 0xE7] = .error .noMatch ∧
    decodeTableWord 32 0xE2821005 = some (.add .al false .r2 .r1 (.imm 0 5)) := ⟨rfl, rfl, rfl, by decide⟩

/-! ### Bit primitives (R14, R67) and E3 -/

theorem test_bits :
    Bits.rotateRight32 0x12345678 4 = 0x81234567 ∧ Bits.rotateRight32 0x80000001 31 = 3 ∧ Bits.rotateRight32 0x12345678 0 = 0x12345678 ∧
    Bits.mask 31 = 0x7FFFFFFF ∧ Bits.popcount 0xF0F = 8 ∧ Bits.parsebin ['1', '0', '1'] = some 5 ∧ Bits.parsebin ['2'] = none ∧
    Bits.clearbit 0xFF 3 = 0xF7 ∧ Bits.setbit 0 31 true = 0x80000000 ∧ Bits.FieldMask.extract ⟨21, 4⟩ 0xE2821005 = 4 ∧
    Bits.FieldMask.replace ⟨12, 4⟩ 0xE2821005 0xF = 0xE282F005 ∧ Bits.sext (0x80#8) = 0xFFFFFF80 := by decide

/-- R15, R67: an index or a field out of range is refused where it is made. -/
theorem test_out_of_range :
    Bits.bitIndex 31 = some 31 ∧ Bits.bitIndex 32 = none ∧ Bits.FieldMask.make 8 24 = some ⟨8, 24⟩ ∧ Bits.FieldMask.make 0 32 = none ∧
    Bits.FieldMask.make 32 0 = none ∧ Bits.FieldMask.make 20 13 = none ∧ (⟨20, 13⟩ : Bits.FieldMask).wf = false ∧
    Logical.ofIndex 15 = some (.reg .r15) ∧ Logical.ofIndex 16 = some .cpsr ∧ Logical.ofIndex 17 = some .spsr ∧
    Logical.ofIndex 18 = none := by decide

/-! ### Pattern language: E1 and E2 -/

theorem test_pattern_groups :
    Pattern.candidates ⟨⟨0, 2⟩, ['P', 'U']⟩ = [⟨0, []⟩, ⟨1, ['U']⟩, ⟨2, ['P']⟩, ⟨3, ['P', 'U']⟩] ∧
    Pattern.candidates ⟨⟨0, 2⟩, ['A', 'A']⟩ = [⟨0, []⟩, ⟨3, ['A']⟩] ∧
    Pattern.candidates ⟨⟨0, 3⟩, ['1', 'P', '0']⟩ = [⟨4, []⟩, ⟨6, ['P']⟩] ∧
    Pattern.candidates ⟨⟨0, 2⟩, ['0', '0']⟩ = [⟨0, []⟩] ∧
    Pattern.matchGroup ⟨⟨4, 2⟩, ['A', 'A']⟩ 0x10 = none := by decide

/-- R64, R66, R67, R73: malformed descriptions. -/
theorem test_pattern_malformed :
    Pattern.compile "cond(4)".toList = none ∧ Pattern.compile "[]a(31)1".toList = none ∧
    Pattern.compile "a(32)".toList = none ∧ Pattern.compile "[I]I(31)".toList = none ∧
    Pattern.compile "[I".toList = none ∧ Pattern.compile "[00000000000000000000000000000000]".toList = none ∧ (Pattern.compile "[I]a(31)".toList).isSome = true := by decide

/-- E1: the field map of 0xE2821005 under the ADD pattern. -/
theorem test_pattern_add :
    scanTable 0xE2821005 = some (.add, ⟨[('I', true), ('S', false)],
      [(FieldName.cond, 14), (FieldName.rn, 2), (FieldName.rd, 1), (FieldName.operand2, 5)]⟩) := by decide

/-! ### Steps: vectors of spec/95_test_vectors.md, each one step on a small state -/

/-- The start states of section 0: pc 0x1000, SVC, I = F = 1, T = 0, the listed registers known and no other,
all four flags known with the value `nzcv`, the word at the pc. -/
def bench (regs : List (PhysReg × Word)) (nzcv : Word) (w : Nat) : State :=
  let s : State := { State.launch Config.defaults [] with
    pc := 0x1000
    cpsr := ⟨nzcv <<< 28 ||| 0xD3, BitVec.allOnes 32⟩ }
  State.withFetchWord (regs.foldl (fun s r => s.setReg r.1 ⟨r.2, true⟩) s) 32 w

/-- The same with every flag unknown. -/
def dark (regs : List (PhysReg × Word)) (w : Nat) : State :=
  { bench regs 0 w with cpsr := ⟨0xD3, 0xFF⟩ }

/-- A word of data. -/
def withData (a v : Word) (s : State) : State := { s with mem := Memory.writeWord s.mem a v }

/-- The outcome is a next state of which `f` holds. -/
def gives (o : Host.Outcome State Fault Refusal) (f : State → Bool) : Bool :=
  match o with
  | .next t => f t
  | _ => false

def faults (o : Host.Outcome State Fault Refusal) (r : Fault) : Bool :=
  match o with
  | .fault q => q == r
  | _ => false

def refuses (o : Host.Outcome State Fault Refusal) (r : Refusal) : Bool :=
  match o with
  | .refused q => q == r
  | _ => false

/-- The known value of a register word. -/
def holds (t : State) (p : PhysReg) (v : Word) : Bool := t.getReg p == ⟨v, true⟩

/-- The four flags as a number, all known. -/
def nzcvIs (t : State) (v : Word) : Bool := t.cpsr.val >>> 28 == v && t.cpsr.known >>> 28 == 0xF

theorem exists_next {o : Host.Outcome State Fault Refusal} {f : State → Bool} (h : gives o f = true) :
    ∃ t, o = .next t ∧ f t = true := by
  cases o with
  | next t => exact ⟨t, rfl, h⟩
  | fault r => cases h
  | refused r => cases h

/-- DP1. -/
theorem test_and : gives (step (bench [(.R1, 0xF0F0F0F0), (.R2, 0x0F0F0F0F)] 0b1011 0xE0110002))
    (fun t => holds t .R0 0 && nzcvIs t 0b0111 && t.pc == 0x1004) = true := by decide

/-- DP2. -/
theorem test_eor : gives (step (dark [(.R1, 0x12345678)] 0xE22100FF))
    (fun t => holds t .R0 0x12345687 && t.cpsr == ⟨0xD3, 0xFF⟩) = true := by decide

/-- DX23. -/
theorem test_eor_register_shift : gives (step (bench [(.R0, 0xFFFF0000), (.R1, 0x0000FFFF), (.R2, 0x10)] 0 0xE0300211))
    (fun t => holds t .R0 0 && nzcvIs t 0b0100) = true := by decide

/-- DP3. -/
theorem test_sub_no_borrow : gives (step (bench [(.R1, 5), (.R2, 3)] 0b1101 0xE0510002))
    (fun t => holds t .R0 2 && nzcvIs t 0b0010) = true := by decide

/-- DP4. -/
theorem test_sub_borrow : gives (step (bench [(.R1, 3), (.R2, 5)] 0b0010 0xE0510002))
    (fun t => holds t .R0 0xFFFFFFFE && nzcvIs t 0b1000) = true := by decide

/-- DP6. -/
theorem test_rsb : gives (step (dark [(.R1, 0x10), (.R2, 8)] 0xE0710082))
    (fun t => holds t .R0 0 && nzcvIs t 0b0110) = true := by decide

/-- DP7. -/
theorem test_add_wraps : gives (step (bench [(.R1, 0xFFFFFFFF), (.R2, 1)] 0 0xE0910002))
    (fun t => holds t .R0 0 && nzcvIs t 0b0110) = true := by decide

/-- DP28: the sources are read before the destination is written. -/
theorem test_add_reads_first : gives (step (dark [(.R0, 3)] 0xE0800010)) (fun t => holds t .R0 0x1B) = true := by decide

/-- DP9. -/
theorem test_adc : gives (step (bench [(.R1, 0xFFFFFFFF), (.R2, 0)] 0b0010 0xE0B10002))
    (fun t => holds t .R0 0 && nzcvIs t 0b0110) = true := by decide

/-- DP10. -/
theorem test_adc_unknown_carry : faults (step (dark [(.R1, 1), (.R2, 2)] 0xE0A10002)) (.unknownRead (.flag .c)) = true := by
  decide

/-- DP11. -/
theorem test_sbc : gives (step (bench [(.R1, 5), (.R2, 3)] 0 0xE0D10002))
    (fun t => holds t .R0 1 && nzcvIs t 0b0010) = true := by decide

/-- DP13. -/
theorem test_rsc : gives (step (bench [(.R1, 1)] 0 0xE2F10000))
    (fun t => holds t .R0 0xFFFFFFFE && nzcvIs t 0b1000) = true := by decide

/-- DP14. -/
theorem test_tst : gives (step (bench [(.R1, 0x80000000)] 0b0101 0xE3110102))
    (fun t => nzcvIs t 0b1011 && t.regs == (bench [(.R1, 0x80000000)] 0b0101 0xE3110102).regs) = true := by decide

/-- DP15: C and V stay unknown. -/
theorem test_tst_unknown_carry : gives (step (dark [(.R1, 0xF), (.R2, 0xF0)] 0xE1110002))
    (fun t => t.cpsr == ⟨0x400000D3, 0xC00000FF⟩) = true := by decide

/-- DP16. -/
theorem test_teq : gives (step (bench [(.R1, 0xAAAA5555), (.R2, 0xAAAA5555)] 0b1010 0xE1310002))
    (fun t => nzcvIs t 0b0110) = true := by decide

/-- DP18. -/
theorem test_cmp_overflow : gives (step (dark [(.R1, 0x80000000), (.R2, 1)] 0xE1510002))
    (fun t => nzcvIs t 0b0011) = true := by decide

/-- DP19. -/
theorem test_cmn : gives (step (dark [(.R1, 0xFFFFFFFF)] 0xE3710001)) (fun t => nzcvIs t 0b0110) = true := by decide

/-- DP20. -/
theorem test_orr : gives (step (bench [(.R1, 0xF0000000), (.R2, 0x1F)] 0b0100 0xE1910222))
    (fun t => holds t .R0 0xF0000001 && nzcvIs t 0b1010) = true := by decide

/-- DP22. -/
theorem test_mov_rotated : gives (step (bench [] 0b0101 0xE3B004FF))
    (fun t => holds t .R0 0xFF000000 && nzcvIs t 0b1011) = true := by decide

/-- E5d: RRX. -/
theorem test_mov_rrx : gives (step (bench [(.R1, 1)] 0b0010 0xE1B00061))
    (fun t => holds t .R0 0x80000000 && nzcvIs t 0b1010) = true := by decide

/-- DP25. -/
theorem test_bic : gives (step (bench [(.R1, 0xFF)] 0b1000 0xE3D100FF))
    (fun t => holds t .R0 0 && nzcvIs t 0b0100) = true := by decide

/-- DP27. -/
theorem test_mvn : gives (step (bench [(.R1, 0x80000000)] 0 0xE1F00FC1))
    (fun t => holds t .R0 0 && nzcvIs t 0b0100) = true := by decide

/-- BR10: the backward end of the reach. -/
theorem test_b : gives (step (dark [] 0xEA800000)) (fun t => t.pc == 0xFE001008) = true := by decide

/-- BR5. -/
theorem test_bl : gives (step (dark [] 0xEB0003FE)) (fun t => holds t .R14_svc 0x1004 && t.pc == 0x2000) = true := by decide

/-- LS16. -/
theorem test_str_imm : gives (step (dark [(.R0, 0x01020304), (.R1, 0x2008)] 0xE5210004))
    (fun t => holds t .R1 0x2004 && Memory.readByte t.mem 0x2004 == 0x04 && Memory.readWord t.mem 0x2004 == 0x01020304) = true := by
  decide

/-- LS18: STR of r15 stores pc + 12. -/
theorem test_str_imm_pc : gives (step (dark [(.R1, 0x2000)] 0xE581F000))
    (fun t => Memory.readWord t.mem 0x2000 == 0x100C) = true := by decide

/-- By R154, R155 and R159: the word stored at r1 - r2. -/
theorem test_str_reg : gives (step (dark [(.R0, 0xA5A5A5A5), (.R1, 0x2008), (.R2, 4)] 0xE7010002))
    (fun t => Memory.readWord t.mem 0x2004 == 0xA5A5A5A5 && holds t .R1 0x2008) = true := by decide

/-- LS6: a misaligned load rotates. -/
theorem test_ldr_imm : gives (step (withData 0x2000 0x11223344 (dark [(.R1, 0x2000)] 0xE5910002)))
    (fun t => holds t .R0 0x33441122 && t.events == [⟨.fetch, 0x1000, .word, 0xE5910002, false⟩, ⟨.read, 0x2000, .word, 0x11223344, false⟩]) = true := by
  decide

/-- LS8: a load of the pc. -/
theorem test_ldr_imm_pc : gives (step (withData 0x2010 0x203 (dark [(.R1, 0x2010)] 0xE591F000))) (fun t => t.pc == 0x200) = true := by
  decide

/-- LS4. -/
theorem test_ldr_reg : gives (step (withData 0x2004 0xDEADBEEF (dark [(.R1, 0x200C), (.R2, 2)] 0xE7110102)))
    (fun t => holds t .R0 0xDEADBEEF) = true := by decide

/-- LS22. -/
theorem test_strb_imm : gives (step (withData 0x2000 0x11223344 (dark [(.R0, 0x123456AB), (.R1, 0x2000)] 0xE5C10001)))
    (fun t => Memory.readWord t.mem 0x2000 == 0x1122AB44) = true := by decide

/-- By R154, R155 and R161: STRB r0, [r1, r2, LSR #3]!. -/
theorem test_strb_reg : gives (step (dark [(.R0, 0xFFFFFF7B), (.R1, 0x2000), (.R2, 0x2F)] 0xE7E101A2))
    (fun t => holds t .R1 0x2005 && Memory.readWord t.mem 0x2004 == 0x7B00) = true := by decide

/-- LS14. -/
theorem test_ldrb_imm : gives (step (withData 0x2004 0xDEADBEEF (dark [(.R1, 0x2004)] 0xE4510001)))
    (fun t => holds t .R0 0xEF && holds t .R1 0x2003) = true := by decide

/-- By R154, R155 and R160: LDRB r0, [r1], r2. -/
theorem test_ldrb_reg : gives (step (withData 0x2000 0x11223344 (dark [(.R1, 0x2003), (.R2, 0x10)] 0xE6D10002)))
    (fun t => holds t .R0 0x11 && holds t .R1 0x2013) = true := by decide

/-- CP1, CP3. -/
theorem test_cdp : refuses (step (dark [] 0xEE000000)) (.unimplemented .cdp) = true ∧
    refuses (step (dark [] 0xFE000000)) (.unimplemented .cdp) = true := by decide

/-- CP6. -/
theorem test_mcr : refuses (step (dark [] 0xEE00FE10)) (.unimplemented .mcr) = true := by decide

/-- CP5. -/
theorem test_mrc : refuses (step (dark [(.R0, 0x1234)] 0xEE110F10)) (.unimplemented .mrc) = true := by decide

/-! ### Returns, conditions, priorities, the window -/

/-- DX1: the return from SVC to USR. -/
theorem test_return : gives (step ((bench [(.R14_svc, 0x2000)] 0 0xE1B0F00E).setSpsr .svc ⟨0x80000010, BitVec.allOnes 32⟩))
    (fun t => t.cpsr == ⟨0x80000010, BitVec.allOnes 32⟩ && t.mode == .usr && t.pc == 0x2000) = true := by decide

/-- DX5, DX6, DX7. -/
theorem test_return_stops :
    faults (step (dark [(.R14_svc, 0x2000)] 0xE1B0F00E)) (.unknownRead (.spsrBit .svc 31)) = true ∧
    faults (step ((dark [(.R14_svc, 0x2000)] 0xE1B0F00E).setSpsr .svc ⟨0, BitVec.allOnes 32⟩)) (.unpredictable .invalidMode) = true ∧
    faults (step ((dark [(.R14_svc, 0x2002)] 0xE1B0F00E).setSpsr .svc ⟨0x10, BitVec.allOnes 32⟩)) (.unpredictable .misalignedPC) = true := by
  decide

/-- C10: a failed condition only advances the pc. -/
theorem test_condition_fails : gives (step (bench [(.R0, 0x11111111), (.R1, 0x22222222)] 0b0100 0x11A01000))
    (fun t => holds t .R1 0x22222222 && t.pc == 0x1004) = true := by decide

/-- C3: no short circuit; C9: condition 15. -/
theorem test_condition_stops :
    faults (step { dark [(.R0, 1)] 0xC1A00000 with cpsr := ⟨0x400000D3, 0x400000FF⟩ }) (.unknownRead (.flag .n)) = true ∧
    faults (step (bench [(.R0, 1)] 0 0xF1A00000)) .unknownCondition = true := by decide

/-- PR2, PR3, PR5, PR8. -/
theorem test_stop_priorities :
    refuses (step { dark [] 0 with pc := 0x1002, cpsr := ⟨0xF3, 0xFF⟩ }) .thumbNotModelled = true ∧
    faults (step { dark [] 0 with pc := 0x1002 }) (.unpredictable .misalignedFetch) = true ∧
    refuses (step (dark [] 0xF0000291)) .unsupportedEncoding = true ∧
    faults (step (dark [] 0xE6DFF00F)) (.unpredictable .r15BaseWriteback) = true := by decide

/-- HZ2, HZ3, HZ8. -/
theorem test_prefetch_window :
    faults (step (dark [(.R0, 1), (.R1, 0x1008)] 0xE5810000)) (.unpredictable .selfModifyPrefetch) = true ∧
    gives (step (dark [(.R0, 1), (.R1, 0x100C)] 0xE5810000)) (fun t => Memory.readWord t.mem 0x100C == 1) = true ∧
    faults (step (withData 0xFFFFFFF8 0xE5810000 { dark [(.R0, 1), (.R1, 0)] 0 with pc := 0xFFFFFFF8 }))
      (.unpredictable .selfModifyPrefetch) = true := by decide

/-- DP29 and DP30, LS19: the parameters. -/
theorem test_parameters :
    registerShift .doc .ror 0x80000021 0x30 = ⟨0, .bit true⟩ ∧ registerShift .armv4 .ror 0x80000021 0x30 = ⟨0x00218000, .bit false⟩ ∧
    StrPcOffset.eight.amount = 8 ∧ StrPcOffset.twelve.amount = 12 := by decide

/-- E6: r13 in SVC, IRQ and SVC again. -/
theorem test_mode_banking :
    let s := ((State.launch Config.defaults []).writeReg .r13 0x1000).setMode .irq
    let t := (s.writeReg .r13 0x77).setMode .svc
    t.regValue .r13 = 0x1000 ∧ (t.setMode .irq).regValue .r13 = 0x77 ∧ (t.setMode .usr).unknownWord .r13 = some .R13_usr := by
  decide

/-- R43: what the host may not do: an invalid mode, a field out of range, an unknown word, SPSR in USR. -/
theorem test_host_violations :
    hostAct State.reset (.writeField .cpsr ⟨4, 2⟩ 0) = none ∧ hostAct State.reset (.writeWord .cpsr 0x60000000) = none ∧
    hostAct State.reset (.writeField (.spsr .svc) ⟨30, 3⟩ 0) = none ∧ hostRead (State.launch Config.defaults []) (.gpr .R0) = none ∧
    hostWriteLogical (State.reset.setMode .usr) 17 0 = none ∧ hostReadLogical State.reset 18 = none := by decide

/-- R43: writes of CPSR by its name, the mode through `setMode`; of a bit of R15; and of logical r13 in IRQ. -/
theorem test_host_writes :
    (hostAct State.reset (.writeWord .cpsr 0x60000012)).any (fun t => t.cpsr == ⟨0x60000012, BitVec.allOnes 32⟩ && t.mode == .irq &&
      t.spsrSlot == .irq) = true ∧
    (hostAct State.reset (.writeField .cpsr ⟨0, 5⟩ 0x1F)).any (fun t => t.mode == .sys && t.cpsr.val == 0xDF) = true ∧
    (hostAct State.reset (.writeBit .r15 12 true)).any (fun t => t.pc == 0x1000) = true ∧
    (hostWriteLogical (State.reset.setMode .irq) 13 7).any (fun t => holds t .R13_irq 7 && holds t .R13_svc 0) = true ∧
    hostRead (State.launch Config.defaults []) .r15 = some 0 := by decide

/-- RS1 and RS2 on the launch state; the model's reset state reads r1 as 0 (log entry 1). -/
theorem test_launch_and_reset :
    gives (step ((State.launch Config.defaults []).withFetchWord 32 0xE3A00001)) (fun t => holds t .R0 1 && t.pc == 4) = true ∧
    faults (step ((State.launch Config.defaults []).withFetchWord 32 0xE1A00001)) (.unknownRead (.word .R1)) = true ∧
    gives (step (State.reset.withFetchWord 32 0xE1A00001)) (fun t => holds t .R0 0 && t.pc == 4) = true := by decide

/-- R110: a run from a launch ends at its first stop, here `NoMatch` at 4, unsuccessful; `B .` only uses up its fuel. -/
theorem test_run :
    ((Launch.mk Config.defaults (Memory.writeWord (Memory.writeWord [] 0 0xE3A00001) 4 0xE7F000F0) []).run 3).any (fun e =>
      match e with
      | .stopped t r => t.pc == 4 && holds t .R0 1 && r == .refusal .noMatch && !e.successful
      | .outOfFuel _ => false) = true ∧
    (match run 2 (dark [] 0xEAFFFFFE) with
      | .outOfFuel t => t.pc == 0x1000
      | .stopped _ _ => false) = true := by decide

/-- The reports of PR14 and of a `NoMatch` (R169, R171). -/
theorem test_reports :
    report (dark [] 0xE7F000F0) = ⟨1, none, none, none, some 0xE7F000F0⟩ ∧
    report (dark [] 0xE1A00001) = ⟨7, none, none, some (.word .R1), some 0xE1A00001⟩ := by decide

/-- The texts of section 2.1, with a zero offset written out; P1's BNE at 0x10. -/
theorem test_assembly_text :
    (decodeWord 0xE0300211).bind (instrText 0) = some "EORS r0, r0, r1, LSL r2" ∧
    (decodeWord 0xE7110102).bind (instrText 0) = some "LDR r0, [r1, -r2, LSL #2]" ∧
    (decodeWord 0xE4A10000).bind (instrText 0) = some "STRT r0, [r1], #0" ∧
    (decodeWord 0xE7910042).bind (instrText 0) = some "LDR r0, [r1, r2, ASR #32]" ∧
    (decodeWord 0xEE110F10).bind (instrText 0) = some "MRC p15, 0, r0, c1, c0, 0" ∧
    (decodeWord 0x1AFFFFFC).bind (instrText 0x10) = some "BNE 8" ∧ regOfName "lr" = some .r14 := by decide

/-- R101, R102: P1's BNE, and the pseudo-instructions. -/
theorem test_assembler :
    offsetTo 0x10 0x08 = some 0xFFFFFC ∧ offsetTo 0x1000 0x1002 = none ∧ encode pseudoNop = 0xE1A00000 ∧
    pseudoLoadConstant .r13 0x1000 0 0 = decodeWord 0xE3A0DA01 ∧ pseudoLoadConstant .r0 0xFFFFFFFF 0 0 = decodeWord 0xE3E00000 ∧
    pseudoLoadConstant .r0 0x12345678 0x1000 0x1004 = decodeWord 0xE51F0004 ∧ pseudoAdr .r0 0x1000 0x100C = decodeWord 0xE28F0004 := by
  decide

/-! ### Witnesses: for every obligation with hypotheses, operands and states that meet them together -/

/-- A state whose registers and flags are all known: pc 0x1000, SVC, Z = C = 1, r1 = 0x2000, r2 = 0x24, the given
r14 and SPSR_svc. -/
def litWith (r14 spsr : Word) : State :=
  let s := (((State.reset.setReg .R1 ⟨0x2000, true⟩).setReg .R2 ⟨0x24, true⟩).setReg .R14_svc ⟨r14, true⟩).setSpsr .svc
    ⟨spsr, BitVec.allOnes 32⟩
  { s with pc := 0x1000, cpsr := ⟨0x600000D3, BitVec.allOnes 32⟩ }

def lit : State := litWith 0x2000 0x80000010

theorem readable_of {s : State} {r : RegNum} (h : s.unknownWord r = none) : Readable s r := by
  intro p hp
  unfold State.unknownWord at h
  rw [hp] at h
  by_contra hk
  simp [hk] at h

theorem litWith_readable (a b : Word) (r : RegNum) : Readable (litWith a b) r := by
  cases r <;> exact readable_of rfl

theorem lit_readable (r : RegNum) : Readable lit r := litWith_readable _ _ r

theorem lit_carry : CarryKnown lit := by unfold CarryKnown; decide

/-- The Boolean form of `Passes`. -/
def passesNow (i : Instr) (s : State) : Bool :=
  i.wellFormed && (match conditionPassed i.cond s.cpsr with | .ok t => t | .error _ => false)

theorem passes_of {i : Instr} {s : State} (h : passesNow i s = true) : Passes i s := by
  unfold passesNow at h
  rw [Bool.and_eq_true] at h
  refine ⟨h.1, ?_⟩
  cases hc : conditionPassed i.cond s.cpsr with
  | ok t => rw [hc] at h; exact congrArg Except.ok h.2
  | error e => rw [hc] at h; cases h.2

theorem operand_readable {s : State} {op2 : Operand2} (hr : ∀ r, Readable s r) (hc : CarryKnown s)
    (hop : Operand2.problems op2 [] ≠ [.unsupportedOperand2]) : OperandReadable s op2 := by
  cases op2 with
  | imm rotate immed => trivial
  | immShift amount type rm => exact ⟨hr rm, fun _ => hc⟩
  | regShift rs type rm => exact ⟨hr rm, hr rs⟩
  | unsupported hi mid lo => exact absurd rfl hop

theorem offset_readable {s : State} (off : Offset) (hr : ∀ r, Readable s r) (hc : CarryKnown s) : OffsetReadable s off := by
  cases off with
  | imm o => trivial
  | reg amount type rm => exact ⟨hr rm, fun _ => hc⟩

theorem view_readable {s : State} {v : DpView} (hr : ∀ r, Readable s r) (hc : CarryKnown s)
    (hop : Operand2.problems v.op2 [] ≠ [.unsupportedOperand2]) : v.Readable s :=
  ⟨operand_readable hr hc hop, fun r _ => hr r, fun _ => hc⟩

theorem witness_GroupMatchesItsTemplate :
    let g : DecodeGroup := ⟨⟨23, 2⟩, ['P', 'U']⟩
    g.mask.length.val = g.template.length ∧ g.mask.wf = true ∧
    Pattern.matchGroup g 0x01000000 = some ⟨2, ['P']⟩ ∧ g.template.reverse[1]? = some 'P' ∧ Pattern.isWildcard 'P' = true ∧
    g.template.reverse[0]? = some 'U' := by decide

theorem witness_RowsMatchTheirFixedBits :
    ∃ r ∈ instructionTable, (r.matchWord 0xE2821005).isSome = true ∧ (r.matchWord 0xE3821005).isSome = false := by decide

theorem witness_TableRowsDisjoint :
    (∃ r ∈ instructionTable, ∃ r' ∈ instructionTable, r.entry ≠ r'.entry) ∧
    ∃ r ∈ instructionTable, (r.matchWord 0xEE110F10).isSome = true := by decide

theorem witness_EncodeOfDecode : decodeWord 0xE0300211 = some (.eor .al true .r0 .r0 (.regShift .r2 .lsl .r1)) := by decide

/-- A state in which only Z is known, and 1. -/
def onlyZ : State := { dark [(.R0, 1)] 0xC1A00000 with cpsr := ⟨0x400000D3, 0x400000FF⟩ }

theorem witness_ConditionTable : Cond.eq ≠ .nv ∧ (∀ f, condNames .eq f = true → onlyZ.cpsr.knowsFlag f = true) ∧
    ∀ f, condNames .gt f = true → lit.cpsr.knowsFlag f = true :=
  ⟨by decide, by intro f; cases f <;> decide, by intro f; cases f <;> decide⟩

theorem witness_UnknownFlagStopsCondition :
    let i : Instr := .mov .gt false .r0 (.immShift 0 .lsl .r0)
    i.wellFormed = true ∧ i.isCoprocessor = false ∧
    (flagOrder.filter (condNames i.cond)).find? (fun g => !onlyZ.cpsr.knowsFlag g) = some .n ∧
    (Instr.b .eq 0).wellFormed = true ∧ ∀ f ∈ flagOrder, condNames .eq f = true → onlyZ.cpsr.knowsFlag f = true := by decide

theorem witness_ReservedConditionNeverRuns :
    (Instr.b .nv 0).isCoprocessor = false ∧ (Instr.b .nv 0).cond = .nv ∧ (Instr.b .nv 0).problems = [.reservedCondition] := by
  decide

theorem witness_FailedConditionOnlyAdvances :
    (Instr.strImm .ne true true true .r1 .r0 4).wellFormed = true ∧ (Instr.strImm .ne true true true .r1 .r0 4).isCoprocessor = false ∧
    conditionPassed (Instr.strImm .ne true true true .r1 .r0 4).cond lit.cpsr = .ok false := ⟨by decide, by decide, rfl⟩

theorem witness_FieldProblemStopsEveryState :
    (Instr.and .nv false .r0 .r0 (.unsupported 2 0 1)).problems = .unsupportedOperand2 :: [.reservedCondition] ∧
    (Instr.ldrbReg .nv false true false .r15 .r15 0 .lsl .r15).problems =
      .r15BaseWriteback :: [.r15OffsetRegister, .loadBaseWriteback, .r15ByteTransfer, .reservedCondition] := by decide

theorem witness_StageSevenChecksInOrder :
    (writtenBack false false = true ∧ writtenBack true true = true ∧ writtenBack true false = false) ∧
    (Offset.rm (.reg 0 .lsl .r15) = some .r15 ∧ Offset.rm (.imm 4) ≠ some .r15) ∧
    (¬ (RegNum.r1 = .r15 ∧ writtenBack true true = true) ∧ Offset.rm (.imm 4) ≠ some .r15 ∧ writtenBack true true = true ∧ RegNum.r1 = .r1) ∧
    (¬ (writtenBack true false = true ∧ RegNum.r15 = .r15) ∧ ¬ (RegNum.r15 = .r15 ∧ writtenBack true false = true)) ∧
    ∃ v, dpView (.cmp .ne .r15 (.regShift .r3 .lsl .r2)) = some v ∧ v.op2 = .regShift .r3 .lsl .r2 ∧ v.rn = some .r15 :=
  ⟨by decide, by decide, by decide, by decide, _, rfl, rfl, rfl⟩

/-- `Starts` as a test. -/
theorem starts_of {s : State} (h : (!s.cpsr.thumb && s.pc.toNat % 4 == 0) = true) : Starts s := by
  rw [Bool.and_eq_true, Bool.not_eq_true', beq_iff_eq] at h
  exact h

theorem witness_UnsupportedOperandStops :
    Starts (dark [] 0xF0000291) ∧
    decodeWord (fetchWord (dark [] 0xF0000291)) = some (.and .nv false .r0 .r0 (.unsupported 2 0 1)) ∧
    (fetchWord (dark [] 0xF0000291)).getLsbD 25 = false ∧ (fetchWord (dark [] 0xF0000291)).getLsbD 4 = true ∧
    (fetchWord (dark [] 0xF0000291)).getLsbD 7 = true := ⟨starts_of (by decide), by decide, by decide, by decide, by decide⟩

theorem witness_CoprocessorWordsUnimplemented :
    (Starts (dark [] 0xFE000000) ∧ fetchWord (dark [] 0xFE000000) &&& 0x0F000010 = 0x0E000000) ∧
    (Starts (dark [] 0xEE00FE10) ∧ fetchWord (dark [] 0xEE00FE10) &&& 0x0F100010 = 0x0E000010) ∧
    (Starts (dark [] 0xEE110F10) ∧ fetchWord (dark [] 0xEE110F10) &&& 0x0F100010 = 0x0E100010) :=
  ⟨⟨starts_of (by decide), by decide⟩, ⟨starts_of (by decide), by decide⟩, ⟨starts_of (by decide), by decide⟩⟩

theorem witness_FirstUnknownReadStops :
    (∃ v, dpView (.adc .al true .r1 .r0 (.regShift .r3 .lsl .r2)) = some v ∧
      Passes (.adc .al true .r1 .r0 (.regShift .r3 .lsl .r2)) (dark [(.R2, 1)] 0) ∧
      v.reads.findSome? (unknownOf (dark [(.R2, 1)] 0)) = some (.word .R3)) ∧
    (Passes (ldr .al true true false .r1 .r0 (.reg 0 .ror .r2)) (dark [(.R1, 1), (.R2, 1)] 0) ∧
      (loadReads .r1 (.reg 0 .ror .r2)).findSome? (unknownOf (dark [(.R1, 1), (.R2, 1)] 0)) = some (.flag .c)) ∧
    (Passes (strb .al true true false .r1 .r0 (.imm 4)) (dark [(.R1, 1)] 0) ∧
      (storeReads .r1 .r0 (.imm 4)).findSome? (unknownOf (dark [(.R1, 1)] 0)) = some (.word .R0)) :=
  ⟨⟨_, rfl, passes_of (by decide), by decide⟩, ⟨passes_of (by decide), by decide⟩, ⟨passes_of (by decide), by decide⟩⟩

theorem witness_ImmediateShiftTable :
    Readable lit .r1 ∧ CarryKnown lit ∧ ¬ CarryKnown (dark [(.R1, 1)] 0) ∧ Readable (dark [(.R1, 1)] 0) .r1 ∧
    (1 : BitVec 5) ≠ 0 ∧ (31 : BitVec 5) ≠ 0 :=
  ⟨lit_readable _, lit_carry, by unfold CarryKnown; decide, readable_of (by decide), by decide, by decide⟩

/-- `lit` with a value in r3. -/
def litShift (rule : RorRegLarge) (v : Word) : State :=
  { lit.setReg .R3 ⟨v, true⟩ with params := { Config.defaults with rorRegLarge := rule } }

theorem litShift_readable (rule : RorRegLarge) (v : Word) (r : RegNum) : Readable (litShift rule v) r := by
  cases r <;> exact readable_of rfl

/-- The low bytes 0, 1, 31, 32 and 33, and the rotations by 0 and more under both rules. -/
theorem witness_RegisterShiftByLowByte :
    (∀ rule v, Readable (litShift rule v) .r2 ∧ Readable (litShift rule v) .r3) ∧
    (∀ rule v, (litShift rule v).regValue .r3 = v) ∧
    (0x100 % 256 = 0 ∧ 0x101 % 256 = 1 ∧ 0x1F % 256 = 31 ∧ 0x20 % 256 = 32 ∧ 0x21 % 256 = 33 ∧ 0x30 % 16 = 0 ∧ 0x24 % 16 ≠ 0 ∧
      0x20 % 32 = 0 ∧ 0x30 % 32 ≠ 0) ∧
    (litShift .doc 0x30).params.rorRegLarge = .doc ∧ (litShift .armv4 0x30).params.rorRegLarge = .armv4 :=
  ⟨fun _ _ => ⟨litShift_readable _ _ _, litShift_readable _ _ _⟩, fun _ _ => rfl, by decide, rfl, rfl⟩

theorem witness_LogicalResults :
    RegNum.r0 ≠ .r15 ∧ Readable lit .r1 ∧ OperandReadable lit (.regShift .r3 .ror .r2) ∧
    Passes (.and .eq true .r1 .r0 (.regShift .r3 .ror .r2)) lit ∧ Passes (.eor .eq true .r1 .r0 (.regShift .r3 .ror .r2)) lit ∧
    Passes (.orr .eq true .r1 .r0 (.regShift .r3 .ror .r2)) lit ∧ Passes (.bic .eq true .r1 .r0 (.regShift .r3 .ror .r2)) lit :=
  ⟨by decide, lit_readable _, operand_readable lit_readable lit_carry (by decide), passes_of (by decide), passes_of (by decide),
    passes_of (by decide), passes_of (by decide)⟩

theorem witness_MoveResults :
    RegNum.r13 ≠ .r15 ∧ OperandReadable lit (.immShift 0 .ror .r15) ∧
    Passes (.mov .al true .r13 (.immShift 0 .ror .r15)) lit ∧ Passes (.mvn .cs true .r13 (.immShift 0 .ror .r15)) lit :=
  ⟨by decide, operand_readable lit_readable lit_carry (by decide), passes_of (by decide), passes_of (by decide)⟩

theorem witness_AddSubtractResults :
    RegNum.r0 ≠ .r15 ∧ Readable lit .r15 ∧ OperandReadable lit (.immShift 31 .asr .r2) ∧
    Passes (.add .al true .r15 .r0 (.immShift 31 .asr .r2)) lit ∧ Passes (.sub .ls true .r15 .r0 (.immShift 31 .asr .r2)) lit ∧
    Passes (.rsb .le true .r15 .r0 (.immShift 31 .asr .r2)) lit :=
  ⟨by decide, lit_readable _, operand_readable lit_readable lit_carry (by decide), passes_of (by decide), passes_of (by decide),
    passes_of (by decide)⟩

theorem witness_CarryArithmeticResults :
    RegNum.r0 ≠ .r15 ∧ Readable lit .r1 ∧ OperandReadable lit (.imm 15 0xFF) ∧ CarryKnown lit ∧
    Passes (.adc .al true .r1 .r0 (.imm 15 0xFF)) lit ∧ Passes (.sbc .pl false .r1 .r0 (.imm 15 0xFF)) lit ∧
    Passes (.rsc .vc true .r1 .r0 (.imm 15 0xFF)) lit :=
  ⟨by decide, lit_readable _, operand_readable lit_readable lit_carry (by decide), lit_carry, passes_of (by decide),
    passes_of (by decide), passes_of (by decide)⟩

theorem witness_TestResults :
    Readable lit .r1 ∧ OperandReadable lit (.immShift 0 .lsr .r2) ∧ Passes (.tst .al .r1 (.immShift 0 .lsr .r2)) lit ∧
    Passes (.teq .ge .r1 (.immShift 0 .lsr .r2)) lit :=
  ⟨lit_readable _, operand_readable lit_readable lit_carry (by decide), passes_of (by decide), passes_of (by decide)⟩

theorem witness_CompareResults :
    Readable lit .r1 ∧ OperandReadable lit (.imm 0 1) ∧ Passes (.cmp .al .r1 (.imm 0 1)) lit ∧ Passes (.cmn .al .r1 (.imm 0 1)) lit :=
  ⟨lit_readable _, operand_readable lit_readable lit_carry (by decide), passes_of (by decide), passes_of (by decide)⟩

/-- Both clauses: an aligned result and one that is not. -/
theorem witness_PcDestinationWithoutS :
    (∃ v, dpView (.add .al false .r1 .r15 (.imm 0 4)) = some v ∧ v.rd = some .r15 ∧ v.sf = false ∧
      Passes (.add .al false .r1 .r15 (.imm 0 4)) lit ∧ v.Readable lit ∧ (v.result lit 4).toNat % 4 = 0) ∧
    (∃ v, dpView (.add .al false .r1 .r15 (.imm 0 1)) = some v ∧ v.rd = some .r15 ∧ v.sf = false ∧
      Passes (.add .al false .r1 .r15 (.imm 0 1)) lit ∧ v.Readable lit ∧ (v.result lit 1).toNat % 4 ≠ 0) :=
  ⟨⟨_, rfl, rfl, rfl, passes_of (by decide), view_readable lit_readable lit_carry (by decide), by decide⟩,
    ⟨_, rfl, rfl, rfl, passes_of (by decide), view_readable lit_readable lit_carry (by decide), by decide⟩⟩

/-- The three clauses: aligned with T = 0, misaligned with T = 1, misaligned with T = 0. -/
theorem witness_ReturnRestoresStatus :
    ∀ s ∈ [lit, litWith 0x2002 0x30, litWith 0x2001 0x1F], ∃ v m, dpView (.mov .al true .r15 (.immShift 0 .lsl .r14)) = some v ∧
      v.rd = some .r15 ∧ v.sf = true ∧ Passes (.mov .al true .r15 (.immShift 0 .lsl .r14)) s ∧ v.Readable s ∧
      s.mode.spsr = some .svc ∧ (∀ k ∈ restoreOrder, (s.getSpsr .svc).knows k = true) ∧ (s.getSpsr .svc).modeBits = Mode.encoding m := by
  intro s hs
  simp only [List.mem_cons, List.not_mem_nil, or_false] at hs
  rcases hs with rfl | rfl | rfl
  · exact ⟨_, .usr, rfl, rfl, rfl, passes_of (by decide), view_readable lit_readable lit_carry (by decide), rfl, by decide, by decide⟩
  · exact ⟨_, .usr, rfl, rfl, rfl, passes_of (by decide), view_readable (litWith_readable _ _) lit_carry (by decide), rfl, by decide, by decide⟩
  · exact ⟨_, .sys, rfl, rfl, rfl, passes_of (by decide), view_readable (litWith_readable _ _) lit_carry (by decide), rfl, by decide, by decide⟩

/-- A state in USR mode with r14 known, and SVC states whose SPSR is unknown or of no mode. -/
theorem witness_ReturnStopsInOrder :
    let i : Instr := .mov .al true .r15 (.imm 0 0)
    (∃ v, dpView i = some v ∧ v.rd = some .r15 ∧ v.sf = true ∧ Passes i (lit.setMode .usr) ∧ v.Readable (lit.setMode .usr) ∧
      (lit.setMode .usr).mode = .usr) ∧
    (Passes i (dark [] 0) ∧ (dark [] 0).mode.spsr = some .svc ∧
      restoreOrder.find? (fun k => !((dark [] 0).getSpsr .svc).knows k) = some 31) ∧
    ((∀ k ∈ restoreOrder, ((litWith 0 0).getSpsr .svc).knows k = true) ∧ ∀ m : Mode, ((litWith 0 0).getSpsr .svc).modeBits ≠ m.encoding) :=
  ⟨⟨_, rfl, rfl, rfl, passes_of (by decide), ⟨trivial, by simp, by simp⟩, rfl⟩, ⟨passes_of (by decide), rfl, by decide⟩, by decide,
    by intro m; cases m <;> decide⟩

/-- A post-indexed and a pre-indexed load, with and without writeback, also from a misaligned address and r15. -/
theorem witness_LoadWordResult :
    RegNum.r0 ≠ .r15 ∧ Passes (ldr .al false true true .r1 .r0 (.imm 0xFFF)) lit ∧ Readable lit .r1 ∧ OffsetReadable lit (.imm 0xFFF) ∧
    Passes (ldr .al true false false .r15 .r0 (.reg 0 .ror .r2)) lit ∧ Readable lit .r15 ∧ OffsetReadable lit (.reg 0 .ror .r2) :=
  ⟨by decide, passes_of (by decide), lit_readable _, trivial, passes_of (by decide), lit_readable _,
    offset_readable _ lit_readable lit_carry⟩

theorem witness_LoadWordIntoPc :
    Passes (ldr .al true true true .r1 .r15 (.imm 4)) lit ∧ Readable lit .r1 ∧ OffsetReadable lit (.imm 4) :=
  ⟨passes_of (by decide), lit_readable _, trivial⟩

theorem witness_LoadByteResult :
    Passes (ldrb .al false false false .r1 .r0 (.reg 0 .asr .r2)) lit ∧ Readable lit .r1 ∧ OffsetReadable lit (.reg 0 .asr .r2) :=
  ⟨passes_of (by decide), lit_readable _, offset_readable _ lit_readable lit_carry⟩

/-- The words next to the window: 0x1000 below it and 0x100C above it. -/
theorem witness_StoreWordResult :
    Memory.wf lit.mem = true ∧ Passes (str .al true false false .r15 .r0 (.imm 8)) lit ∧ Readable lit .r15 ∧ Readable lit .r0 ∧
    OffsetReadable lit (.imm 8) ∧
    (∀ k, k < 4 → ¬ InWindow lit (wordBelow (accessAt true false (lit.regValue .r15) (Offset.value lit (.imm 8))) + BitVec.ofNat 32 k)) ∧
    Passes (str .al true true false .r15 .r15 (.imm 4)) lit ∧
    (∀ k, k < 4 → ¬ InWindow lit (wordBelow (accessAt true true (lit.regValue .r15) (Offset.value lit (.imm 4))) + BitVec.ofNat 32 k)) :=
  ⟨by decide, passes_of (by decide), lit_readable _, lit_readable _, trivial, by unfold InWindow; decide, passes_of (by decide),
    by unfold InWindow; decide⟩

theorem witness_StoreByteResult :
    Memory.wf lit.mem = true ∧ Passes (strb .al true false false .r15 .r0 (.imm 5)) lit ∧ Readable lit .r15 ∧ Readable lit .r0 ∧
    OffsetReadable lit (.imm 5) ∧ ¬ InWindow lit (accessAt true false (lit.regValue .r15) (Offset.value lit (.imm 5))) :=
  ⟨by decide, passes_of (by decide), lit_readable _, lit_readable _, trivial, by unfold InWindow; decide⟩

/-- The first and the last word of the window, and its last byte. -/
theorem witness_StoreIntoPrefetchWindowStops :
    Readable lit .r15 ∧ Readable lit .r0 ∧ OffsetReadable lit (.imm 4) ∧
    Passes (str .al true false false .r15 .r0 (.imm 4)) lit ∧ Passes (str .al true true false .r15 .r0 (.imm 0)) lit ∧
    (∃ k, k < 4 ∧ InWindow lit (wordBelow (accessAt true false (lit.regValue .r15) (Offset.value lit (.imm 4))) + BitVec.ofNat 32 k)) ∧
    (∃ k, k < 4 ∧ InWindow lit (wordBelow (accessAt true true (lit.regValue .r15) (Offset.value lit (.imm 0))) + BitVec.ofNat 32 k)) ∧
    Passes (strb .al true true false .r15 .r0 (.imm 3)) lit ∧
    InWindow lit (accessAt true true (lit.regValue .r15) (Offset.value lit (.imm 3))) :=
  ⟨lit_readable _, lit_readable _, trivial, passes_of (by decide), passes_of (by decide), ⟨0, by unfold InWindow; decide⟩,
    ⟨3, by unfold InWindow; decide⟩, passes_of (by decide), by unfold InWindow; decide⟩

theorem witness_BranchTargetArithmetic : (0xFFFFFFF8#32).toNat % 4 = 0 ∧ branchTarget 0xFFFFFFF8 1 = 4 := by decide

theorem witness_BranchResults : Passes (.b .eq 0x800000) lit ∧ Passes (.bl .al 0x7FFFFF) lit :=
  ⟨passes_of (by decide), passes_of (by decide)⟩

/-- A flag-setting addition, a return, and a move of the pc without S. -/
theorem witness_DataProcessingFrame :
    (∃ v t, dpView (.adc .al true .r1 .r0 (.imm 0 1)) = some v ∧ v.rd = some .r0 ∧ exec (.adc .al true .r1 .r0 (.imm 0 1)) lit = .next t) ∧
    (∃ v t, dpView (.mov .al true .r15 (.immShift 0 .lsl .r14)) = some v ∧ v.rd = some .r15 ∧ v.sf = true ∧
      exec (.mov .al true .r15 (.immShift 0 .lsl .r14)) lit = .next t ∧ (t.mode == .usr) = true) ∧
    (∃ v t, dpView (.mov .al false .r15 (.imm 0 4)) = some v ∧ v.sf = false ∧ exec (.mov .al false .r15 (.imm 0 4)) lit = .next t ∧
      (t.pc == 4) = true) := by
  obtain ⟨t, ht, -⟩ := exists_next (o := exec (.adc .al true .r1 .r0 (.imm 0 1)) lit) (f := fun _ => true) (by decide)
  obtain ⟨u, hu, hm⟩ := exists_next (o := exec (.mov .al true .r15 (.immShift 0 .lsl .r14)) lit) (f := fun t => t.mode == .usr) (by decide)
  obtain ⟨w, hw, hp⟩ := exists_next (o := exec (.mov .al false .r15 (.imm 0 4)) lit) (f := fun t => t.pc == 4) (by decide)
  exact ⟨⟨_, t, rfl, rfl, ht⟩, ⟨_, u, rfl, rfl, rfl, hu, hm⟩, _, w, rfl, rfl, hw, hp⟩

theorem witness_CompareFrame :
    ∃ v t, dpView (.tst .al .r1 (.imm 0 1)) = some v ∧ v.rd = none ∧ v.arith = false ∧ exec (.tst .al .r1 (.imm 0 1)) lit = .next t := by
  obtain ⟨t, ht, -⟩ := exists_next (o := exec (.tst .al .r1 (.imm 0 1)) lit) (f := fun _ => true) (by decide)
  exact ⟨_, t, rfl, rfl, rfl, ht⟩

theorem witness_BranchFrame : ∃ t u, exec (.b .al 1) lit = .next t ∧ exec (.bl .al 1) lit = .next u := by
  obtain ⟨t, ht, -⟩ := exists_next (o := exec (.b .al 1) lit) (f := fun _ => true) (by decide)
  obtain ⟨u, hu, -⟩ := exists_next (o := exec (.bl .al 1) lit) (f := fun _ => true) (by decide)
  exact ⟨t, u, ht, hu⟩

theorem witness_LoadFrame :
    ∃ t u, exec (ldr .al false true false .r1 .r0 (.imm 4)) lit = .next t ∧
      exec (ldrb .al true true true .r1 .r0 (.reg 0 .lsl .r2)) lit = .next u := by
  obtain ⟨t, ht, -⟩ := exists_next (o := exec (ldr .al false true false .r1 .r0 (.imm 4)) lit) (f := fun _ => true) (by decide)
  obtain ⟨u, hu, -⟩ := exists_next (o := exec (ldrb .al true true true .r1 .r0 (.reg 0 .lsl .r2)) lit) (f := fun _ => true) (by decide)
  exact ⟨t, u, ht, hu⟩

/-- Stores to 0x2000 and 0x2024, with addresses inside and outside the stored bytes. -/
theorem witness_StoreFrame :
    ∃ t u, exec (str .al false true false .r1 .r2 (.imm 4)) lit = .next t ∧
      exec (strb .al true true true .r1 .r2 (.reg 0 .lsl .r2)) lit = .next u ∧
      lit.readReg .r1 = .ok 0x2000 ∧ Offset.read lit (.imm 4) = .ok 4 ∧ Offset.read lit (.reg 0 .lsl .r2) = .ok 0x24 ∧
      4 ≤ (0x2004#32 - Bits.align4 (effectiveAddress false true false 0x2000 4).ea).toNat ∧
      0x2025#32 ≠ (effectiveAddress true true true 0x2000 0x24).ea := by
  obtain ⟨t, ht, -⟩ := exists_next (o := exec (str .al false true false .r1 .r2 (.imm 4)) lit) (f := fun _ => true) (by decide)
  obtain ⟨u, hu, -⟩ := exists_next (o := exec (strb .al true true true .r1 .r2 (.reg 0 .lsl .r2)) lit) (f := fun _ => true) (by decide)
  exact ⟨t, u, ht, hu, rfl, rfl, rfl, by decide, by decide⟩

theorem witness_BankMapping :
    bankReg .r13 .usr = bankReg .r13 .sys ∧ bankReg .r8 .fiq ≠ bankReg .r8 .usr ∧ Mode.spsr .svc = some .svc ∧
    bankReg .r14 .irq = some .R14_irq := by decide

theorem witness_LogicalReadsAndWrites :
    bankReg .r13 lit.mode = some .R13_svc ∧ (lit.getReg .R13_svc).known = true ∧ ((dark [] 0).getReg .R13_svc).known = false ∧
    bankReg .r13 (dark [] 0).mode = some .R13_svc := by decide

theorem witness_WordReadAfterWrite :
    Memory.wf [(0, 1), (0xFFFFFFFF, 2)] = true ∧ 4 ≤ (2#32 - 0xFFFFFFFE#32).toNat := by decide

theorem witness_StepRunsDecodedInstruction :
    Starts (dark [] 0xE3A00001) ∧
    decodeWord (Memory.readWord (dark [] 0xE3A00001).mem (dark [] 0xE3A00001).pc) = some (.mov .al false .r0 (.imm 0 1)) :=
  ⟨starts_of (by decide), by decide⟩

/-- T = 1; pc 1 and 3 above a multiple of 4; a word of the NoMatch space. -/
theorem witness_StepStopsBeforeExecution :
    (dark [] 0).cpsr.thumb = false ∧
    ({ dark [] 0 with cpsr := ⟨0xF3, 0xFF⟩ } : State).cpsr.thumb = true ∧
    ({ dark [] 0 with pc := 0x1001 } : State).pc.toNat % 4 ≠ 0 ∧ ({ dark [] 0 with pc := 0x1003 } : State).pc.toNat % 4 ≠ 0 ∧
    Starts (dark [] 0xE7F000F0) ∧
    ∀ r ∈ instructionTable, fetchWord (dark [] 0xE7F000F0) &&& r.entry.fixedBits.1 ≠ r.entry.fixedBits.2 :=
  ⟨by decide, by decide, by decide, by decide, starts_of (by decide), by decide⟩

theorem witness_HandledExactlyWhenDone : handled (dark [] 0xE3A00001) = true ∧ handled (dark [] 0xE7F000F0) = false := by decide

theorem witness_StepRecordsItsAccesses :
    ∃ t, step (dark [(.R0, 7), (.R1, 0x2000)] 0xE5810000) = .next t ∧
      (t.mem != (dark [(.R0, 7), (.R1, 0x2000)] 0xE5810000).mem && t.events.length == 2) = true :=
  exists_next (by decide)

/-- Bits 27 and 6 differ. -/
theorem witness_StorageBitsAreNotRead : AgreeOutsideStorage ⟨0x68000093, BitVec.allOnes 32⟩ lit.cpsr := by
  unfold AgreeOutsideStorage
  decide

theorem witness_HiddenRegistersAreInert : Hidden .svc .R13_usr ∧ Hidden .usr .R8_fiq := by
  constructor <;> intro r <;> cases r <;> decide

theorem witness_OnlyReturnChangesMode :
    ∃ t, step (lit.withFetchWord 32 0xE1B0F00E) = .next t ∧ (t.mode != lit.mode && (t.cpsr.bit 7 != lit.cpsr.bit 7)) = true :=
  exists_next (by decide)

theorem witness_StepsKeepSavedStatus :
    ∃ t, step (lit.withFetchWord 32 0xE5910004) = .next t ∧
      ((decodeWord (fetchWord (lit.withFetchWord 32 0xE5910004)) == some (.ldrImm .al true true false .r1 .r0 4)) &&
        !(Instr.ldrImm .al true true false .r1 .r0 4).isStore) = true :=
  exists_next (f := fun _ => _) (by decide)

theorem lit_inv : (lit.withFetchWord 32 0xE5810004).Inv where
  mem := by decide
  regs := by intro p; cases p <;> decide
  cpsr := by decide
  spsrs := by intro k; cases k <;> decide
  mirror := by decide
  modeKnown := by decide
  controlKnown := by decide
  aligned := by decide
  slot := by intro k hk; cases k <;> first | rfl | exact absurd hk (by decide)

theorem witness_StepKeepsInvariant :
    (lit.withFetchWord 32 0xE5810004).Inv ∧ ∃ t, step (lit.withFetchWord 32 0xE5810004) = .next t ∧ true = true :=
  ⟨lit_inv, exists_next (f := fun _ => true) (by decide)⟩

theorem witness_LaunchMeetsInvariant :
    (0xFFFFFFFC#32).toNat % 4 = 0 ∧ Memory.wf [(0xFFFFFFFC, 0x0F), (0xFFFFFFFD, 0xF0)] = true := by decide

theorem witness_LaunchState : lit.params = Config.defaults ∧ (withData 0x2000 1 lit).mem = [(0x2000, 1)] := by decide

end Sys2Proof.Tests
end

section
/-! Register operands: the remaining rules of `readReg` and `writeReg`, and the obligation assembled from them. -/

namespace Sys2Proof.Machine

/-- A register operand whose bank's word is unknown stops the read (R41). -/
theorem State.readReg_of_unknown {s : State} {r : RegNum} {p : PhysReg} (h : bankReg r s.mode = some p)
    (hk : (s.getReg p).known = false) : s.readReg r = .error (.fault (.unknownRead (.word p))) := by
  simp [State.readReg, State.unknownWord, h, hk]

/-- A write of a banked register reads back as the value written (R25). -/
theorem State.readReg_writeReg_same {s : State} {r : RegNum} {p : PhysReg} (h : bankReg r s.mode = some p) (v : Word) :
    (s.writeReg r v).readReg r = .ok v := by
  have hw : (s.writeReg r v).getReg p = ⟨v, true⟩ := by rw [State.getReg_writeReg, if_pos h]
  have hb : bankReg r (s.writeReg r v).mode = some p := by rw [State.writeReg_mode, h]
  rw [State.readReg_of_bank hb (by rw [hw]), hw]

/-- The frame of a write of a banked register: the general words are the only part of the state that changes. -/
theorem State.writeReg_eq_with_regs {s : State} {r : RegNum} {p : PhysReg} (h : bankReg r s.mode = some p) (v : Word) :
    s.writeReg r v = { s with regs := (s.writeReg r v).regs } := by
  rw [State.writeReg_of_bank h]; rfl

/-- Settles O46, from the rules of `readReg` and `writeReg`: one case for r15, the others by the word of the bank. -/
theorem logicalReadsAndWrites : Obligations.LogicalReadsAndWrites := by
  intro s v
  refine ⟨State.readReg_r15 s, State.writeReg_r15 s v, fun r p hp => ?_⟩
  refine ⟨State.readReg_of_bank hp, State.readReg_of_unknown hp, State.readReg_writeReg_same hp v,
    State.writeReg_eq_with_regs hp v, fun q => ?_⟩
  have hq : (bankReg r s.mode = some q) ↔ q = p := by rw [hp, Option.some_inj, eq_comm]
  simp only [State.getReg_writeReg, hq]

end Sys2Proof.Machine
end

section
/-! The invariant of the core under each update of the state, under every instruction and under the step; and
what no instruction changes. -/

namespace Sys2Proof.Machine

open Sys2Proof.Claims

/-! ### The invariant under the updates -/

/-- A new pc keeps the invariant where it is aligned in ARM state (R30). -/
theorem State.Inv.setPc {s : State} (h : s.Inv) {v : Word} (hv : s.cpsr.thumb = false → Bits.low2 v = 0) : (s.setPc v).Inv :=
  { h with aligned := hv }

theorem State.Inv.record {s : State} (h : s.Inv) (e : MemEvent) : (s.record e).Inv := { h with }

theorem State.Inv.fetched {s : State} (h : s.Inv) : s.fetched.Inv := { h with }

theorem State.Inv.withMem {s : State} (h : s.Inv) {m : Memory} (hm : Memory.wf m = true) : ({ s with mem := m } : State).Inv :=
  { h with mem := hm }

/-- A write of a register other than r15 keeps the invariant: the word written is known. -/
theorem State.Inv.writeReg {s : State} (h : s.Inv) {r : RegNum} (hr : r ≠ .r15) (v : Word) : (s.writeReg r v).Inv where
  mem := by simpa using h.mem
  regs p := by
    rw [State.getReg_writeReg]
    split
    · rfl
    · exact h.regs p
  cpsr := by simpa using h.cpsr
  spsrs := by simpa using h.spsrs
  mirror := by simpa using h.mirror
  modeKnown := by simpa using h.modeKnown
  controlKnown := by simpa using h.controlKnown
  aligned := by simpa [hr] using h.aligned
  slot := by simpa using h.slot

theorem State.Inv.writeBack {s : State} (h : s.Inv) {rn : RegNum} {a : Address} (hn : a.wb = true → rn ≠ .r15) :
    (s.writeBack rn a).Inv := by
  unfold State.writeBack
  split
  · exact h.writeReg (hn ‹_›) a.addr
  · exact h

/-- Writing the flags keeps the invariant: it reaches no bit of CPSR below 28 (R31). -/
theorem State.Inv.setFlags {s : State} (h : s.Inv) (o : AluOut) (c : ShiftCarry) : (s.setFlags o c).Inv :=
  { h with
    cpsr := Psr.wf_setFlags h.cpsr o c
    mirror := (Psr.modeBits_setFlags _ o c).trans h.mirror
    modeKnown := fun i hi => Psr.knows_setFlags (h.modeKnown i hi) o c
    controlKnown := h.controlKnown.imp (Psr.knows_setFlags · o c) (And.imp (Psr.knows_setFlags · o c) (Psr.knows_setFlags · o c))
    aligned := fun ht => h.aligned ((Psr.thumb_setFlags _ o c).symm.trans ht) }

/-- A restore keeps the invariant at an aligned pc: it succeeds only on an SPSR whose T, F, I and M are known and
whose M encodes a mode (R38). -/
theorem State.Inv.restoreCpsr {s u : State} (h : s.Inv) (ha : Bits.low2 s.pc = 0) (hu : s.restoreCpsr = .ok u) : u.Inv := by
  obtain ⟨b, m, _, hk, hm, rfl⟩ := State.restoreCpsr_ok hu
  exact
    { h with
      cpsr := h.spsrs b
      mirror := hm
      modeKnown := fun i hi => hk i (by revert i; decide)
      controlKnown := ⟨hk _ (by decide), hk _ (by decide), hk _ (by decide)⟩
      aligned := fun _ => ha
      slot := fun c hc => by simp [hc] }

/-! ### The invariant under the instructions and the step -/

/-- Every instruction that completes keeps the invariant at an aligned pc. -/
theorem Effect.inv {i : Instr} {s t : State} (e : Effect i s t) (h : s.Inv) (ha : Bits.low2 s.pc = 0) : t.Inv := by
  have hnext : Bits.low2 s.nextPc = 0 := low2_add_of_low2_zero ha (by decide)
  cases e with
  | advance => exact h.setPc fun _ => hnext
  | dest rd v hrd => exact (h.writeReg hrd v).setPc fun _ => hnext
  | destFlags rd o sc hrd _ => exact ((h.writeReg hrd _).setFlags o sc).setPc fun _ => hnext
  | flags o sc _ => exact (h.setFlags o sc).setPc fun _ => hnext
  | jump v hv => exact h.setPc fun _ => hv ha
  | link v hv => exact (h.writeReg (by decide) _).setPc fun _ => hv ha
  | ret u v _ hu hv => exact (h.restoreCpsr ha hu).setPc hv
  | loadPc e rn a v _ _ hn hv => exact ((h.record e).writeBack hn).setPc fun _ => hv
  | load e rn a rd v _ _ hn hrd => exact (((h.record e).writeBack hn).writeReg hrd v).setPc fun _ => hnext
  | store m e rn a _ _ hn hm => exact (((h.withMem (hm h.mem)).record e).writeBack hn).setPc fun _ => hnext

/-- Settles O57, from the shapes of an instruction's next state: a step fetches, at an aligned pc, and then runs one
instruction. -/
theorem stepKeepsInvariant : Obligations.StepKeepsInvariant := by
  intro s t h hs
  obtain ⟨_, ha, i, _, he⟩ := step_next hs
  exact (exec_effect he).inv h.fetched ha

/-! ### What no instruction changes -/

/-- No instruction writes an SPSR (R37). -/
theorem Effect.spsrs {i : Instr} {s t : State} (e : Effect i s t) : t.spsrs = s.spsrs := by
  cases e with
  | ret u v _ hu _ =>
    obtain ⟨_, _, _, _, _, rfl⟩ := State.restoreCpsr_ok hu
    rfl
  | _ => simp

/-- No instruction changes a parameter (R8). -/
theorem Effect.params {i : Instr} {s t : State} (e : Effect i s t) : t.params = s.params := by
  cases e with
  | ret u v _ hu _ =>
    obtain ⟨_, _, _, _, _, rfl⟩ := State.restoreCpsr_ok hu
    rfl
  | _ => simp

/-- Only a store writes memory (R47). -/
theorem Effect.mem {i : Instr} {s t : State} (e : Effect i s t) (hi : i.isStore = false) : t.mem = s.mem := by
  cases e with
  | ret u v _ hu _ =>
    obtain ⟨_, _, _, _, _, rfl⟩ := State.restoreCpsr_ok hu
    rfl
  | store m e rn a hst _ _ _ => simp [hst] at hi
  | _ => simp

/-- Settles O56, from the shapes of an instruction's next state. -/
theorem stepsKeepSavedStatus : Obligations.StepsKeepSavedStatus := by
  intro s t hs
  obtain ⟨_, _, i, hd, he⟩ := step_next hs
  have e := exec_effect he
  refine ⟨e.spsrs, e.params, fun j hj hst => ?_⟩
  obtain rfl : i = j := Option.some.inj (hd.symm.trans hj)
  exact e.mem hst

/-- An instruction that is no return keeps the mode and CPSR below bit 28 (R31, R32). -/
theorem Effect.mode_and_control {i : Instr} {s t : State} (e : Effect i s t) (hi : i.isReturn = false) :
    t.mode = s.mode ∧ ∀ k, k < 28 → t.cpsr.bit k = s.cpsr.bit k ∧ t.cpsr.knows k = s.cpsr.knows k := by
  cases e with
  | ret u v hret _ _ => simp [hret] at hi
  | destFlags rd o sc _ _ => exact ⟨by simp, fun k hk => by simp [Psr.bit_setFlags_low, Psr.knows_setFlags_low, hk]⟩
  | flags o sc _ => exact ⟨rfl, fun k hk => ⟨Psr.bit_setFlags_low _ o sc hk, Psr.knows_setFlags_low _ o sc hk⟩⟩
  | _ => simp

/-- A return is a data-processing instruction with S = 1 and Rd = r15 (R179). -/
theorem dpView_of_isReturn {i : Instr} (h : i.isReturn = true) : ∃ v, dpView i = some v ∧ v.sf = true ∧ v.rd = some .r15 := by
  cases i <;> simp_all [Instr.isReturn, dpView]

/-- Settles O55: where the mode or the low part of CPSR has changed, the instruction is a return. -/
theorem onlyReturnChangesMode : Obligations.OnlyReturnChangesMode := by
  intro s t hs hchanged
  obtain ⟨_, _, i, hd, he⟩ := step_next hs
  cases hret : i.isReturn with
  | true =>
    obtain ⟨v, hv⟩ := dpView_of_isReturn hret
    exact ⟨i, v, hd, hv⟩
  | false =>
    obtain ⟨hmode, hlow⟩ := (exec_effect he).mode_and_control hret
    rcases hchanged with hne | ⟨k, hk, hne | hne⟩
    · exact absurd hmode hne
    · exact absurd (hlow k hk).1 hne
    · exact absurd (hlow k hk).2 hne

end Sys2Proof.Machine
end

section
/-! The banks, the mode switch, and the launch and reset states. -/

namespace Sys2Proof.Machine

open Sys2Proof.Claims

/-! ### Banking (R24) -/

/-- The register number whose word a physical word is, in whatever mode it is banked for (R23). -/
def PhysReg.number : PhysReg → RegNum
  | .R0 => .r0 | .R1 => .r1 | .R2 => .r2 | .R3 => .r3 | .R4 => .r4 | .R5 => .r5 | .R6 => .r6 | .R7 => .r7
  | .R8_usr | .R8_fiq => .r8
  | .R9_usr | .R9_fiq => .r9
  | .R10_usr | .R10_fiq => .r10
  | .R11_usr | .R11_fiq => .r11
  | .R12_usr | .R12_fiq => .r12
  | .R13_usr | .R13_fiq | .R13_irq | .R13_svc | .R13_abt | .R13_und => .r13
  | .R14_usr | .R14_fiq | .R14_irq | .R14_svc | .R14_abt | .R14_und => .r14

theorem number_of_bankReg {r : RegNum} {m : Mode} {p : PhysReg} (h : bankReg r m = some p) : p.number = r := by
  cases r <;> cases h <;> cases m <;> rfl

/-- No two register numbers share a word. -/
theorem bankReg_injective {r r' : RegNum} {m m' : Mode} (hr : r ≠ .r15) (h : bankReg r m = bankReg r' m') : r = r' := by
  obtain ⟨p, hp⟩ := bankReg_some hr m
  rw [← number_of_bankReg hp, number_of_bankReg (h ▸ hp)]

/-- Of the words banked by mode, only USR and SYS share one. -/
theorem modeBanked_injective {usr fiq irq svc abt und : PhysReg} (hd : [usr, fiq, irq, svc, abt, und].Nodup) {m m' : Mode}
    (h : modeBanked usr fiq irq svc abt und m = modeBanked usr fiq irq svc abt und m') :
    m = m' ∨ (m = .usr ∨ m = .sys) ∧ (m' = .usr ∨ m' = .sys) := by
  cases m <;> cases m' <;> simp_all [modeBanked]

/-- The mode whose saved status register it is (R37). -/
def SpsrBank.mode : SpsrBank → Mode
  | .fiq => .fiq | .irq => .irq | .svc => .svc | .abt => .abt | .und => .und

theorem mode_of_spsr {m : Mode} {b : SpsrBank} (h : m.spsr = some b) : b.mode = m := by
  cases m <;> cases h <;> rfl

/-- Settles O45: the table of R24 entry by entry, then what it keeps apart. -/
theorem bankMapping : Obligations.BankMapping := by
  refine ⟨fun m => ⟨rfl, rfl⟩, ?_, ?_, ?_, ?_, fun r r' m m' => bankReg_injective, ?_, ?_⟩
  · intro e he m
    fin_cases he <;> rfl
  · intro e he m
    fin_cases he <;> cases m <;> rfl
  · decide
  · decide
  · rintro r m m' (rfl | rfl) h <;> exact modeBanked_injective (by decide) (Option.some.inj h)
  · intro m m' b h h'
    rw [← mode_of_spsr h, mode_of_spsr h']

/-! ### The mode switch (R35) -/

/-- No value moves between words: after a switch there and back, every register operand reads as before (R25). -/
theorem State.readReg_setMode_back (s : State) (m : Mode) (r : RegNum) :
    ((s.setMode m).setMode s.mode).readReg r = s.readReg r := rfl

/-- Settles O47, from the rules of `setMode` on the mode field and the rest of CPSR. -/
theorem modeSwitchCopiesNothing : Obligations.ModeSwitchCopiesNothing := by
  intro s m
  exact ⟨rfl, Psr.modeBits_setMode _ m, fun k hk => Psr.knows_setMode_mode _ m hk,
    fun k hk => ⟨Psr.bit_setMode_high _ m hk, Psr.knows_setMode_high _ m hk⟩, rfl, rfl, rfl, rfl,
    fun b hb => by simp [hb], fun hb => by simp [hb], State.readReg_setMode_back s m⟩

/-! ### Launch and reset (R42, R183) -/

@[simp] theorem State.launch_getReg (params : Params) (mem : Memory) (p : PhysReg) :
    (State.launch params mem).getReg p = ⟨0, false⟩ := by simp [State.getReg, State.launch]

@[simp] theorem State.launch_getSpsr (params : Params) (mem : Memory) (b : SpsrBank) :
    (State.launch params mem).getSpsr b = ⟨0, 0⟩ := by simp [State.getSpsr, State.launch]

/-- CPSR at launch: M is SVC's encoding, I = F = 1 and T = 0 (R42). -/
theorem State.launch_cpsr (params : Params) (mem : Memory) : (State.launch params mem).cpsr = ⟨0x000000D3#32, 0x000000FF#32⟩ := rfl

/-- The bits of CPSR known at launch are 7 to 0. -/
theorem State.launch_knows (params : Params) (mem : Memory) (k : Fin 32) :
    (State.launch params mem).cpsr.knows k = true ↔ k < 8 := by
  rw [State.launch_cpsr]
  revert k
  decide

/-- The launch state meets the invariant. -/
theorem State.launch_inv {params : Params} {mem : Memory} (ha : params.resetPc.toNat % 4 = 0) (hm : Memory.wf mem = true) :
    (State.launch params mem).Inv where
  mem := hm
  regs p := by rw [State.launch_getReg]; rfl
  cpsr := by rw [State.launch_cpsr]; decide
  spsrs b := by rw [State.launch_getSpsr]; decide
  mirror := by rw [State.launch_cpsr]; rfl
  modeKnown i hi := (State.launch_knows params mem i).mpr (Fin.lt_trans hi (by decide))
  controlKnown := by simp only [State.launch_knows]; decide
  aligned _ := low2_eq_zero_iff.mpr ha
  slot b hb := Option.some.inj hb

/-- The model's reset state meets the invariant: every word and bit is 0 and known. -/
theorem State.reset_inv : State.reset.Inv where
  mem := rfl
  regs p := by rw [Reg.wf, State.allKnown_reset.regs p]; rfl
  cpsr := by decide
  spsrs b := Psr.wf_iff.mpr fun i _ => State.allKnown_reset.spsrs b i
  mirror := by decide
  modeKnown i _ := State.allKnown_reset.cpsr i
  controlKnown := ⟨State.allKnown_reset.cpsr _, State.allKnown_reset.cpsr _, State.allKnown_reset.cpsr _⟩
  aligned _ := by decide
  slot b hb := Option.some.inj hb

/-- Settles O58. -/
theorem launchMeetsInvariant : Obligations.LaunchMeetsInvariant :=
  ⟨fun _ _ => State.launch_inv, State.reset_inv⟩

/-- Settles O59, from the register words and status bits of the launch state; a host reset is the launch state by
definition. -/
theorem launchState : Obligations.LaunchState := by
  intro params mem
  refine ⟨rfl, rfl, ?_, ?_, ?_, ?_, State.launch_knows params mem, fun p => ?_, fun b k => ?_, rfl, rfl, rfl, ?_⟩
  · rw [State.launch_cpsr]; decide
  · rw [State.launch_cpsr]; decide
  · rw [State.launch_cpsr]; decide
  · rw [State.launch_cpsr]; decide
  · rw [State.launch_getReg]
  · rw [State.launch_getSpsr]; revert k; decide
  · rintro t rfl rfl
    rfl

/-- Settles O60, by running the host's 36 writes. -/
theorem resetIsHostPreparedLaunch : Obligations.ResetIsHostPreparedLaunch := by
  exact ⟨rfl, by decide⟩

end Sys2Proof.Machine
end

section
/-! The stops of a step before execution: what a matched row fixes of the word, so that a word with no row's fixed
bits decodes to nothing. -/

namespace Sys2Proof.Machine

/-- The bits that the groups without wildcards fix, and their values: such a group has one candidate (R70). -/
def literalBits : List DecodeGroup → Word × Word
  | [] => (0, 0)
  | g :: gs =>
    match Pattern.candidates g with
    | [c] => (fieldBits g.mask ||| (literalBits gs).1, (BitVec.ofNat 32 c.value <<< g.mask.position.val) ||| (literalBits gs).2)
    | _ => literalBits gs

/-- A field's value put back at its place is the word cut to the field's bits (R67). -/
theorem extract_shiftLeft (m : Bits.FieldMask) (w : Word) : m.extract w <<< m.position.val = w &&& fieldBits m := by
  apply BitVec.eq_of_getLsbD_eq
  intro i hi
  by_cases h : i < m.position.val
  · simp [fieldBits, h]
  · have e : m.position.val + (i - m.position.val) = i := by omega
    simp [fieldBits, Bits.FieldMask.extract, hi, h, e]

/-- Where all groups match, the word has the literal bits (R71). -/
theorem and_literalBits_of_matchGroups {gs : List DecodeGroup} {w : Word} {flags : List Char}
    (h : Pattern.matchGroups gs w = some flags) : w &&& (literalBits gs).1 = (literalBits gs).2 := by
  induction gs generalizing flags with
  | nil => simp [literalBits]
  | cons g gs ih =>
    rw [Pattern.matchGroups] at h
    cases hg : Pattern.matchGroup g w with
    | none => simp [hg] at h
    | some c =>
      simp only [hg, Option.map_eq_some_iff] at h
      obtain ⟨rest, hrest, -⟩ := h
      obtain ⟨hmem, hvalue⟩ := matchGroup_some hg
      unfold literalBits
      split
      · rename_i c' hc'
        obtain rfl : c = c' := by simpa [hc'] using hmem
        have hput : BitVec.ofNat 32 c.value <<< g.mask.position.val = w &&& fieldBits g.mask := by
          rw [hvalue, BitVec.ofNat_toNat, BitVec.setWidth_eq, extract_shiftLeft]
        rw [hput, ← ih hrest, BitVec.and_or_distrib_left]
      · exact ih hrest

/-- The literal bits of a row's pattern are those that the opcode table states for its entry. -/
theorem literalBits_eq_fixedBits : ∀ r ∈ instructionTable, literalBits r.pattern.groups = r.entry.fixedBits := by
  decide

/-- A word that a row matches has the row's fixed bits. -/
theorem and_fixedBits_of_matchWord {r : TableRow} (hr : r ∈ instructionTable) {w : Word} {f : FieldMap}
    (h : r.matchWord w = some f) : w &&& r.entry.fixedBits.1 = r.entry.fixedBits.2 := by
  obtain ⟨flags, hflags, -⟩ := Option.map_eq_some_iff.mp h
  rw [← literalBits_eq_fixedBits r hr]
  exact and_literalBits_of_matchGroups hflags

/-- A word with the fixed bits of no row is not decoded (R91). -/
theorem decodeWord_eq_none_of_fixedBits {w : Word}
    (h : ∀ r ∈ instructionTable, w &&& r.entry.fixedBits.1 ≠ r.entry.fixedBits.2) : decodeWord w = none := by
  rw [decodeWord_none]
  intro r hr
  by_contra hm
  obtain ⟨f, hf⟩ := Option.ne_none_iff_exists'.mp hm
  exact h r hr (and_fixedBits_of_matchWord hr hf)

/-- Settles O50, from stages 1 to 4 of the step and the fixed bits of a matched row. -/
theorem stepStopsBeforeExecution : Obligations.StepStopsBeforeExecution := by
  intro s
  refine ⟨fun ht => ?_, fun ht hp => ?_, fun ⟨ht, hp⟩ hw => ?_⟩
  · rw [step, if_pos ht]
  · have hl : Bits.low2 s.pc ≠ 0 := fun e => hp (low2_eq_zero_iff.mp e)
    rw [step, ht, if_neg Bool.false_ne_true, if_pos hl]
  · have hl : ¬ Bits.low2 s.pc ≠ 0 := not_not.mpr (low2_eq_zero_iff.mpr hp)
    rw [step, ht, if_neg Bool.false_ne_true, if_neg hl, decodeWord_eq_none_of_fixedBits hw]

end Sys2Proof.Machine
end

section
/-! The sixteen data-processing instructions and the eight transfers as one body each, and the reads of an
instruction in order: where one is unknown, the first such read is what stops it (R175). -/

namespace Sys2Proof.Machine

open Sys2Proof.Claims

/-! ### Data processing: one body for the sixteen -/

/-- What an instruction computes from Rn, the shifter operand and C. -/
def dpAlu : Instr → Word → Word → Bool → AluOut
  | .and _ _ _ _ _, a, b, _ => logical (a &&& b)
  | .eor _ _ _ _ _, a, b, _ => logical (a ^^^ b)
  | .sub _ _ _ _ _, a, b, _ => subWithCarry a b true
  | .rsb _ _ _ _ _, a, b, _ => subWithCarry b a true
  | .add _ _ _ _ _, a, b, _ => addWithCarry a b false
  | .adc _ _ _ _ _, a, b, c => addWithCarry a b c
  | .sbc _ _ _ _ _, a, b, c => subWithCarry a b c
  | .rsc _ _ _ _ _, a, b, c => subWithCarry b a c
  | .tst _ _ _, a, b, _ => logical (a &&& b)
  | .teq _ _ _, a, b, _ => logical (a ^^^ b)
  | .cmp _ _ _, a, b, _ => subWithCarry a b true
  | .cmn _ _ _, a, b, _ => addWithCarry a b false
  | .orr _ _ _ _ _, a, b, _ => logical (a ||| b)
  | .mov _ _ _ _, _, b, _ => logical b
  | .bic _ _ _ _ _, a, b, _ => logical (a &&& ~~~b)
  | .mvn _ _ _ _, _, b, _ => logical (~~~b)
  | _, _, _, _ => logical 0

/-- The read of Rn, of nothing for MOV and MVN. -/
def dpReadRn (v : DpView) (s : State) : Except Stop Word :=
  match v.rn with
  | some r => s.readReg r
  | none => .ok 0

/-- The read of C as carry-in, where the instruction has one. -/
def dpReadC (v : DpView) (s : State) : Except Stop Bool := if v.carryIn then s.readFlag .c else .ok (s.cpsr.flag .c)

/-- The writes of R133: to Rd and, with S = 1, the flags; of a compare, to the flags. -/
def dpFinish (v : DpView) (out : AluOut) (sc : ShiftCarry) (s : State) : Except Stop State :=
  match v.rd with
  | some rd => dpWrite v.sf rd out sc s
  | none => .ok ((s.setFlags out sc).setPc s.nextPc)

/-- R133 over the fields of a data-processing instruction, its reads in the order of R175. -/
def dpBody (v : DpView) (alu : Word → Word → Bool → AluOut) (s : State) : Except Stop State := do
  let sh ← shifter v.op2 s
  let a ← dpReadRn v s
  let c ← dpReadC v s
  dpFinish v (alu a sh.operand c) sh.carry s

theorem addWithCarry_result (a b : Word) (c : Bool) : (addWithCarry a b c).result = a + b + carry c := by
  apply BitVec.eq_of_toNat_eq
  cases c <;> simp [addWithCarry, carry, BitVec.toNat_add]

theorem subWithCarry_result (a b : Word) (c : Bool) : (subWithCarry a b c).result = a - b - borrow c := by
  rw [subWithCarry, addWithCarry_result]
  cases c <;> simp only [carry, borrow, if_true, if_false, Bool.false_eq_true] <;> bv_omega

/-- The result is the value that the claims name. -/
theorem dpAlu_result {i : Instr} {v : DpView} (h : dpView i = some v) (a b : Word) (c : Bool) :
    (dpAlu i a b c).result = v.value a b c := by
  cases i <;> cases h
  case sub | rsb | sbc | rsc | cmp => simp [dpAlu, subWithCarry_result, borrow]
  case add | adc | cmn => simp [dpAlu, addWithCarry_result, carry]
  all_goals rfl

theorem readC_bind_carryOp (f : Word → Word → Bool → AluOut) (s : State) (a b : Word) (k : AluOut → Except Stop State) :
    (carryOp f s a b >>= k) = (s.readFlag .c >>= fun c => k (f a b c)) := by
  unfold carryOp
  cases s.readFlag .c <;> rfl

theorem body_of_dpView {i : Instr} {v : DpView} (h : dpView i = some v) (s : State) : body i s = dpBody v (dpAlu i) s := by
  cases i <;> cases h
  case adc | sbc | rsc => simp only [body, binaryBody, readC_bind_carryOp]; rfl
  all_goals rfl

theorem isCoprocessor_of_dpView {i : Instr} {v : DpView} (h : dpView i = some v) : i.isCoprocessor = false := by
  cases i <;> cases h <;> rfl

theorem check_of_dpView {i : Instr} {v : DpView} (h : dpView i = some v) : ∃ regs, check i = dpCheck v.op2 regs := by
  cases i <;> cases h <;> exact ⟨_, rfl⟩

/-- The unsupported form of `operand2` (R92). -/
def isUnsupported : Operand2 → Bool
  | .unsupported _ _ _ => true
  | _ => false

/-- An admitted data-processing instruction has a supported `operand2`. -/
theorem supported_of_passes {i : Instr} {v : DpView} {s : State} (h : dpView i = some v) (hp : Passes i s) :
    isUnsupported v.op2 = false := by
  obtain ⟨regs, hregs⟩ := check_of_dpView h
  have hc : dpCheck v.op2 regs = none := hregs ▸ ((wellFormed_iff (isCoprocessor_of_dpView h)).mp hp.1).1
  cases hop : v.op2 with
  | unsupported => simp [hop, dpCheck] at hc
  | _ => rfl

/-! ### Transfers: one body for the eight -/

/-- R155 over an offset of either format: Rn, the offset, then the access (R175). -/
def transferBody (access : Transfer) (p u w : Bool) (rn rd : RegNum) (off : Offset) (s : State) : Except Stop State := do
  let base ← s.readReg rn
  let offset ← off.read s
  access (effectiveAddress p u w base offset) (userAccess p w) rn rd s

theorem immBody_eq (access : Transfer) (p u w : Bool) (rn rd : RegNum) (o : BitVec 12) (s : State) :
    immBody access p u w rn rd o s = transferBody access p u w rn rd (.imm o) s := rfl

theorem regBody_eq (access : Transfer) (p u w : Bool) (rn rd : RegNum) (amount : BitVec 5) (type : ShiftType) (rm : RegNum)
    (s : State) : regBody access p u w rn rd amount type rm s = transferBody access p u w rn rd (.reg amount type rm) s := rfl

section
variable (c : Cond) (p u w : Bool) (rn rd : RegNum) (off : Offset) (s : State)

theorem body_ldr : body (ldr c p u w rn rd off) s = transferBody loadWord p u w rn rd off s := by cases off <;> rfl
theorem body_ldrb : body (ldrb c p u w rn rd off) s = transferBody loadByte p u w rn rd off s := by cases off <;> rfl
theorem body_str : body (str c p u w rn rd off) s = transferBody storeWord p u w rn rd off s := by cases off <;> rfl
theorem body_strb : body (strb c p u w rn rd off) s = transferBody storeByte p u w rn rd off s := by cases off <;> rfl

theorem isCoprocessor_ldr : (ldr c p u w rn rd off).isCoprocessor = false := by cases off <;> rfl
theorem isCoprocessor_ldrb : (ldrb c p u w rn rd off).isCoprocessor = false := by cases off <;> rfl
theorem isCoprocessor_str : (str c p u w rn rd off).isCoprocessor = false := by cases off <;> rfl
theorem isCoprocessor_strb : (strb c p u w rn rd off).isCoprocessor = false := by cases off <;> rfl

end

/-! ### Stages that read a list of operands in order -/

/-- The stage stops on the first of the reads that is unknown, if one is. -/
def StopsOn {α : Type} (s : State) (reads : List ReadItem) (x : Except Stop α) : Prop :=
  ∀ n, reads.findSome? (unknownOf s) = some n → x = .error (.fault (.unknownRead n))

/-- The stage makes these reads and can stop on nothing else. -/
structure Performs {α : Type} (s : State) (reads : List ReadItem) (x : Except Stop α) : Prop where
  stopsOn : StopsOn s reads x
  succeeds : reads.findSome? (unknownOf s) = none → ∃ a, x = .ok a

section
variable {α β : Type} {s : State} {reads reads' : List ReadItem}

theorem StopsOn.nil (x : Except Stop α) : StopsOn s [] x := by simp [StopsOn]

theorem Performs.ok (a : α) : Performs s [] (.ok a) := ⟨.nil _, fun _ => ⟨a, rfl⟩⟩

/-- Reads in sequence: where none of the first stage's stops it, the next stage's do. -/
theorem Performs.bind_stopsOn {x : Except Stop α} {f : α → Except Stop β} (hx : Performs s reads x)
    (hf : ∀ a, StopsOn s reads' (f a)) : StopsOn s (reads ++ reads') (x >>= f) := by
  intro n hn
  rw [List.findSome?_append] at hn
  cases hr : reads.findSome? (unknownOf s) with
  | some m =>
    obtain rfl : m = n := by simpa [hr] using hn
    rw [hx.stopsOn m hr]
    rfl
  | none =>
    obtain ⟨a, rfl⟩ := hx.succeeds hr
    exact hf a n (by simpa [hr] using hn)

/-- After its reads a stage may be followed by one that reads nothing. -/
theorem Performs.stopsOn_bind {x : Except Stop α} (hx : Performs s reads x) (f : α → Except Stop β) :
    StopsOn s reads (x >>= f) := by
  intro n hn
  rw [hx.stopsOn n hn]
  rfl

theorem Performs.bind {x : Except Stop α} {f : α → Except Stop β} (hx : Performs s reads x)
    (hf : ∀ a, Performs s reads' (f a)) : Performs s (reads ++ reads') (x >>= f) := by
  refine ⟨hx.bind_stopsOn fun a => (hf a).stopsOn, fun hn => ?_⟩
  rw [List.findSome?_append, Option.or_eq_none_iff] at hn
  obtain ⟨a, rfl⟩ := hx.succeeds hn.1
  exact (hf a).succeeds hn.2

theorem Performs.map {x : Except Stop α} (hx : Performs s reads x) (f : α → β) :
    Performs s reads (x >>= fun a => .ok (f a)) := by
  simpa using hx.bind fun a => .ok (f a)

theorem performs_readReg (s : State) (r : RegNum) : Performs s [.reg r] (s.readReg r) := by
  have h : unknownOf s (.reg r) = (s.unknownWord r).map .word := by
    cases hb : bankReg r s.mode with
    | none => simp [unknownOf, State.unknownWord, hb]
    | some p => cases hk : (s.getReg p).known <;> simp [unknownOf, State.unknownWord, hb, hk]
  constructor
  · intro n hn
    simp only [List.findSome?_singleton, h, Option.map_eq_some_iff] at hn
    obtain ⟨p, hp, rfl⟩ := hn
    simp [State.readReg, hp]
  · intro hn
    simp only [List.findSome?_singleton, h, Option.map_eq_none_iff] at hn
    exact ⟨_, State.readReg_ok.mpr ⟨hn, rfl⟩⟩

theorem performs_readCarry (s : State) : Performs s [.carry] (s.readFlag .c) := by
  cases hk : s.cpsr.knowsFlag .c with
  | true => exact ⟨by simp [StopsOn, unknownOf, hk], fun _ => ⟨_, State.readFlag_of_known hk⟩⟩
  | false => exact ⟨by simp [StopsOn, unknownOf, State.readFlag, hk], by simp [unknownOf, hk]⟩

/-- Only RRX reads C (R118, R125). -/
theorem performs_immediateShift (s : State) (type : ShiftType) (amount : BitVec 5) (m : Word) :
    Performs s (if isRrx type amount then [.carry] else []) (immediateShift type amount m s) := by
  unfold immediateShift
  by_cases ha : amount = 0
  · rw [if_pos ha]
    cases type with
    | ror =>
      rw [if_pos (by simp [isRrx, ha])]
      exact (performs_readCarry s).map (rrx m)
    | lsl | lsr | asr => exact .ok _
  · have hr : isRrx type amount = false := by rw [isRrx, beq_false_of_ne ha, Bool.and_false]
    rw [if_neg ha, hr]
    exact .ok _

theorem performs_shifter (s : State) {op2 : Operand2} (h : isUnsupported op2 = false) :
    Performs s (operandReads op2) (shifter op2 s) := by
  cases op2 with
  | imm => exact .ok _
  | immShift amount type rm => exact (performs_readReg s rm).bind fun m => performs_immediateShift s type amount m
  | regShift rs type rm => exact (performs_readReg s rm).bind fun m => (performs_readReg s rs).map _
  | unsupported => simp [isUnsupported] at h

theorem performs_dpReadRn (v : DpView) (s : State) :
    Performs s (match v.rn with | some r => [.reg r] | none => []) (dpReadRn v s) := by
  unfold dpReadRn
  cases v.rn with
  | some r => exact performs_readReg s r
  | none => exact .ok _

theorem performs_dpReadC (v : DpView) (s : State) : Performs s (if v.carryIn then [.carry] else []) (dpReadC v s) := by
  unfold dpReadC
  cases v.carryIn with
  | true => exact performs_readCarry s
  | false => exact .ok _

theorem performs_offset (s : State) (off : Offset) : Performs s (offsetReads off) (off.read s) := by
  cases off with
  | imm o => exact .ok _
  | reg amount type rm => exact (performs_readReg s rm).bind fun m => (performs_immediateShift s type amount m).map _

/-! ### The first unknown read stops an instruction -/

theorem stopsOn_dpBody {v : DpView} (h : isUnsupported v.op2 = false) (alu : Word → Word → Bool → AluOut) (s : State) :
    StopsOn s v.reads (dpBody v alu s) := by
  rw [DpView.reads, List.append_assoc]
  exact (performs_shifter s h).bind_stopsOn fun _ => (performs_dpReadRn v s).bind_stopsOn fun _ =>
    (performs_dpReadC v s).stopsOn_bind _

/-- Every transfer reads Rn and its offset first. -/
theorem stopsOn_transferBody (access : Transfer) (p u w : Bool) (rn rd : RegNum) (off : Offset) (s : State) :
    StopsOn s (loadReads rn off) (transferBody access p u w rn rd off s) :=
  (performs_readReg s rn).bind_stopsOn fun _ => (performs_offset s off).stopsOn_bind _

/-- A store's access makes its reads after those. -/
theorem stopsOn_transferBody_store {access : Transfer} {rd : RegNum}
    (ha : ∀ a user rn, StopsOn s (if rd = .r15 then [] else [.reg rd]) (access a user rn rd s)) (p u w : Bool) (rn : RegNum)
    (off : Offset) : StopsOn s (storeReads rn rd off) (transferBody access p u w rn rd off s) :=
  (performs_readReg s rn).bind_stopsOn fun _ => (performs_offset s off).bind_stopsOn fun _ => ha _ _ _

/-- A store reads Rd last, unless it is r15 (R159, R175). -/
theorem stopsOn_storeWord (s : State) (rd : RegNum) (a : Address) (user : Bool) (rn : RegNum) :
    StopsOn s (if rd = .r15 then [] else [.reg rd]) (storeWord a user rn rd s) := by
  by_cases h : rd = .r15
  · rw [if_pos h]
    exact .nil _
  · have hv : storeValue rd s = s.readReg rd := if_neg h
    rw [if_neg h, storeWord, hv]
    exact (performs_readReg s rd).stopsOn_bind _

theorem stopsOn_storeByte (s : State) (rd : RegNum) (a : Address) (user : Bool) (rn : RegNum) :
    StopsOn s (if rd = .r15 then [] else [.reg rd]) (storeByte a user rn rd s) := by
  by_cases h : rd = .r15
  · rw [if_pos h]
    exact .nil _
  · rw [if_neg h]
    exact (performs_readReg s rd).stopsOn_bind _

/-- An admitted instruction whose condition passes stops on the first unknown read of its body. -/
theorem exec_of_stopsOn {i : Instr} (hc : i.isCoprocessor = false) (hp : Passes i s) (hb : StopsOn s reads (body i s))
    {n : UnknownName} (hn : reads.findSome? (unknownOf s) = some n) : exec i s = .fault (.unknownRead n) := by
  rw [exec_of_passes hc hp.1 hp.2, hb n hn]
  rfl

end

/-- Settles O17, from the bodies as sequences of reads: each stage stops on the first of its reads that is unknown,
and else goes on to the next. -/
theorem firstUnknownReadStops : Obligations.FirstUnknownReadStops := by
  refine ⟨fun i v s n hv hp hn => ?_, fun c p u w rn rd off s n => ⟨fun hn => ⟨fun hp => ?_, fun hp => ?_⟩,
    fun hn => ⟨fun hp => ?_, fun hp => ?_⟩⟩⟩
  · refine exec_of_stopsOn (isCoprocessor_of_dpView hv) hp ?_ hn
    rw [body_of_dpView hv]
    exact stopsOn_dpBody (supported_of_passes hv hp) _ s
  · refine exec_of_stopsOn (isCoprocessor_ldr ..) hp ?_ hn
    rw [body_ldr]
    exact stopsOn_transferBody loadWord p u w rn rd off s
  · refine exec_of_stopsOn (isCoprocessor_ldrb ..) hp ?_ hn
    rw [body_ldrb]
    exact stopsOn_transferBody loadByte p u w rn rd off s
  · refine exec_of_stopsOn (isCoprocessor_str ..) hp ?_ hn
    rw [body_str]
    exact stopsOn_transferBody_store (stopsOn_storeWord s rd) p u w rn off
  · refine exec_of_stopsOn (isCoprocessor_strb ..) hp ?_ hn
    rw [body_strb]
    exact stopsOn_transferBody_store (stopsOn_storeByte s rd) p u w rn off

end Sys2Proof.Machine
end

section
/-! The return from an exception: what a restore does in each state, and S = 1 with Rd = r15. -/

namespace Sys2Proof.Machine

open Sys2Proof.Claims

/-! ### RestoreCPSR in each state (R38) -/

section
variable {s : State} {b : SpsrBank}

theorem State.restoreCpsr_of_noSpsr (h : s.mode.spsr = none) : s.restoreCpsr = .error (unpredictable .noSPSR) := by
  simp [State.restoreCpsr, h, unpredictable]

theorem State.restoreCpsr_of_unknown {k : Fin 32} (hb : s.mode.spsr = some b)
    (hk : restoreReads.find? (fun k => !(s.getSpsr b).knows k) = some k) :
    s.restoreCpsr = .error (.fault (.unknownRead (.spsrBit b k))) := by
  simp [State.restoreCpsr, hb, hk]

theorem find_unknown_eq_none {p : Psr} (h : ∀ k ∈ restoreReads, p.knows k = true) :
    restoreReads.find? (fun k => !p.knows k) = none :=
  List.find?_eq_none.mpr fun k hk => by simp [h k hk]

theorem State.restoreCpsr_of_invalidMode (hb : s.mode.spsr = some b) (hk : ∀ k ∈ restoreReads, (s.getSpsr b).knows k = true)
    (hm : ∀ m : Mode, (s.getSpsr b).modeBits ≠ m.encoding) : s.restoreCpsr = .error (unpredictable .invalidMode) := by
  have hnone : Mode.ofEncoding (s.getSpsr b).modeBits = none :=
    Option.eq_none_iff_forall_ne_some.mpr fun m e => hm m (Mode.encoding_of_ofEncoding e)
  simp [State.restoreCpsr, hb, find_unknown_eq_none hk, hnone, unpredictable]

/-- Where nothing stops it, the restore takes CPSR from the SPSR whole, and the mode with it. -/
theorem State.restoreCpsr_of_legal {m : Mode} (hb : s.mode.spsr = some b) (hk : ∀ k ∈ restoreReads, (s.getSpsr b).knows k = true)
    (hm : (s.getSpsr b).modeBits = m.encoding) :
    s.restoreCpsr = .ok { s with cpsr := s.getSpsr b, mode := m, spsrSlot := m.spsr.getD s.spsrSlot } := by
  have hself : (s.getSpsr b).setMode m = s.getSpsr b := Psr.setMode_self hm fun i hi => hk i (by revert i; decide)
  simp [State.restoreCpsr, hb, find_unknown_eq_none hk, hm, State.setMode, hself]

end

/-! ### The body where every read is known -/

theorem unknownOf_reg_of_readable {s : State} {r : RegNum} (h : Readable s r) : unknownOf s (.reg r) = none := by
  cases hb : bankReg r s.mode with
  | none => simp [unknownOf, hb]
  | some p => simp [unknownOf, hb, h p hb]

theorem unknownOf_carry_of_known {s : State} (h : CarryKnown s) : unknownOf s .carry = none := if_pos h

/-- A readable operand is one none of whose reads stops, so the shifter succeeds (R116). -/
theorem shifter_of_readable {s : State} {op2 : Operand2} (h : OperandReadable s op2) : ∃ sh, shifter op2 s = .ok sh := by
  cases op2 with
  | imm => exact ⟨_, rfl⟩
  | immShift amount type rm =>
    obtain ⟨hm, hc⟩ := h
    refine (performs_shifter s rfl).succeeds ?_
    cases hr : isRrx type amount with
    | true => simp [operandReads, hr, unknownOf_reg_of_readable hm, unknownOf_carry_of_known (hc hr)]
    | false => simp [operandReads, hr, unknownOf_reg_of_readable hm]
  | regShift rs type rm =>
    obtain ⟨hm, hs⟩ := h
    refine (performs_shifter s rfl).succeeds ?_
    simp [operandReads, unknownOf_reg_of_readable hm, unknownOf_reg_of_readable hs]
  | unsupported => exact h.elim

/-- Where every read of a data-processing instruction is known, its body is the writes of its result. -/
theorem dpBody_of_readable {v : DpView} {s : State} (h : v.Readable s) (alu : Word → Word → Bool → AluOut) :
    ∃ sh, shifter v.op2 s = .ok sh ∧ dpBody v alu s =
      dpFinish v (alu (match v.rn with | some r => s.regValue r | none => 0) sh.operand (s.cpsr.flag .c)) sh.carry s := by
  obtain ⟨hop, hrn, hc⟩ := h
  obtain ⟨sh, hsh⟩ := shifter_of_readable hop
  have hn : dpReadRn v s = .ok (match v.rn with | some r => s.regValue r | none => 0) := by
    unfold dpReadRn
    cases hr : v.rn with
    | none => rfl
    | some r => exact State.readReg_of_known (hrn r hr)
  have hcin : dpReadC v s = .ok (s.cpsr.flag .c) := by
    unfold dpReadC
    split
    · exact State.readFlag_of_known (hc ‹_›)
    · rfl
  refine ⟨sh, hsh, ?_⟩
  rw [dpBody, hsh, hn, hcin]
  rfl

/-- A return whose reads are known is its write of the pc and CPSR (R135). -/
theorem exec_return {i : Instr} {v : DpView} {s : State} (hv : dpView i = some v) (hrd : v.rd = some .r15) (hsf : v.sf = true)
    (hp : Passes i s) (hr : v.Readable s) :
    ∃ sh, shifter v.op2 s = .ok sh ∧ exec i s = outcome (writePcDp (v.result s sh.operand) true s) := by
  obtain ⟨sh, hsh, hb⟩ := dpBody_of_readable hr (dpAlu i)
  refine ⟨sh, hsh, ?_⟩
  rw [exec_of_passes (isCoprocessor_of_dpView hv) hp.1 hp.2, body_of_dpView hv, hb, dpFinish, hrd, hsf]
  simp only [dpWrite, if_true, dpAlu_result hv]
  rfl

theorem writePcDp_of_restore_error {s : State} {e : Stop} (h : s.restoreCpsr = .error e) (r : Word) :
    writePcDp r true s = .error e := by
  rw [writePcDp, if_pos rfl, h]
  rfl

theorem writePcDp_of_restore_ok {s u : State} (h : s.restoreCpsr = .ok u) (r : Word) :
    writePcDp r true s =
      if u.cpsr.thumb = false ∧ Bits.low2 r ≠ 0 then .error (unpredictable .misalignedPC) else .ok (u.setPc r) := by
  rw [writePcDp, if_pos rfl, h]
  rfl

/-- Settles O30: the restore succeeds, and then only a misaligned result in ARM state stops the return. -/
theorem returnRestoresStatus : Obligations.ReturnRestoresStatus := by
  intro i v s b m hv hrd hsf hp hr hb hk hm
  obtain ⟨sh, hsh, he⟩ := exec_return hv hrd hsf hp hr
  rw [writePcDp_of_restore_ok (State.restoreCpsr_of_legal hb hk hm)] at he
  refine ⟨sh, hsh, fun ha => ?_, fun ha ht => ?_⟩
  · rw [if_neg] at he
    · exact ⟨_, he, rfl, rfl, rfl, rfl, rfl, rfl, rfl, rfl, rfl⟩
    · rintro ⟨ht, hl⟩
      rcases ha with ha | ha
      · exact hl (low2_eq_zero_iff.mpr ha)
      · exact Bool.false_ne_true (ht.symm.trans ha)
  · rw [if_pos ⟨ht, fun hl => ha (low2_eq_zero_iff.mp hl)⟩] at he
    exact he

/-- Settles O31, from the restore that stops in each of the three ways. -/
theorem returnStopsInOrder : Obligations.ReturnStopsInOrder := by
  intro i v s hv hrd hsf hp hr
  obtain ⟨sh, -, he⟩ := exec_return hv hrd hsf hp hr
  have stops : ∀ e, s.restoreCpsr = .error e → exec i s = outcome (.error e) := fun e h => by
    rw [he, writePcDp_of_restore_error h]
  refine ⟨fun h => stops _ (State.restoreCpsr_of_noSpsr ?_), fun b hb => ⟨fun k hk => ?_, fun hk hm => ?_⟩⟩
  · rcases h with h | h <;> rw [h] <;> rfl
  · exact stops _ (State.restoreCpsr_of_unknown hb hk)
  · exact stops _ (State.restoreCpsr_of_invalidMode hb hk hm)

end Sys2Proof.Machine
end

section
/-! Noninterference: two states that answer every read alike, and stay so under every write, are alike under every
instruction.  From it, that bits 27:6 of CPSR and the words hidden by the mode are not read. -/

namespace Sys2Proof.Machine

open Sys2Proof.Claims

/-! ### Results that agree -/

/-- Two stages agree: they stop alike, or both go on to values that `Q` relates. -/
inductive Agree {α : Type} (Q : α → α → Prop) : Except Stop α → Except Stop α → Prop
  | ok {a b : α} (h : Q a b) : Agree Q (.ok a) (.ok b)
  | error (e : Stop) : Agree Q (.error e) (.error e)

/-- Equal stages followed by stages that agree. -/
theorem Agree.bind_eq {α β : Type} {Q : β → β → Prop} {x y : Except Stop α} (hxy : x = y) {f g : α → Except Stop β}
    (h : ∀ a, Agree Q (f a) (g a)) : Agree Q (x >>= f) (y >>= g) := by
  subst hxy
  cases x with
  | error e => exact .error e
  | ok a => exact h a

theorem Agree.bind {α β : Type} {P : α → α → Prop} {Q : β → β → Prop} {x y : Except Stop α} (hxy : Agree P x y)
    {f g : α → Except Stop β} (h : ∀ a b, P a b → Agree Q (f a) (g b)) : Agree Q (x >>= f) (y >>= g) := by
  cases hxy with
  | error e => exact .error e
  | ok hab => exact h _ _ hab

/-- Stages that branch on one condition. -/
theorem Agree.ite {α : Type} {Q : α → α → Prop} {c : Prop} [Decidable c] {x x' y y' : Except Stop α} (hx : Agree Q x x')
    (hy : Agree Q y y') : Agree Q (if c then x else y) (if c then x' else y') := by
  split
  · exact hx
  · exact hy

/-! ### Simulations -/

/-- `R` relates states that answer every read of an instruction alike, and every write keeps it; setting the pc, with
which each instruction ends, and re-banking to a restored CPSR may leave `R` for `Q`. -/
structure Simulation (R Q : State → State → Prop) : Prop where
  pc       : ∀ {s u}, R s u → s.pc = u.pc
  mode     : ∀ {s u}, R s u → s.mode = u.mode
  spsrs    : ∀ {s u}, R s u → s.spsrs = u.spsrs
  mem      : ∀ {s u}, R s u → s.mem = u.mem
  params   : ∀ {s u}, R s u → s.params = u.params
  readReg  : ∀ {s u}, R s u → ∀ r, s.readReg r = u.readReg r
  flag     : ∀ {s u}, R s u → ∀ f, s.cpsr.flag f = u.cpsr.flag f
  knows    : ∀ {s u}, R s u → ∀ f, s.cpsr.knowsFlag f = u.cpsr.knowsFlag f
  writeReg : ∀ {s u}, R s u → ∀ r v, R (s.writeReg r v) (u.writeReg r v)
  setFlags : ∀ {s u}, R s u → ∀ o c, R (s.setFlags o c) (u.setFlags o c)
  record   : ∀ {s u}, R s u → ∀ e, R (s.record e) (u.record e)
  withMem  : ∀ {s u}, R s u → ∀ m, R { s with mem := m } { u with mem := m }
  setPc    : ∀ {s u}, R s u → ∀ v, Q (s.setPc v) (u.setPc v)
  rebank   : ∀ {s u}, R s u → ∀ p m v, Q (State.setPc { s with cpsr := p, mode := m, spsrSlot := m.spsr.getD s.spsrSlot } v)
    (State.setPc { u with cpsr := p, mode := m, spsrSlot := m.spsr.getD u.spsrSlot } v)

namespace Simulation

variable {R Q : State → State → Prop} (sim : Simulation R Q) {s u : State} (h : R s u)
include sim h

theorem nextPc_eq : s.nextPc = u.nextPc := by rw [State.nextPc, State.nextPc, sim.pc h]

theorem readFlag_eq (f : Flag) : s.readFlag f = u.readFlag f := by
  rw [State.readFlag, State.readFlag, sim.flag h, sim.knows h]

theorem conditionPassed_eq (c : Cond) : conditionPassed c s.cpsr = conditionPassed c u.cpsr := by
  simp only [conditionPassed, sim.flag h, sim.knows h]

theorem immediateShift_eq (type : ShiftType) (amount : BitVec 5) (m : Word) :
    immediateShift type amount m s = immediateShift type amount m u := by
  simp only [immediateShift, sim.readFlag_eq h]

theorem shifter_eq (op2 : Operand2) : shifter op2 s = shifter op2 u := by
  cases op2 <;> simp only [shifter, sim.readReg h, sim.immediateShift_eq h, sim.params h]

theorem offset_eq (off : Offset) : off.read s = off.read u := by
  cases off <;> simp only [Offset.read, registerOffset, sim.readReg h, sim.immediateShift_eq h]

theorem writeBack (rn : RegNum) (a : Address) : R (s.writeBack rn a) (u.writeBack rn a) := by
  unfold State.writeBack
  split
  · exact sim.writeReg h rn a.addr
  · exact h

/-- The restore reads the mode and the SPSRs alone (R38). -/
theorem restoreCpsr_agree :
    Agree (fun t t' => t.cpsr = t'.cpsr ∧ ∀ v, Q (t.setPc v) (t'.setPc v)) s.restoreCpsr u.restoreCpsr := by
  have hspsr : ∀ b, s.getSpsr b = u.getSpsr b := fun b => by rw [State.getSpsr, State.getSpsr, sim.spsrs h]
  cases hb : u.mode.spsr with
  | none =>
    rw [State.restoreCpsr_of_noSpsr hb, State.restoreCpsr_of_noSpsr (sim.mode h ▸ hb)]
    exact .error _
  | some b =>
    have hb' : s.mode.spsr = some b := sim.mode h ▸ hb
    cases hf : restoreReads.find? fun k => !(u.getSpsr b).knows k with
    | some k =>
      rw [State.restoreCpsr_of_unknown hb hf, State.restoreCpsr_of_unknown hb' (hspsr b ▸ hf)]
      exact .error _
    | none =>
      have hk : ∀ k ∈ restoreReads, (u.getSpsr b).knows k = true := by simpa using hf
      by_cases hm : ∃ m : Mode, (u.getSpsr b).modeBits = m.encoding
      · obtain ⟨m, hm⟩ := hm
        rw [State.restoreCpsr_of_legal hb hk hm, State.restoreCpsr_of_legal hb' (hspsr b ▸ hk) (hspsr b ▸ hm), hspsr]
        exact .ok ⟨rfl, sim.rebank h _ m⟩
      · rw [not_exists] at hm
        rw [State.restoreCpsr_of_invalidMode hb hk hm, State.restoreCpsr_of_invalidMode hb' (hspsr b ▸ hk) (hspsr b ▸ hm)]
        exact .error _

theorem dpWrite_agree (sf : Bool) (rd : RegNum) (out : AluOut) (sc : ShiftCarry) :
    Agree Q (dpWrite sf rd out sc s) (dpWrite sf rd out sc u) := by
  refine .ite (.ite ((sim.restoreCpsr_agree h).bind fun t t' ⟨hc, hq⟩ => ?_) (.ite (.error _) (.ok (sim.setPc h _)))) ?_
  · rw [hc]
    exact .ite (.error _) (.ok (hq _))
  · have hw := sim.writeReg h rd out.result
    rw [sim.nextPc_eq h]
    cases sf with
    | true => exact .ok (sim.setPc (sim.setFlags hw out sc) _)
    | false => exact .ok (sim.setPc hw _)

theorem dpBody_agree (v : DpView) (alu : Word → Word → Bool → AluOut) : Agree Q (dpBody v alu s) (dpBody v alu u) := by
  have hn : dpReadRn v s = dpReadRn v u := by simp only [dpReadRn, sim.readReg h]
  have hc : dpReadC v s = dpReadC v u := by simp only [dpReadC, sim.readFlag_eq h, sim.flag h]
  refine .bind_eq (sim.shifter_eq h v.op2) fun sh => .bind_eq hn fun a => .bind_eq hc fun c => ?_
  unfold dpFinish
  cases v.rd with
  | some rd => exact sim.dpWrite_agree h _ rd _ _
  | none =>
    rw [sim.nextPc_eq h]
    exact .ok (sim.setPc (sim.setFlags h _ _) _)

theorem loadWord_agree (rd : RegNum) (a : Address) (user : Bool) (rn : RegNum) :
    Agree Q (loadWord a user rn rd s) (loadWord a user rn rd u) := by
  simp only [loadWord, sim.mem h, sim.nextPc_eq h]
  have hb := sim.writeBack (sim.record h ⟨.read, Bits.align4 a.ea, .word, Memory.readWord u.mem (Bits.align4 a.ea), user⟩) rn a
  exact .ite (.ok (sim.setPc hb _)) (.ok (sim.setPc (sim.writeReg hb rd _) _))

theorem loadByte_agree (rd : RegNum) (a : Address) (user : Bool) (rn : RegNum) :
    Agree Q (loadByte a user rn rd s) (loadByte a user rn rd u) := by
  simp only [loadByte, sim.mem h, sim.nextPc_eq h]
  exact .ok (sim.setPc (sim.writeReg (sim.writeBack (sim.record h _) rn a) rd _) _)

theorem hitsPrefetch_eq (a : Word) (n : Nat) : hitsPrefetch s.pc a n = hitsPrefetch u.pc a n := by rw [sim.pc h]

theorem storeWord_agree (rd : RegNum) (a : Address) (user : Bool) (rn : RegNum) :
    Agree Q (storeWord a user rn rd s) (storeWord a user rn rd u) := by
  have hv : storeValue rd s = storeValue rd u := by simp only [storeValue, sim.pc h, sim.params h, sim.readReg h]
  refine .bind_eq hv fun v => ?_
  rw [sim.hitsPrefetch_eq h, sim.mem h, sim.nextPc_eq h]
  exact .ite (.error _) (.ok (sim.setPc (sim.writeBack (sim.record (sim.withMem h _) _) rn a) _))

theorem storeByte_agree (rd : RegNum) (a : Address) (user : Bool) (rn : RegNum) :
    Agree Q (storeByte a user rn rd s) (storeByte a user rn rd u) := by
  refine .bind_eq (sim.readReg h rd) fun v => ?_
  rw [sim.hitsPrefetch_eq h, sim.mem h, sim.nextPc_eq h]
  exact .ite (.error _) (.ok (sim.setPc (sim.writeBack (sim.record (sim.withMem h _) _) rn a) _))

theorem transferBody_agree {access : Transfer} {rd : RegNum}
    (ha : ∀ a user rn, Agree Q (access a user rn rd s) (access a user rn rd u)) (p up w : Bool) (rn : RegNum) (off : Offset) :
    Agree Q (transferBody access p up w rn rd off s) (transferBody access p up w rn rd off u) :=
  .bind_eq (sim.readReg h rn) fun _ => .bind_eq (sim.offset_eq h off) fun _ => ha _ _ _

theorem body_agree (i : Instr) : Agree Q (body i s) (body i u) := by
  cases hv : dpView i with
  | some v =>
    rw [body_of_dpView hv, body_of_dpView hv]
    exact sim.dpBody_agree h v _
  | none =>
    cases i with
    | b c offset =>
      rw [body, body, sim.pc h]
      exact .ok (sim.setPc h _)
    | bl c offset =>
      rw [body, body, sim.nextPc_eq h, sim.pc h]
      exact .ok (sim.setPc (sim.writeReg h .r14 _) _)
    | strImm => rw [body, body, immBody_eq, immBody_eq]; exact sim.transferBody_agree h (sim.storeWord_agree h _) ..
    | strReg => rw [body, body, regBody_eq, regBody_eq]; exact sim.transferBody_agree h (sim.storeWord_agree h _) ..
    | ldrImm => rw [body, body, immBody_eq, immBody_eq]; exact sim.transferBody_agree h (sim.loadWord_agree h _) ..
    | ldrReg => rw [body, body, regBody_eq, regBody_eq]; exact sim.transferBody_agree h (sim.loadWord_agree h _) ..
    | strbImm => rw [body, body, immBody_eq, immBody_eq]; exact sim.transferBody_agree h (sim.storeByte_agree h _) ..
    | strbReg => rw [body, body, regBody_eq, regBody_eq]; exact sim.transferBody_agree h (sim.storeByte_agree h _) ..
    | ldrbImm => rw [body, body, immBody_eq, immBody_eq]; exact sim.transferBody_agree h (sim.loadByte_agree h _) ..
    | ldrbReg => rw [body, body, regBody_eq, regBody_eq]; exact sim.transferBody_agree h (sim.loadByte_agree h _) ..
    | cdp | mcr | mrc => exact .error _
    | _ => cases hv

/-- Every instruction stops alike from related states, or goes on from both to states that `Q` relates. -/
theorem exec_agree (i : Instr) : ∃ x y, exec i s = outcome x ∧ exec i u = outcome y ∧ Agree Q x y := by
  rw [exec_eq_runGated, exec_eq_runGated]
  unfold runGated
  rw [sim.conditionPassed_eq h]
  cases check i with
  | some stop => exact ⟨_, _, rfl, rfl, .error stop⟩
  | none =>
    by_cases hc : i.cond = .nv
    · simp only [if_pos hc]
      exact ⟨_, _, rfl, rfl, .error (.fault .unknownCondition)⟩
    · simp only [if_neg hc]
      cases conditionPassed i.cond u.cpsr with
      | error stop => exact ⟨_, _, rfl, rfl, .error stop⟩
      | ok b =>
        cases b with
        | true => exact ⟨_, _, rfl, rfl, sim.body_agree h i⟩
        | false =>
          rw [sim.nextPc_eq h]
          exact ⟨_, _, rfl, rfl, .ok (sim.setPc h _)⟩

end Simulation

/-! ### Bits 27:6 of CPSR (R34) -/

/-- The states agree in everything but bits 27:6 of CPSR. -/
def DifferInStorage (s u : State) : Prop := s = { u with cpsr := s.cpsr } ∧ AgreeOutsideStorage s.cpsr u.cpsr

theorem agreeOutsideStorage_flag {p q : Psr} (h : AgreeOutsideStorage p q) (f : Flag) :
    p.flag f = q.flag f ∧ p.knowsFlag f = q.knowsFlag f := h f.position (.inr f.position_ge)

theorem agreeOutsideStorage_setFlag {p q : Psr} (h : AgreeOutsideStorage p q) (f : Flag) (b : Bool) :
    AgreeOutsideStorage (p.setFlag f b) (q.setFlag f b) := by
  intro k hk
  obtain ⟨hbit, hknows⟩ := h k hk
  simp only [Psr.bit_setFlag, Psr.knows_setFlag, hbit, hknows, and_self]

theorem agreeOutsideStorage_setFlags {p q : Psr} (h : AgreeOutsideStorage p q) (o : AluOut) (c : ShiftCarry) :
    AgreeOutsideStorage (p.setFlags o c) (q.setFlags o c) := by
  have hnz : AgreeOutsideStorage (p.setNZ o.result) (q.setNZ o.result) :=
    agreeOutsideStorage_setFlag (agreeOutsideStorage_setFlag h _ _) _ _
  unfold Psr.setFlags
  cases o.arith with
  | some cv => exact agreeOutsideStorage_setFlag (agreeOutsideStorage_setFlag hnz _ _) _ _
  | none =>
    cases c with
    | currentC => exact hnz
    | bit b => exact agreeOutsideStorage_setFlag hnz _ _

theorem DifferInStorage.writeReg {s u : State} (h : DifferInStorage s u) (r : RegNum) (v : Word) :
    DifferInStorage (s.writeReg r v) (u.writeReg r v) := by
  obtain ⟨hs, hc⟩ := h
  rw [hs]
  unfold State.writeReg
  cases bankReg r u.mode <;> exact ⟨rfl, hc⟩

/-- No read of an instruction tells bits 27:6 of CPSR apart, and no write does. -/
theorem simulation_differInStorage : Simulation DifferInStorage DifferInStorage where
  pc h := by rw [h.1]
  mode h := by rw [h.1]
  spsrs h := by rw [h.1]
  mem h := by rw [h.1]
  params h := by rw [h.1]
  readReg h r := by rw [h.1]; rfl
  flag h f := (agreeOutsideStorage_flag h.2 f).1
  knows h f := (agreeOutsideStorage_flag h.2 f).2
  writeReg h := h.writeReg
  setFlags h o c := ⟨by rw [h.1]; rfl, agreeOutsideStorage_setFlags h.2 o c⟩
  record h e := ⟨by rw [h.1]; rfl, h.2⟩
  withMem h m := ⟨by rw [h.1], h.2⟩
  setPc h v := ⟨by rw [h.1]; rfl, h.2⟩
  rebank h p m v := ⟨by rw [h.1], fun _ _ => ⟨rfl, rfl⟩⟩

/-- Settles O53, from the simulation of states that differ in bits 27:6 of CPSR. -/
theorem storageBitsAreNotRead : Obligations.StorageBitsAreNotRead := by
  intro i s p hp
  obtain ⟨x, y, hx, hy, hxy⟩ := simulation_differInStorage.exec_agree (s := { s with cpsr := p }) (u := s) ⟨rfl, hp⟩ i
  rw [hx, hy]
  cases hxy with
  | ok h => exact h
  | error e => cases e <;> rfl

/-! ### Words that the mode hides (R24) -/

/-- The first state is the second with another value in a word that its mode hides. -/
def DifferInHidden (q : PhysReg) (v : Reg) (s u : State) : Prop := s = u.setReg q v ∧ Hidden u.mode q

theorem State.setReg_comm (s : State) {p q : PhysReg} (h : p ≠ q) (a b : Reg) :
    (s.setReg p a).setReg q b = (s.setReg q b).setReg p a := by
  have hne : (p.index : Nat) ≠ q.index := fun e => h (PhysReg.index_injective (Fin.ext e))
  simp [State.setReg, Vector.set_comm _ _ hne]

theorem State.setReg_getReg (s : State) (q : PhysReg) : s.setReg q (s.getReg q) = s := by
  simp [State.setReg, State.getReg]

theorem State.readReg_setReg_hidden {s : State} {q : PhysReg} (hq : Hidden s.mode q) (v : Reg) (r : RegNum) :
    (s.setReg q v).readReg r = s.readReg r := by
  by_cases hr : r = .r15
  · subst hr
    rfl
  · obtain ⟨p, hp⟩ := bankReg_some hr s.mode
    have hne : q ≠ p := fun e => hq r (e ▸ hp)
    simp [State.readReg, State.unknownWord, State.regValue, hp, State.getReg_setReg_other s v hne]

theorem State.writeReg_setReg_hidden {s : State} {q : PhysReg} (hq : Hidden s.mode q) (v : Reg) (r : RegNum) (x : Word) :
    (s.setReg q v).writeReg r x = (s.writeReg r x).setReg q v := by
  by_cases hr : r = .r15
  · subst hr
    rfl
  · obtain ⟨p, hp⟩ := bankReg_some hr s.mode
    have hne : q ≠ p := fun e => hq r (e ▸ hp)
    rw [State.writeReg_of_bank hp, State.writeReg_of_bank (s := s.setReg q v) hp, State.setReg_comm s hne]

/-- No instruction tells the values of a hidden word apart; one that changes the mode may reveal the word. -/
theorem simulation_differInHidden (q : PhysReg) (v : Reg) :
    Simulation (DifferInHidden q v) (fun s u => s = u.setReg q v) where
  pc h := by rw [h.1]; rfl
  mode h := by rw [h.1]; rfl
  spsrs h := by rw [h.1]; rfl
  mem h := by rw [h.1]; rfl
  params h := by rw [h.1]; rfl
  readReg h r := by rw [h.1, State.readReg_setReg_hidden h.2]
  flag h f := by rw [h.1]; rfl
  knows h f := by rw [h.1]; rfl
  writeReg h r x := ⟨by rw [h.1, State.writeReg_setReg_hidden h.2], by rw [State.writeReg_mode]; exact h.2⟩
  setFlags h o c := ⟨by rw [h.1]; rfl, h.2⟩
  record h e := ⟨by rw [h.1]; rfl, h.2⟩
  withMem h m := ⟨by rw [h.1]; rfl, h.2⟩
  setPc h x := by rw [h.1]; rfl
  rebank h p m x := by rw [h.1]; rfl

/-- Another value in a hidden word goes through every instruction untouched. -/
theorem exec_setReg_hidden {s : State} {q : PhysReg} (hq : Hidden s.mode q) (i : Instr) (v : Reg) :
    exec i (s.setReg q v) = mapNext (fun t => t.setReg q v) (exec i s) := by
  obtain ⟨x, y, hx, hy, hxy⟩ := (simulation_differInHidden q v).exec_agree (u := s) ⟨rfl, hq⟩ i
  rw [hx, hy]
  cases hxy with
  | ok h => rw [h]; rfl
  | error e => cases e <;> rfl

/-- Settles O54: the simulation, and, with the word's own value put back into it, that no instruction changes it. -/
theorem hiddenRegistersAreInert : Obligations.HiddenRegistersAreInert := by
  intro i s q v hq
  refine ⟨exec_setReg_hidden hq i v, fun t ht => ?_⟩
  have hself := exec_setReg_hidden hq i (s.getReg q)
  rw [State.setReg_getReg, ht, mapNext, Host.Outcome.next.injEq] at hself
  rw [hself, State.getReg_setReg_same]

end Sys2Proof.Machine
end

section
/-! Memory: which byte a word write puts where, and the accesses that a step records. -/

namespace Sys2Proof.Machine

/-! ### A word write, byte by byte (R49, R50, R53) -/

/-- A byte lies in the word at `a`, which may wrap at the top of memory, exactly where it is one of its four bytes. -/
theorem sub_toNat_lt_four_iff (a b : Word) : (b - a).toNat < 4 ↔ b = a ∨ b = a + 1 ∨ b = a + 2 ∨ b = a + 3 := by bv_omega

/-- A word write puts the word's bytes at `a` to `a + 3` in little-endian order and leaves every other byte. -/
theorem Memory.readByte_writeWord {m : Memory} (h : Memory.wf m = true) (a b v : Word) :
    Memory.readByte (Memory.writeWord m a v) b =
      if (b - a).toNat < 4 then Bits.byteOf v (b - a).toNat else Memory.readByte m b := by
  split
  case isTrue hb =>
    have h0 := Memory.wf_writeByte h a (Bits.byteOf v 0)
    have h1 := Memory.wf_writeByte h0 (a + 1) (Bits.byteOf v 1)
    have h2 := Memory.wf_writeByte h1 (a + 2) (Bits.byteOf v 2)
    rw [Memory.writeWord, Memory.readByte_writeByte h2, Memory.readByte_writeByte h1, Memory.readByte_writeByte h0,
      Memory.readByte_writeByte h]
    rcases (sub_toNat_lt_four_iff a b).mp hb with rfl | rfl | rfl | rfl <;> simp
  case isFalse hb =>
    rw [sub_toNat_lt_four_iff] at hb
    push Not at hb
    obtain ⟨n0, n1, n2, n3⟩ := hb
    exact Memory.readByte_writeWord_other m v n0.symm n1.symm n2.symm n3.symm

/-- Byte `k` of a word written is byte `k` of the word. -/
theorem Memory.readByte_writeWord_offset {m : Memory} (h : Memory.wf m = true) (a v : Word) {k : Nat} (hk : k < 4) :
    Memory.readByte (Memory.writeWord m a v) (a + BitVec.ofNat 32 k) = Bits.byteOf v k := by
  have hd : (a + BitVec.ofNat 32 k - a).toNat = k := by bv_omega
  rw [Memory.readByte_writeWord h, hd, if_pos hk]

/-- A word is its four bytes (R49). -/
theorem wordOfBytes_byteOf (v : Word) :
    Bits.wordOfBytes (Bits.byteOf v 0) (Bits.byteOf v 1) (Bits.byteOf v 2) (Bits.byteOf v 3) = v := by
  apply BitVec.eq_of_getLsbD_eq
  intro i hi
  simp only [Bits.wordOfBytes, Bits.byteOf, BitVec.getLsbD_append, BitVec.getLsbD_extractLsb']
  interval_cases i <;> simp

/-- A word written reads back. -/
theorem Memory.readWord_writeWord_same {m : Memory} (h : Memory.wf m = true) (a v : Word) :
    Memory.readWord (Memory.writeWord m a v) a = v := by
  simp [Memory.readWord, Memory.readByte_writeWord h, wordOfBytes_byteOf]

/-- Settles O48, from the byte that a read returns after a word write. -/
theorem wordReadAfterWrite : Obligations.WordReadAfterWrite := by
  intro m a v h
  refine ⟨Memory.readWord_writeWord_same h a v, fun k hk => Memory.readByte_writeWord_offset h a v hk, fun b hb => ?_⟩
  rw [Memory.readByte_writeWord h, if_neg (Nat.not_lt.mpr hb)]

/-! ### The record of accesses (R57, R63) -/

/-- The record and memory after an instruction: no access, one read by a load, or one write by a store. -/
theorem Effect.accesses {i : Instr} {s t : State} (e : Effect i s t) :
    (t.events = s.events ∧ t.mem = s.mem) ∨
    (∃ x : MemEvent, x.kind = .read ∧ i.isLoad = true ∧ t.events = s.events ++ [x] ∧ t.mem = s.mem) ∨
    (∃ x : MemEvent, x.kind = .write ∧ i.isStore = true ∧ t.events = s.events ++ [x]) := by
  cases e with
  | ret u v _ hu _ =>
    obtain ⟨_, _, _, _, _, rfl⟩ := State.restoreCpsr_ok hu
    exact .inl ⟨rfl, rfl⟩
  | loadPc x rn a v hi hx _ _ => exact .inr (.inl ⟨x, hx, hi, by simp, by simp⟩)
  | load x rn a rd v hi hx _ _ => exact .inr (.inl ⟨x, hx, hi, by simp, by simp⟩)
  | store m x rn a hi hx _ _ => exact .inr (.inr ⟨x, hx, hi, by simp⟩)
  | _ => exact .inl ⟨by simp, by simp⟩

/-- Settles O52, from the accesses of the instruction that the step runs after its fetch. -/
theorem stepRecordsItsAccesses : Obligations.StepRecordsItsAccesses := by
  intro s t hs
  obtain ⟨_, _, i, hd, he⟩ := step_next hs
  rcases (exec_effect he).accesses with ⟨hev, hmem⟩ | ⟨x, hx, hi, hev, hmem⟩ | ⟨x, hx, hi, hev⟩
  · exact ⟨i, [], hd, hev, by simp, by simp, fun hne => absurd hmem hne⟩
  · exact ⟨i, [x], hd, hev, by simp, by simp [hx, hi], fun hne => absurd hmem hne⟩
  · exact ⟨i, [x], hd, hev, by simp, by simp [hx, hi], fun _ => ⟨x, by simp, hx⟩⟩

end Sys2Proof.Machine
end

section
/-! The candidates of a decode group: the sublists of its symbols, each with its own value, and the words that a group
matches. -/

namespace Sys2Proof

namespace Pattern

/-- The assignments of a list of symbols are its sublists: the symbols set to 1 (R68). -/
theorem assignments_eq_sublists' (cs : List Char) : assignments cs = cs.sublists' := by
  induction cs with
  | nil => rfl
  | cons c cs ih => rw [assignments, ih, List.sublists'_cons]

theorem mem_symbolsFrom {seen template : List Char} {ch : Char} :
    ch ∈ symbolsFrom seen template ↔ ch ∈ template ∧ isWildcard ch = true ∧ ch ∉ seen := by
  induction template generalizing seen with
  | nil => simp [symbolsFrom]
  | cons c cs ih =>
    rw [symbolsFrom]
    by_cases e : ch = c
    · subst e
      split <;> simp_all
    · split <;> simp [ih, e]

theorem nodup_symbolsFrom (seen template : List Char) : (symbolsFrom seen template).Nodup := by
  induction template generalizing seen with
  | nil => simp [symbolsFrom]
  | cons c cs ih =>
    rw [symbolsFrom]
    split
    · exact List.nodup_cons.mpr ⟨by simp [mem_symbolsFrom], ih _⟩
    · exact ih _

/-- The symbols of a template are its wildcard characters (R68). -/
theorem mem_symbols {template : List Char} {ch : Char} : ch ∈ symbols template ↔ ch ∈ template ∧ isWildcard ch = true := by
  simp [symbols, mem_symbolsFrom]

/-- The bit of a template character where the symbols `flags` are set to 1 (R68). -/
def charBit (flags : List Char) (ch : Char) : Bool := ch == '1' || (isWildcard ch && flags.contains ch)

theorem ne_one_of_isWildcard {ch : Char} (h : isWildcard ch = true) : ch ≠ '1' := by
  rintro rfl
  exact absurd h (by decide)

/-- The bit of a wildcard is its symbol's. -/
theorem charBit_of_isWildcard {flags : List Char} {ch : Char} (h : isWildcard ch = true) : charBit flags ch = flags.contains ch := by
  simp [charBit, h, ne_one_of_isWildcard h]

theorem parsebinBits_concat (bs : List Bool) (b : Bool) :
    Bits.parsebinBits (bs ++ [b]) = 2 * Bits.parsebinBits bs + b.toNat := by
  simp [Bits.parsebinBits]

/-- Bit `k` of a binary number is the `k`-th digit from the right. -/
theorem testBit_parsebinBits (bs : List Bool) (k : Nat) : (Bits.parsebinBits bs).testBit k = bs.reverse.getD k false := by
  induction bs using List.reverseRecOn generalizing k with
  | nil => simp [Bits.parsebinBits]
  | append_singleton bs b ih =>
    rw [parsebinBits_concat, List.reverse_append]
    cases k with
    | zero => cases b <;> simp
    | succ k =>
      have h : (2 * Bits.parsebinBits bs + b.toNat) / 2 = Bits.parsebinBits bs := by have := b.toNat_lt; omega
      rw [Nat.testBit_add_one, h, ih]
      simp

theorem testBit_substitute (template flags : List Char) (k : Nat) :
    (substitute template flags).testBit k = (template.reverse[k]?).any (charBit flags) := by
  rw [substitute, testBit_parsebinBits, ← List.map_reverse, List.getD_eq_getElem?_getD, List.getElem?_map]
  cases template.reverse[k]? <;> rfl

/-- The value of a field, bit by bit (R67). -/
theorem testBit_extract (m : Bits.FieldMask) (w : Word) (k : Nat) :
    (m.extract w).toNat.testBit k = (decide (k < m.length.val) && w.getLsbD (m.position.val + k)) := by
  rw [extract_toNat, BitVec.testBit_toNat, BitVec.getLsbD_extractLsb']

/-- A candidate has the word's bits exactly where every template character agrees with its bit (R71). -/
theorem substitute_eq_extract_iff {g : DecodeGroup} (hl : g.mask.length.val = g.template.length) {w : Word} {flags : List Char} :
    substitute g.template flags = (g.mask.extract w).toNat ↔
      ∀ k ch, g.template.reverse[k]? = some ch → w.getLsbD (g.mask.position.val + k) = charBit flags ch := by
  constructor
  · intro h k ch hk
    have hlt : k < g.mask.length.val := by
      rw [hl, ← List.length_reverse]
      exact (List.getElem?_eq_some_iff.mp hk).1
    have := testBit_substitute g.template flags k
    rw [h, testBit_extract, hk] at this
    simpa [hlt] using this
  · intro h
    apply Nat.eq_of_testBit_eq
    intro k
    rw [testBit_substitute, testBit_extract, hl]
    cases hk : g.template.reverse[k]? with
    | none =>
      have : g.template.length ≤ k := by simpa using hk
      simp [this]
    | some ch =>
      have hlt : k < g.template.length := by simpa using (List.getElem?_eq_some_iff.mp hk).1
      simp [hlt, h k ch hk]

theorem mem_candidates {g : DecodeGroup} {c : Candidate} :
    c ∈ candidates g ↔ c.flags.Sublist (symbols g.template) ∧ c.value = substitute g.template c.flags := by
  obtain ⟨v, flags⟩ := c
  simp only [candidates, assignments_eq_sublists', List.mem_map, List.mem_sublists', Candidate.mk.injEq]
  constructor
  · rintro ⟨_, h, rfl, rfl⟩
    exact ⟨h, rfl⟩
  · rintro ⟨h, rfl⟩
    exact ⟨flags, h, rfl, rfl⟩

/-- Assignments that give one value agree on every symbol of the template: it stands somewhere in it. -/
theorem mem_iff_of_substitute_eq {template a b : List Char} (h : substitute template a = substitute template b) {ch : Char}
    (hc : ch ∈ symbols template) : ch ∈ a ↔ ch ∈ b := by
  obtain ⟨hmem, hw⟩ := mem_symbols.mp hc
  obtain ⟨k, hk⟩ := List.mem_iff_getElem?.mp (List.mem_reverse.mpr hmem)
  have hbit := testBit_substitute template a k
  rw [h, testBit_substitute, hk] at hbit
  simpa [charBit_of_isWildcard hw, eq_comm] using hbit

/-- The flags of a candidate are those set to 1 by the assignment: two assignments with one value are the same. -/
theorem substitute_injOn {template a b : List Char} (ha : a.Sublist (symbols template)) (hb : b.Sublist (symbols template))
    (h : substitute template a = substitute template b) : a = b := by
  have hn : (symbols template).Nodup := nodup_symbolsFrom [] template
  refine (hn.perm_iff_eq_of_sublist ha hb).mp ((List.perm_ext_iff_of_nodup (hn.sublist ha) (hn.sublist hb)).mpr fun ch => ?_)
  exact ⟨fun hm => (mem_iff_of_substitute_eq h (ha.subset hm)).mp hm, fun hm => (mem_iff_of_substitute_eq h (hb.subset hm)).mpr hm⟩

/-- In a match the word's bits are those of the template's characters under the candidate's flags (R71). -/
theorem bit_of_matchGroup {g : DecodeGroup} (hl : g.mask.length.val = g.template.length) {w : Word} {c : Candidate}
    (h : matchGroup g w = some c) {k : Nat} {ch : Char} (hk : g.template.reverse[k]? = some ch) :
    w.getLsbD (g.mask.position.val + k) = charBit c.flags ch := by
  obtain ⟨hmem, hv⟩ := matchGroup_some h
  rw [(mem_candidates.mp hmem).2] at hv
  exact (substitute_eq_extract_iff hl).mp hv k ch hk

/-- A group matches where some assignment gives the word's bits: that of the symbols to which it gives 1 (R71). -/
theorem matchGroup_of_val {g : DecodeGroup} (hl : g.mask.length.val = g.template.length) {w : Word} {val : Char → Bool}
    (h : ∀ k ch, g.template.reverse[k]? = some ch →
      w.getLsbD (g.mask.position.val + k) = (ch == '1' || (isWildcard ch && val ch))) :
    ∃ c, matchGroup g w = some c := by
  have hflags : ((symbols g.template).filter val).Sublist (symbols g.template) := List.filter_sublist
  have hv : substitute g.template ((symbols g.template).filter val) = (g.mask.extract w).toNat := by
    refine (substitute_eq_extract_iff hl).mpr fun k ch hk => ?_
    have hmem : ch ∈ g.template := List.mem_reverse.mp (List.mem_of_getElem? hk)
    rw [h k ch hk, charBit]
    cases hw : isWildcard ch <;> simp [mem_symbols, hw, hmem]
  rw [← Option.ne_none_iff_exists', ne_eq, matchGroup_none]
  intro hnone
  exact hnone ⟨_, _⟩ (mem_candidates.mpr ⟨hflags, rfl⟩) hv

end Pattern

/-- Settles O2: the candidates are the assignments, each with its own value. -/
theorem groupCandidatesDistinct : Obligations.GroupCandidatesDistinct := by
  intro g
  have hn : (Pattern.symbols g.template).Nodup := Pattern.nodup_symbolsFrom [] g.template
  rw [Pattern.candidates, Pattern.assignments_eq_sublists']
  refine ⟨by rw [List.length_map, List.length_sublists'], List.pairwise_map.mpr ?_⟩
  refine (List.nodup_sublists'.mpr hn).imp_of_mem fun ha hb hne heq => hne ?_
  exact Pattern.substitute_injOn (List.mem_sublists'.mp ha) (List.mem_sublists'.mp hb) heq

/-- Settles O3: a match is a candidate with the word's bits, and its symbols' bits are then its flags. -/
theorem groupMatchesItsTemplate : Obligations.GroupMatchesItsTemplate := by
  intro g w hl _
  refine ⟨⟨fun ⟨c, hc⟩ => ⟨c.flags.contains, fun k ch hk => Pattern.bit_of_matchGroup hl hc hk⟩,
    fun ⟨val, h⟩ => Pattern.matchGroup_of_val hl h⟩, fun c hc k ch hk hw => ?_⟩
  rw [Pattern.bit_of_matchGroup hl hc hk, Pattern.charBit_of_isWildcard hw]

end Sys2Proof
end

section
/-! The rows of the instruction table: each matches the words with its fixed bits, no two match one word, and a match
reads each flag at its symbol's place; so what a word decodes to is a matter of the entries' fixed bits. -/

namespace Sys2Proof

open Sys2Proof.Machine

/-! ### Plain patterns -/

/-- The characters of a pattern's templates, each with the number of the word's bit at which it stands (R65, R68). -/
def Pattern.chars (p : Pattern) : List (Nat × Char) :=
  p.groups.flatMap fun g => g.template.reverse.zipIdx.map fun x => (g.mask.position.val + x.2, x.1)

/-- The bit at which a symbol stands, for the first of its places. -/
def Pattern.place (p : Pattern) (ch : Char) : Nat :=
  match p.chars.find? (·.2 == ch) with
  | some (i, _) => i
  | none => 0

/-- The field map that reads each flag at its symbol's place (R71, R73). -/
def Pattern.fieldMapAt (p : Pattern) (w : Word) : FieldMap :=
  { flags := (flagNames p).map fun ch => (ch, w.getLsbD (p.place ch))
    fields := p.fields.map fun f => (f.1, f.2.extract w) }

/-- A pattern whose groups have their templates' lengths, and in which no symbol stands at two places. -/
def Pattern.Plain (p : Pattern) : Prop :=
  (∀ g ∈ p.groups, g.mask.length.val = g.template.length) ∧
  ∀ a ∈ p.chars, ∀ b ∈ p.chars, isWildcard a.2 = true → a.2 = b.2 → a.1 = b.1

theorem plain_of_mem_instructionTable : ∀ r ∈ instructionTable, r.pattern.Plain := by
  unfold Pattern.Plain
  decide

/-! ### What a plain pattern matches -/

namespace Pattern

theorem mem_chars {p : Pattern} {i : Nat} {ch : Char} :
    (i, ch) ∈ p.chars ↔ ∃ g ∈ p.groups, ∃ k, g.template.reverse[k]? = some ch ∧ g.mask.position.val + k = i := by
  simp only [chars, List.mem_flatMap, List.mem_map, List.mem_zipIdx_iff_getElem?, Prod.exists, Prod.mk.injEq]
  constructor
  · rintro ⟨g, hg, c, k, hk, hi, rfl⟩
    exact ⟨g, hg, k, hk, hi⟩
  · rintro ⟨g, hg, k, hk, hi⟩
    exact ⟨g, hg, ch, k, hk, hi, rfl⟩

/-- A symbol stands at its place, and nowhere else in a plain pattern. -/
theorem Plain.place_eq {p : Pattern} (hp : p.Plain) {i : Nat} {ch : Char} (h : (i, ch) ∈ p.chars) (hw : isWildcard ch = true) :
    p.place ch = i := by
  unfold place
  split
  · rename_i j c hf
    obtain rfl : c = ch := by simpa using List.find?_some hf
    exact hp.2 (j, c) (List.mem_of_find?_eq_some hf) (i, c) h hw rfl
  · rename_i hf
    exact absurd (List.find?_eq_none.mp hf (i, ch) h) (by simp)

theorem matchGroups_isSome_iff {gs : List DecodeGroup} {w : Word} :
    (matchGroups gs w).isSome = true ↔ ∀ g ∈ gs, ∃ c, matchGroup g w = some c := by
  induction gs with
  | nil => simp [matchGroups]
  | cons g gs ih =>
    rw [matchGroups]
    cases h : matchGroup g w with
    | none => simp [h]
    | some c => simp [h, ih]

/-- The flags of a pattern are those of its groups' candidates (R71). -/
theorem mem_of_matchGroups {gs : List DecodeGroup} {w : Word} {flags : List Char} (h : matchGroups gs w = some flags) {ch : Char} :
    ch ∈ flags ↔ ∃ g ∈ gs, ∃ c, matchGroup g w = some c ∧ ch ∈ c.flags := by
  induction gs generalizing flags with
  | nil => simp_all [matchGroups]
  | cons g gs ih =>
    rw [matchGroups] at h
    cases hg : matchGroup g w with
    | none => simp [hg] at h
    | some c =>
      simp only [hg, Option.map_eq_some_iff] at h
      obtain ⟨rest, hrest, rfl⟩ := h
      simp [hg, ih hrest]

/-- A plain pattern matches a word that has its literal bits: its symbols can be the bits at their places (R71). -/
theorem Plain.isSome_matchWord {p : Pattern} (hp : p.Plain) {w : Word}
    (h : ∀ x ∈ p.chars, isWildcard x.2 = false → w.getLsbD x.1 = (x.2 == '1')) : (p.matchWord w).isSome = true := by
  rw [matchWord, Option.isSome_map, matchGroups_isSome_iff]
  intro g hg
  refine matchGroup_of_val (val := fun ch => w.getLsbD (p.place ch)) (hp.1 g hg) fun k ch hk => ?_
  have hmem : (g.mask.position.val + k, ch) ∈ p.chars := mem_chars.mpr ⟨g, hg, k, hk, rfl⟩
  cases hw : isWildcard ch with
  | false => simpa using h _ hmem hw
  | true => simp [ne_one_of_isWildcard hw, hp.place_eq hmem hw]

/-- The candidate of a group of a plain pattern sets a symbol of the group where the bit at the symbol's place is 1. -/
theorem Plain.mem_flags_of_matchGroup {p : Pattern} (hp : p.Plain) {g : DecodeGroup} (hg : g ∈ p.groups) {w : Word}
    {c : Candidate} (h : matchGroup g w = some c) {ch : Char} (hs : ch ∈ symbols g.template) :
    ch ∈ c.flags ↔ w.getLsbD (p.place ch) = true := by
  obtain ⟨hmem, hw⟩ := mem_symbols.mp hs
  obtain ⟨k, hk⟩ := List.mem_iff_getElem?.mp (List.mem_reverse.mpr hmem)
  rw [hp.place_eq (mem_chars.mpr ⟨g, hg, k, hk, rfl⟩) hw, bit_of_matchGroup (hp.1 g hg) h hk, charBit_of_isWildcard hw,
    List.contains_iff_mem]

/-- In a match of a plain pattern the flags are the symbols whose places have the bit 1 (R71). -/
theorem Plain.mem_flags_of_matchGroups {p : Pattern} (hp : p.Plain) {w : Word} {flags : List Char}
    (h : matchGroups p.groups w = some flags) {ch : Char} (hs : ch ∈ flagNames p) :
    ch ∈ flags ↔ w.getLsbD (p.place ch) = true := by
  rw [mem_of_matchGroups h]
  constructor
  · rintro ⟨g, hg, c, hc, hch⟩
    have hsub := (mem_candidates.mp (matchGroup_some hc).1).1
    exact (hp.mem_flags_of_matchGroup hg hc (hsub.subset hch)).mp hch
  · intro hbit
    obtain ⟨hmem, hw⟩ := mem_symbols.mp hs
    obtain ⟨g, hg, hch⟩ := List.mem_flatMap.mp hmem
    obtain ⟨c, hc⟩ := matchGroups_isSome_iff.mp (Option.isSome_of_eq_some h) g hg
    exact ⟨g, hg, c, hc, (hp.mem_flags_of_matchGroup hg hc (mem_symbols.mpr ⟨hch, hw⟩)).mpr hbit⟩

/-- A match of a plain pattern reads each flag at its symbol's place. -/
theorem Plain.matchWord_eq {p : Pattern} (hp : p.Plain) {w : Word} {f : FieldMap} (h : p.matchWord w = some f) :
    f = p.fieldMapAt w := by
  obtain ⟨flags, hflags, rfl⟩ := Option.map_eq_some_iff.mp h
  have hflag : ∀ ch ∈ flagNames p, (ch, flags.contains ch) = (ch, w.getLsbD (p.place ch)) := by
    intro ch hch
    rw [Prod.mk.injEq, Bool.eq_iff_iff, List.contains_iff_mem, hp.mem_flags_of_matchGroups hflags hch]
    exact ⟨rfl, Iff.rfl⟩
  rw [fieldMapAt, List.map_congr_left hflag]

end Pattern

/-! ### The rows -/

/-- Where a row's literals stand, the opcode table's mask has the bit, and its match the literal's value. -/
theorem fixedBits_of_literal : ∀ r ∈ instructionTable, ∀ x ∈ r.pattern.chars, Pattern.isWildcard x.2 = false →
    r.entry.fixedBits.1.getLsbD x.1 = true ∧ r.entry.fixedBits.2.getLsbD x.1 = (x.2 == '1') := by
  decide

theorem isSome_matchWord_iff {r : TableRow} (hr : r ∈ instructionTable) {w : Word} :
    (r.matchWord w).isSome = true ↔ w &&& r.entry.fixedBits.1 = r.entry.fixedBits.2 := by
  constructor
  · intro h
    obtain ⟨f, hf⟩ := Option.isSome_iff_exists.mp h
    exact and_fixedBits_of_matchWord hr hf
  · intro h
    refine (plain_of_mem_instructionTable r hr).isSome_matchWord fun x hx hw => ?_
    obtain ⟨hm, hv⟩ := fixedBits_of_literal r hr x hx hw
    rw [← hv, ← h, BitVec.getLsbD_and, hm, Bool.and_true]

/-- Settles O4, from the literals of the row's pattern: the symbols take whatever bits the word has. -/
theorem rowsMatchTheirFixedBits : Obligations.RowsMatchTheirFixedBits :=
  fun _ hr _ => isSome_matchWord_iff hr

/-- Two masks' parts of one word agree in the bits that both masks have. -/
theorem no_clash_of_fixedBits {w m v m' v' : Word} (h : w &&& m = v) (h' : w &&& m' = v') : m &&& m' &&& (v ^^^ v') = 0 := by
  subst h h'
  apply BitVec.eq_of_getLsbD_eq
  intro i _
  simp only [BitVec.getLsbD_and, BitVec.getLsbD_xor]
  cases w.getLsbD i <;> cases m.getLsbD i <;> cases m'.getLsbD i <;> simp

/-- A row is the one row of its entry. -/
theorem row_eq_of_entry_eq {r r' : TableRow} (hr : r ∈ instructionTable) (hr' : r' ∈ instructionTable)
    (h : r.entry = r'.entry) : r = r' :=
  List.inj_on_of_nodup_map (f := TableRow.entry) (by decide) hr hr' h

/-- Any two entries of the table fix some bit with different values. -/
theorem fixedBits_clash : ∀ e ∈ instructionTable.map TableRow.entry, ∀ e' ∈ instructionTable.map TableRow.entry, e ≠ e' →
    e.fixedBits.1 &&& e'.fixedBits.1 &&& (e.fixedBits.2 ^^^ e'.fixedBits.2) ≠ 0 := by
  decide

theorem fixedBits_clash_of_ne {r r' : TableRow} (hr : r ∈ instructionTable) (hr' : r' ∈ instructionTable) (hne : r ≠ r') :
    r.entry.fixedBits.1 &&& r'.entry.fixedBits.1 &&& (r.entry.fixedBits.2 ^^^ r'.entry.fixedBits.2) ≠ 0 :=
  fixedBits_clash _ (List.mem_map_of_mem hr) _ (List.mem_map_of_mem hr') fun h => hne (row_eq_of_entry_eq hr hr' h)

/-- At most one row matches a word (R75). -/
theorem row_eq_of_isSome_matchWord {r r' : TableRow} (hr : r ∈ instructionTable) (hr' : r' ∈ instructionTable) {w : Word}
    (h : (r.matchWord w).isSome = true) (h' : (r'.matchWord w).isSome = true) : r = r' := by
  by_contra hne
  exact fixedBits_clash_of_ne hr hr' hne
    (no_clash_of_fixedBits ((isSome_matchWord_iff hr).mp h) ((isSome_matchWord_iff hr').mp h'))

/-- The scan returns the row that matches (R75). -/
theorem scanTable_of_matchWord {r : TableRow} (hr : r ∈ instructionTable) {w : Word} {f : FieldMap} (h : r.matchWord w = some f) :
    scanTable w = some (r.entry, f) := by
  cases hs : scanTable w with
  | none => simp [scanRows_none.mp hs r hr] at h
  | some ef =>
    obtain ⟨r', hr', he, hf⟩ := scanRows_some hs
    obtain rfl := row_eq_of_isSome_matchWord hr hr' (Option.isSome_of_eq_some h) (Option.isSome_of_eq_some hf)
    rw [h, Option.some.injEq] at hf
    rw [he, hf]

/-- Settles O5: a bit that two rows fix differently keeps them from matching one word. -/
theorem tableRowsDisjoint : Obligations.TableRowsDisjoint :=
  ⟨fun _ hr _ hr' => fixedBits_clash_of_ne hr hr', fun _ hr _ hr' _ => row_eq_of_isSome_matchWord hr hr',
    fun _ hr _ _ => scanTable_of_matchWord hr⟩

/-! ### The decoder, by entries -/

/-- The pattern of an entry's row. -/
def TableEntry.pattern (e : TableEntry) : Pattern :=
  match instructionTable.find? (·.entry == e) with
  | some r => r.pattern
  | none => ⟨[], []⟩

/-- Every entry has its row. -/
theorem TableEntry.exists_row (e : TableEntry) : ∃ r ∈ instructionTable, r.entry = e := by
  cases e <;> decide

theorem pattern_entry {r : TableRow} (hr : r ∈ instructionTable) : r.entry.pattern = r.pattern := by
  unfold TableEntry.pattern
  split
  · rename_i r' hf
    rw [row_eq_of_entry_eq (List.mem_of_find?_eq_some hf) hr (by simpa using List.find?_some hf)]
  · rename_i hf
    exact absurd (List.find?_eq_none.mp hf r hr) (by simp)

/-- An instruction decoded is that of an entry whose fixed bits the word has, its flags and fields read at their places. -/
theorem decodeWord_eq_some_iff {w : Word} {i : Instr} :
    decodeWord w = some i ↔ ∃ e : TableEntry, w &&& e.fixedBits.1 = e.fixedBits.2 ∧ i = e.build (e.pattern.fieldMapAt w) := by
  constructor
  · intro h
    obtain ⟨r, hr, f, hf, rfl⟩ := decodeWord_some h
    have hfix := (isSome_matchWord_iff hr).mp (Option.isSome_of_eq_some hf)
    exact ⟨r.entry, hfix, by rw [pattern_entry hr, (plain_of_mem_instructionTable r hr).matchWord_eq hf]⟩
  · rintro ⟨e, hfix, rfl⟩
    obtain ⟨r, hr, rfl⟩ := e.exists_row
    obtain ⟨f, hf⟩ := Option.isSome_iff_exists.mp ((isSome_matchWord_iff hr).mpr hfix)
    rw [decodeWord, scanTable_of_matchWord hr hf, pattern_entry hr, (plain_of_mem_instructionTable r hr).matchWord_eq hf]

end Sys2Proof
end

section
/-! The formats: a word is a format's encoding of given fields exactly where its slices are those fields, so that an
encoding determines its fields and a word with a format's kind bits is the encoding of its own fields. -/

namespace Sys2Proof

/-! ### The numberings (R83, R85) -/

@[simp] theorem Cond.toBits_ofBits (v : BitVec 4) : (Cond.ofBits v).toBits = v := by revert v; decide

@[simp] theorem RegNum.toBits_ofBits (v : BitVec 4) : (RegNum.ofBits v).toBits = v := by revert v; decide

@[simp] theorem ShiftType.toBits_ofBits (v : BitVec 2) : (ShiftType.ofBits v).toBits = v := by revert v; decide

@[simp] theorem Cond.ofBits_toBits (c : Cond) : Cond.ofBits c.toBits = c := by cases c <;> rfl

@[simp] theorem RegNum.ofBits_toBits (r : RegNum) : RegNum.ofBits r.toBits = r := by cases r <;> rfl

@[simp] theorem ShiftType.ofBits_toBits (t : ShiftType) : ShiftType.ofBits t.toBits = t := by cases t <;> rfl

@[simp] theorem Cond.toBits_inj {c c' : Cond} : c.toBits = c'.toBits ↔ c = c' :=
  (Function.LeftInverse.injective Cond.ofBits_toBits).eq_iff

@[simp] theorem RegNum.toBits_inj {r r' : RegNum} : r.toBits = r'.toBits ↔ r = r' :=
  (Function.LeftInverse.injective RegNum.ofBits_toBits).eq_iff

@[simp] theorem ShiftType.toBits_inj {t t' : ShiftType} : t.toBits = t'.toBits ↔ t = t' :=
  (Function.LeftInverse.injective ShiftType.ofBits_toBits).eq_iff

/-! ### Slices of a word -/

theorem eq_iff_extractLsb' {n : Nat} {w v : BitVec n} : w = v ↔ w.extractLsb' 0 n = v := by rw [BitVec.extractLsb'_eq_self]

/-- A slice is two parts put together where its upper bits are the one and its lower bits the other. -/
theorem extractLsb'_eq_append_iff {n p a b : Nat} {w : BitVec n} {x : BitVec a} {y : BitVec b} :
    w.extractLsb' p (a + b) = x ++ y ↔ w.extractLsb' (p + b) a = x ∧ w.extractLsb' p b = y := by
  rw [← BitVec.extractLsb'_append_extractLsb'_eq_extractLsb' rfl]
  refine ⟨fun h => ⟨?_, ?_⟩, fun ⟨hx, hy⟩ => by rw [hx, hy]⟩
  · simpa only [BitVec.extractLsb'_append_eq_left] using congrArg (BitVec.extractLsb' b a) h
  · simpa only [BitVec.extractLsb'_append_eq_right] using congrArg (BitVec.extractLsb' 0 b) h

theorem extractLsb'_eq_bitOf_iff {n i : Nat} {w : BitVec n} {b : Bool} : w.extractLsb' i 1 = bitOf b ↔ w.getLsbD i = b := by
  rw [BitVec.eq_of_getLsbD_eq_iff]
  simp [bitOf]

/-- Where a mask has all the bits of a slice, the slice of a masked word is the word's. -/
theorem slice_of_and {w m v : Word} (h : w &&& m = v) {p n : Nat} {x : BitVec n} (hm : m.extractLsb' p n = BitVec.allOnes n)
    (hv : v.extractLsb' p n = x) : w.extractLsb' p n = x := by
  rw [← hv, ← h, BitVec.extractLsb'_and, hm, BitVec.and_allOnes]

theorem bit_of_and {w m v : Word} (h : w &&& m = v) {i : Nat} {b : Bool} (hm : m.getLsbD i = true)
    (hv : v.getLsbD i = b) : w.getLsbD i = b := by
  rw [← hv, ← h, BitVec.getLsbD_and, hm, Bool.and_true]

/-! ### The formats, slice by slice -/

section

variable {c : Cond} {w : Word}

/-- Format DP (R76). -/
theorem eq_encodeDp_iff {op rn rd : BitVec 4} {s : Bool} {op2 : Operand2} :
    w = encodeDp c op s rn rd op2 ↔
      w.extractLsb' 28 4 = c.toBits ∧ w.extractLsb' 26 2 = 0b00#2 ∧ w.getLsbD 25 = op2.immediate ∧
      w.extractLsb' 21 4 = op ∧ w.getLsbD 20 = s ∧ w.extractLsb' 16 4 = rn ∧ w.extractLsb' 12 4 = rd ∧
      w.extractLsb' 0 12 = op2.toBits := by
  refine (eq_iff_extractLsb' (n := 4 + 2 + 1 + 4 + 1 + 4 + 4 + 12)).trans ?_
  simp only [encodeDp, extractLsb'_eq_append_iff, -Nat.reduceAdd]
  simp only [extractLsb'_eq_bitOf_iff, and_assoc]

/-- Format BR (R80). -/
theorem eq_encodeBr_iff {l : BitVec 1} {offset : BitVec 24} :
    w = encodeBr c l offset ↔
      w.extractLsb' 28 4 = c.toBits ∧ w.extractLsb' 25 3 = 0b101#3 ∧ w.extractLsb' 24 1 = l ∧ w.extractLsb' 0 24 = offset := by
  refine (eq_iff_extractLsb' (n := 4 + 3 + 1 + 24)).trans ?_
  simp only [encodeBr, extractLsb'_eq_append_iff, -Nat.reduceAdd]
  simp only [and_assoc]

/-- Format LSI (R78). -/
theorem eq_encodeLsi_iff {p u wb : Bool} {b l : BitVec 1} {rn rd : RegNum} {offset : BitVec 12} :
    w = encodeLsi c p u b wb l rn rd offset ↔
      w.extractLsb' 28 4 = c.toBits ∧ w.extractLsb' 25 3 = 0b010#3 ∧ w.getLsbD 24 = p ∧ w.getLsbD 23 = u ∧
      w.extractLsb' 22 1 = b ∧ w.getLsbD 21 = wb ∧ w.extractLsb' 20 1 = l ∧ w.extractLsb' 16 4 = rn.toBits ∧
      w.extractLsb' 12 4 = rd.toBits ∧ w.extractLsb' 0 12 = offset := by
  refine (eq_iff_extractLsb' (n := 4 + 3 + 1 + 1 + 1 + 1 + 1 + 4 + 4 + 12)).trans ?_
  simp only [encodeLsi, extractLsb'_eq_append_iff, -Nat.reduceAdd]
  simp only [extractLsb'_eq_bitOf_iff, and_assoc]

/-- Format LSR (R79). -/
theorem eq_encodeLsr_iff {p u wb : Bool} {b l : BitVec 1} {rn rd rm : RegNum} {amount : BitVec 5} {type : ShiftType} :
    w = encodeLsr c p u b wb l rn rd amount type rm ↔
      w.extractLsb' 28 4 = c.toBits ∧ w.extractLsb' 25 3 = 0b011#3 ∧ w.getLsbD 24 = p ∧ w.getLsbD 23 = u ∧
      w.extractLsb' 22 1 = b ∧ w.getLsbD 21 = wb ∧ w.extractLsb' 20 1 = l ∧ w.extractLsb' 16 4 = rn.toBits ∧
      w.extractLsb' 12 4 = rd.toBits ∧ w.extractLsb' 7 5 = amount ∧ w.extractLsb' 5 2 = type.toBits ∧
      w.extractLsb' 4 1 = 0#1 ∧ w.extractLsb' 0 4 = rm.toBits := by
  refine (eq_iff_extractLsb' (n := 4 + 3 + 1 + 1 + 1 + 1 + 1 + 4 + 4 + 5 + 2 + 1 + 4)).trans ?_
  simp only [encodeLsr, extractLsb'_eq_append_iff, -Nat.reduceAdd]
  simp only [extractLsb'_eq_bitOf_iff, and_assoc]

/-- Format CDP (R81). -/
theorem eq_encodeCdp_iff {opc1 crn crd cpNum crm : BitVec 4} {opc2 : BitVec 3} :
    w = encodeCdp c opc1 crn crd cpNum opc2 crm ↔
      w.extractLsb' 28 4 = c.toBits ∧ w.extractLsb' 24 4 = 0b1110#4 ∧ w.extractLsb' 20 4 = opc1 ∧
      w.extractLsb' 16 4 = crn ∧ w.extractLsb' 12 4 = crd ∧ w.extractLsb' 8 4 = cpNum ∧ w.extractLsb' 5 3 = opc2 ∧
      w.extractLsb' 4 1 = 0#1 ∧ w.extractLsb' 0 4 = crm := by
  refine (eq_iff_extractLsb' (n := 4 + 4 + 4 + 4 + 4 + 4 + 3 + 1 + 4)).trans ?_
  simp only [encodeCdp, extractLsb'_eq_append_iff, -Nat.reduceAdd]
  simp only [and_assoc]

/-- Format MRT (R82). -/
theorem eq_encodeMrt_iff {opc1 opc2 : BitVec 3} {l : BitVec 1} {crn cpNum crm : BitVec 4} {rd : RegNum} :
    w = encodeMrt c opc1 l crn rd cpNum opc2 crm ↔
      w.extractLsb' 28 4 = c.toBits ∧ w.extractLsb' 24 4 = 0b1110#4 ∧ w.extractLsb' 21 3 = opc1 ∧
      w.extractLsb' 20 1 = l ∧ w.extractLsb' 16 4 = crn ∧ w.extractLsb' 12 4 = rd.toBits ∧ w.extractLsb' 8 4 = cpNum ∧
      w.extractLsb' 5 3 = opc2 ∧ w.extractLsb' 4 1 = 1#1 ∧ w.extractLsb' 0 4 = crm := by
  refine (eq_iff_extractLsb' (n := 4 + 4 + 3 + 1 + 4 + 4 + 4 + 3 + 1 + 4)).trans ?_
  simp only [encodeMrt, extractLsb'_eq_append_iff, -Nat.reduceAdd]
  simp only [and_assoc]

end

/-! ### `operand2` (R77) -/

namespace Operand2

variable {v : BitVec 12}

theorem eq_toBits_imm_iff {rotate : BitVec 4} {immed : BitVec 8} :
    v = (Operand2.imm rotate immed).toBits ↔ v.extractLsb' 8 4 = rotate ∧ v.extractLsb' 0 8 = immed :=
  (eq_iff_extractLsb' (n := 4 + 8)).trans extractLsb'_eq_append_iff

theorem eq_toBits_immShift_iff {amount : BitVec 5} {type : ShiftType} {rm : RegNum} :
    v = (Operand2.immShift amount type rm).toBits ↔
      v.extractLsb' 7 5 = amount ∧ v.extractLsb' 5 2 = type.toBits ∧ v.getLsbD 4 = false ∧ v.extractLsb' 0 4 = rm.toBits := by
  refine (eq_iff_extractLsb' (n := 5 + 2 + 1 + 4)).trans ?_
  simp only [toBits, extractLsb'_eq_append_iff, -Nat.reduceAdd]
  simp only [← extractLsb'_eq_bitOf_iff, and_assoc]
  rfl

theorem eq_toBits_regShift_iff {type : ShiftType} {rs rm : RegNum} :
    v = (Operand2.regShift rs type rm).toBits ↔
      v.extractLsb' 8 4 = rs.toBits ∧ v.getLsbD 7 = false ∧ v.extractLsb' 5 2 = type.toBits ∧ v.getLsbD 4 = true ∧
      v.extractLsb' 0 4 = rm.toBits := by
  refine (eq_iff_extractLsb' (n := 4 + 1 + 2 + 1 + 4)).trans ?_
  simp only [toBits, extractLsb'_eq_append_iff, -Nat.reduceAdd]
  simp only [← extractLsb'_eq_bitOf_iff, and_assoc]
  rfl

theorem eq_toBits_unsupported_iff {hi lo : BitVec 4} {mid : BitVec 2} :
    v = (Operand2.unsupported hi mid lo).toBits ↔
      v.extractLsb' 8 4 = hi ∧ v.getLsbD 7 = true ∧ v.extractLsb' 5 2 = mid ∧ v.getLsbD 4 = true ∧ v.extractLsb' 0 4 = lo := by
  refine (eq_iff_extractLsb' (n := 4 + 1 + 2 + 1 + 4)).trans ?_
  simp only [toBits, extractLsb'_eq_append_iff, -Nat.reduceAdd]
  simp only [← extractLsb'_eq_bitOf_iff, and_assoc]
  rfl

/-- Any I bit and any field are those of the operand read from them. -/
theorem bits_ofFields (b : Bool) (v : BitVec 12) : b = (ofFields b v).immediate ∧ v = (ofFields b v).toBits := by
  unfold ofFields
  cases b with
  | true => exact ⟨rfl, eq_toBits_imm_iff.mpr ⟨rfl, rfl⟩⟩
  | false =>
    cases h4 : v.getLsbD 4 with
    | false => exact ⟨rfl, eq_toBits_immShift_iff.mpr ⟨rfl, (ShiftType.toBits_ofBits _).symm, h4, (RegNum.toBits_ofBits _).symm⟩⟩
    | true =>
      cases h7 : v.getLsbD 7 with
      | false => exact ⟨rfl, eq_toBits_regShift_iff.mpr
        ⟨(RegNum.toBits_ofBits _).symm, h7, (ShiftType.toBits_ofBits _).symm, h4, (RegNum.toBits_ofBits _).symm⟩⟩
      | true => exact ⟨rfl, eq_toBits_unsupported_iff.mpr ⟨rfl, h7, rfl, h4, rfl⟩⟩

/-- An operand is read back from its I bit and its field. -/
theorem ofFields_bits (op2 : Operand2) : ofFields op2.immediate op2.toBits = op2 := by
  generalize h : op2.toBits = v
  unfold ofFields
  cases op2 with
  | imm rotate immed =>
    obtain ⟨hr, hi⟩ := eq_toBits_imm_iff.mp h.symm
    rw [immediate, if_pos rfl, hr, hi]
  | immShift amount type rm =>
    obtain ⟨ha, ht, h4, hm⟩ := eq_toBits_immShift_iff.mp h.symm
    simp only [immediate, Bool.false_eq_true, if_false, h4, ha, ht, hm, ShiftType.ofBits_toBits, RegNum.ofBits_toBits]
  | regShift rs type rm =>
    obtain ⟨hs, h7, ht, h4, hm⟩ := eq_toBits_regShift_iff.mp h.symm
    simp only [immediate, Bool.false_eq_true, if_false, if_true, h4, h7, hs, ht, hm, ShiftType.ofBits_toBits, RegNum.ofBits_toBits]
  | unsupported hi mid lo =>
    obtain ⟨hh, h7, hm, h4, hl⟩ := eq_toBits_unsupported_iff.mp h.symm
    simp only [immediate, Bool.false_eq_true, if_false, if_true, h4, h7, hh, hm, hl]

/-- The I bit and the field determine the operand. -/
theorem bits_inj {a b : Operand2} : a.immediate = b.immediate ∧ a.toBits = b.toBits ↔ a = b := by
  refine ⟨fun ⟨hi, hv⟩ => ?_, fun h => by simp [h]⟩
  rw [← ofFields_bits a, hi, hv, ofFields_bits b]

end Operand2

/-! ### A format's word determines its fields -/

theorem encodeDp_inj {c c' : Cond} {op op' rn rn' rd rd' : BitVec 4} {s s' : Bool} {a b : Operand2} :
    encodeDp c op s rn rd a = encodeDp c' op' s' rn' rd' b ↔ c = c' ∧ op = op' ∧ s = s' ∧ rn = rn' ∧ rd = rd' ∧ a = b := by
  have h := eq_encodeDp_iff.mp (Eq.refl (encodeDp c op s rn rd a))
  rw [eq_encodeDp_iff]
  simp only [h, Cond.toBits_inj, true_and, ← Operand2.bits_inj]
  tauto

theorem encodeBr_inj {c c' : Cond} {l l' : BitVec 1} {offset offset' : BitVec 24} :
    encodeBr c l offset = encodeBr c' l' offset' ↔ c = c' ∧ l = l' ∧ offset = offset' := by
  have h := eq_encodeBr_iff.mp (Eq.refl (encodeBr c l offset))
  rw [eq_encodeBr_iff]
  simp only [h, Cond.toBits_inj, true_and]

theorem encodeLsi_inj {c c' : Cond} {p p' u u' wb wb' : Bool} {b b' l l' : BitVec 1} {rn rn' rd rd' : RegNum} {o o' : BitVec 12} :
    encodeLsi c p u b wb l rn rd o = encodeLsi c' p' u' b' wb' l' rn' rd' o' ↔
      c = c' ∧ p = p' ∧ u = u' ∧ b = b' ∧ wb = wb' ∧ l = l' ∧ rn = rn' ∧ rd = rd' ∧ o = o' := by
  have h := eq_encodeLsi_iff.mp (Eq.refl (encodeLsi c p u b wb l rn rd o))
  rw [eq_encodeLsi_iff]
  simp only [h, Cond.toBits_inj, RegNum.toBits_inj, true_and]

theorem encodeLsr_inj {c c' : Cond} {p p' u u' wb wb' : Bool} {b b' l l' : BitVec 1} {rn rn' rd rd' rm rm' : RegNum}
    {amount amount' : BitVec 5} {t t' : ShiftType} :
    encodeLsr c p u b wb l rn rd amount t rm = encodeLsr c' p' u' b' wb' l' rn' rd' amount' t' rm' ↔
      c = c' ∧ p = p' ∧ u = u' ∧ b = b' ∧ wb = wb' ∧ l = l' ∧ rn = rn' ∧ rd = rd' ∧ amount = amount' ∧ t = t' ∧ rm = rm' := by
  have h := eq_encodeLsr_iff.mp (Eq.refl (encodeLsr c p u b wb l rn rd amount t rm))
  rw [eq_encodeLsr_iff]
  simp only [h, Cond.toBits_inj, RegNum.toBits_inj, ShiftType.toBits_inj, true_and]

theorem encodeCdp_inj {c c' : Cond} {opc1 opc1' crn crn' crd crd' cp cp' crm crm' : BitVec 4} {opc2 opc2' : BitVec 3} :
    encodeCdp c opc1 crn crd cp opc2 crm = encodeCdp c' opc1' crn' crd' cp' opc2' crm' ↔
      c = c' ∧ opc1 = opc1' ∧ crn = crn' ∧ crd = crd' ∧ cp = cp' ∧ opc2 = opc2' ∧ crm = crm' := by
  have h := eq_encodeCdp_iff.mp (Eq.refl (encodeCdp c opc1 crn crd cp opc2 crm))
  rw [eq_encodeCdp_iff]
  simp only [h, Cond.toBits_inj, true_and]

theorem encodeMrt_inj {c c' : Cond} {opc1 opc1' opc2 opc2' : BitVec 3} {l l' : BitVec 1} {crn crn' cp cp' crm crm' : BitVec 4}
    {rd rd' : RegNum} :
    encodeMrt c opc1 l crn rd cp opc2 crm = encodeMrt c' opc1' l' crn' rd' cp' opc2' crm' ↔
      c = c' ∧ opc1 = opc1' ∧ l = l' ∧ crn = crn' ∧ rd = rd' ∧ cp = cp' ∧ opc2 = opc2' ∧ crm = crm' := by
  have h := eq_encodeMrt_iff.mp (Eq.refl (encodeMrt c opc1 l crn rd cp opc2 crm))
  rw [eq_encodeMrt_iff]
  simp only [h, Cond.toBits_inj, RegNum.toBits_inj, true_and]

/-- Among the instructions of one entry, whatever field map they are built from, the word determines the instruction. -/
theorem build_eq_of_encode_eq {i : Instr} {f : FieldMap} (h : encode (i.entry.build f) = encode i) : i.entry.build f = i := by
  cases i with
  | and | eor | sub | rsb | add | adc | sbc | rsc | tst | teq | cmp | cmn | orr | mov | bic | mvn =>
    simpa [Instr.entry, TableEntry.build, encode, encodeDp_inj] using h
  | b | bl => simpa [Instr.entry, TableEntry.build, encode, encodeBr_inj] using h
  | strImm | ldrImm | strbImm | ldrbImm => simpa [Instr.entry, TableEntry.build, encode, encodeLsi_inj] using h
  | strReg | ldrReg | strbReg | ldrbReg => simpa [Instr.entry, TableEntry.build, encode, encodeLsr_inj] using h
  | cdp => simpa [Instr.entry, TableEntry.build, encode, encodeCdp_inj] using h
  | mcr | mrc => simpa [Instr.entry, TableEntry.build, encode, encodeMrt_inj] using h

/-! ### The encoding of a word's fields -/

/-- The field of `n` bits at `p` as a match reads it: extracted, and cut to its width (R67). -/
def fieldAt (w : Word) (p n : Fin 32) : BitVec n := (Bits.FieldMask.extract ⟨p, n⟩ w).setWidth n

theorem fieldAt_eq (w : Word) (p n : Fin 32) : fieldAt w p n = w.extractLsb' p n := extract_setWidth ⟨p, n⟩ w

theorem cond_fieldAt (w : Word) : w.extractLsb' 28 4 = (Cond.ofBits (fieldAt w 28 4)).toBits := by
  rw [Cond.toBits_ofBits]
  exact (fieldAt_eq w 28 4).symm

theorem reg_fieldAt (w : Word) (p : Fin 32) : w.extractLsb' p 4 = (RegNum.ofBits (fieldAt w p 4)).toBits := by
  rw [RegNum.toBits_ofBits]
  exact (fieldAt_eq w p 4).symm

/-- A word with the kind bits of Format DP is encoded from its fields. -/
theorem eq_encodeDp_fields {w : Word} {op rn rd : BitVec 4} {s : Bool} (hk : w.extractLsb' 26 2 = 0b00#2)
    (ho : w.extractLsb' 21 4 = op) (hs : w.getLsbD 20 = s) (hn : w.extractLsb' 16 4 = rn) (hd : w.extractLsb' 12 4 = rd) :
    w = encodeDp (Cond.ofBits (fieldAt w 28 4)) op s rn rd (Operand2.ofFields (w.getLsbD 25) (fieldAt w 0 12)) := by
  obtain ⟨hi, h2⟩ := Operand2.bits_ofFields (w.getLsbD 25) (fieldAt w 0 12)
  exact eq_encodeDp_iff.mpr ⟨cond_fieldAt w, hk, hi, ho, hs, hn, hd, (fieldAt_eq w 0 12).symm.trans h2⟩

theorem eq_encodeBr_fields {w : Word} {l : BitVec 1} (hk : w.extractLsb' 25 3 = 0b101#3) (hl : w.extractLsb' 24 1 = l) :
    w = encodeBr (Cond.ofBits (fieldAt w 28 4)) l (fieldAt w 0 24) :=
  eq_encodeBr_iff.mpr ⟨cond_fieldAt w, hk, hl, (fieldAt_eq w 0 24).symm⟩

theorem eq_encodeLsi_fields {w : Word} {b l : BitVec 1} (hk : w.extractLsb' 25 3 = 0b010#3) (hb : w.extractLsb' 22 1 = b)
    (hl : w.extractLsb' 20 1 = l) :
    w = encodeLsi (Cond.ofBits (fieldAt w 28 4)) (w.getLsbD 24) (w.getLsbD 23) b (w.getLsbD 21) l
      (RegNum.ofBits (fieldAt w 16 4)) (RegNum.ofBits (fieldAt w 12 4)) (fieldAt w 0 12) :=
  eq_encodeLsi_iff.mpr ⟨cond_fieldAt w, hk, rfl, rfl, hb, rfl, hl, reg_fieldAt w 16, reg_fieldAt w 12, (fieldAt_eq w 0 12).symm⟩

theorem eq_encodeLsr_fields {w : Word} {b l : BitVec 1} (hk : w.extractLsb' 25 3 = 0b011#3) (hb : w.extractLsb' 22 1 = b)
    (hl : w.extractLsb' 20 1 = l) (h4 : w.extractLsb' 4 1 = 0#1) :
    w = encodeLsr (Cond.ofBits (fieldAt w 28 4)) (w.getLsbD 24) (w.getLsbD 23) b (w.getLsbD 21) l
      (RegNum.ofBits (fieldAt w 16 4)) (RegNum.ofBits (fieldAt w 12 4)) (fieldAt w 7 5) (ShiftType.ofBits (fieldAt w 5 2))
      (RegNum.ofBits (fieldAt w 0 4)) :=
  eq_encodeLsr_iff.mpr ⟨cond_fieldAt w, hk, rfl, rfl, hb, rfl, hl, reg_fieldAt w 16, reg_fieldAt w 12, (fieldAt_eq w 7 5).symm,
    (fieldAt_eq w 5 2).symm.trans (ShiftType.toBits_ofBits _).symm, h4, reg_fieldAt w 0⟩

theorem eq_encodeCdp_fields {w : Word} (hk : w.extractLsb' 24 4 = 0b1110#4) (h4 : w.extractLsb' 4 1 = 0#1) :
    w = encodeCdp (Cond.ofBits (fieldAt w 28 4)) (fieldAt w 20 4) (fieldAt w 16 4) (fieldAt w 12 4) (fieldAt w 8 4)
      (fieldAt w 5 3) (fieldAt w 0 4) :=
  eq_encodeCdp_iff.mpr ⟨cond_fieldAt w, hk, (fieldAt_eq w 20 4).symm, (fieldAt_eq w 16 4).symm, (fieldAt_eq w 12 4).symm,
    (fieldAt_eq w 8 4).symm, (fieldAt_eq w 5 3).symm, h4, (fieldAt_eq w 0 4).symm⟩

theorem eq_encodeMrt_fields {w : Word} {l : BitVec 1} (hk : w.extractLsb' 24 4 = 0b1110#4) (hl : w.extractLsb' 20 1 = l)
    (h4 : w.extractLsb' 4 1 = 1#1) :
    w = encodeMrt (Cond.ofBits (fieldAt w 28 4)) (fieldAt w 21 3) l (fieldAt w 16 4) (RegNum.ofBits (fieldAt w 12 4))
      (fieldAt w 8 4) (fieldAt w 5 3) (fieldAt w 0 4) :=
  eq_encodeMrt_iff.mpr ⟨cond_fieldAt w, hk, (fieldAt_eq w 21 3).symm, hl, (fieldAt_eq w 16 4).symm, reg_fieldAt w 12,
    (fieldAt_eq w 8 4).symm, (fieldAt_eq w 5 3).symm, h4, (fieldAt_eq w 0 4).symm⟩

/-- A word with the fixed bits of an entry is the encoding of the instruction that the entry builds from its fields. -/
theorem encode_build {e : TableEntry} {w : Word} (h : w &&& e.fixedBits.1 = e.fixedBits.2) :
    encode (e.build (e.pattern.fieldMapAt w)) = w := by
  symm
  cases e with
  | and | eor | sub | rsb | add | adc | sbc | rsc | orr | bic =>
    exact eq_encodeDp_fields (slice_of_and h rfl rfl) (slice_of_and h rfl rfl) rfl (reg_fieldAt w 16) (reg_fieldAt w 12)
  | tst | teq | cmp | cmn =>
    exact eq_encodeDp_fields (slice_of_and h rfl rfl) (slice_of_and h rfl rfl) (bit_of_and h rfl rfl)
      (reg_fieldAt w 16) (slice_of_and h rfl rfl)
  | mov | mvn =>
    exact eq_encodeDp_fields (slice_of_and h rfl rfl) (slice_of_and h rfl rfl) rfl (slice_of_and h rfl rfl)
      (reg_fieldAt w 12)
  | b | bl => exact eq_encodeBr_fields (slice_of_and h rfl rfl) (slice_of_and h rfl rfl)
  | strImm | ldrImm | strbImm | ldrbImm =>
    exact eq_encodeLsi_fields (slice_of_and h rfl rfl) (slice_of_and h rfl rfl) (slice_of_and h rfl rfl)
  | strReg | ldrReg | strbReg | ldrbReg =>
    exact eq_encodeLsr_fields (slice_of_and h rfl rfl) (slice_of_and h rfl rfl) (slice_of_and h rfl rfl)
      (slice_of_and h rfl rfl)
  | cdp => exact eq_encodeCdp_fields (slice_of_and h rfl rfl) (slice_of_and h rfl rfl)
  | mcr | mrc =>
    exact eq_encodeMrt_fields (slice_of_and h rfl rfl) (slice_of_and h rfl rfl) (slice_of_and h rfl rfl)

end Sys2Proof
end

section
/-! The encoder and the decoder are inverse to each other, and what follows for single words: the examples, and the
words of the unsupported operand form. -/

namespace Sys2Proof

open Sys2Proof.Machine Sys2Proof.Claims

/-! ### The round trips -/

/-- The word of an instruction has the fixed bits of its entry. -/
theorem encode_fixedBits (i : Instr) : Laws.FixedBits.Statement i := by
  cases i with
  | and | eor | sub | rsb | add | adc | sbc | rsc | orr | bic => exact (Laws.FixedBits.encodeDp_opcode ..).trans rfl
  | tst | teq | cmp | cmn => exact (Laws.FixedBits.encodeDp_compare ..).trans rfl
  | mov | mvn => exact (Laws.FixedBits.encodeDp_move ..).trans rfl
  | b | bl => exact (Laws.FixedBits.encodeBr_link ..).trans rfl
  | strImm | ldrImm | strbImm | ldrbImm => exact (Laws.FixedBits.encodeLsi_kind ..).trans rfl
  | strReg | ldrReg | strbReg | ldrbReg => exact (Laws.FixedBits.encodeLsr_kind ..).trans rfl
  | cdp => exact (Laws.FixedBits.encodeCdp_kind ..).trans rfl
  | mcr | mrc => exact (Laws.FixedBits.encodeMrt_kind ..).trans rfl

/-- A word decodes to an instruction exactly where it is that instruction's encoding. -/
theorem decodeWord_eq_some_iff_encode {w : Word} {i : Instr} : decodeWord w = some i ↔ encode i = w := by
  rw [decodeWord_eq_some_iff]
  constructor
  · rintro ⟨e, hfix, rfl⟩
    exact encode_build hfix
  · rintro rfl
    have hfix : encode i &&& i.entry.fixedBits.1 = i.entry.fixedBits.2 := encode_fixedBits i
    exact ⟨i.entry, hfix, (build_eq_of_encode_eq (encode_build hfix)).symm⟩

/-- What a word decodes to, its four bytes decode to, whatever follows them (R48, R97). -/
theorem decode_bytesOf {w : Word} {i : Instr} (h : decodeWord w = some i) (rest : List Byte) :
    decode (bytesOf w ++ rest) = .ok (i, rest) := by
  change decode (Bits.byteOf w 0 :: Bits.byteOf w 1 :: Bits.byteOf w 2 :: Bits.byteOf w 3 :: rest) = _
  rw [decode, wordOfBytes_byteOf, h]

/-- Settles O6. The encoding has its entry's fixed bits, so it decodes to an instruction of that entry with the same
encoding, and the encoding determines the fields. -/
theorem decodeOfEncode : Obligations.DecodeOfEncode := by
  intro i
  have h : decodeWord (encode i) = some i := decodeWord_eq_some_iff_encode.mpr rfl
  exact ⟨h, decode_bytesOf h⟩

/-- Settles O7. A decoded word is the encoding of the fields read from it: the fixed bits and the fields are all of it. -/
theorem encodeOfDecode : Obligations.EncodeOfDecode :=
  fun _ _ => decodeWord_eq_some_iff_encode.mp

/-- Settles O8: each word is the encoding of its instruction. -/
theorem exampleWordsDecode : Obligations.ExampleWordsDecode := by
  simp only [Obligations.ExampleWordsDecode, decodeWord_eq_some_iff_encode]
  decide

/-- Settles O1, by running the reader and the compiler on the characters of the 29 descriptions. -/
theorem tableDescriptionsCompile : Obligations.TableDescriptionsCompile := by
  refine ⟨rfl, ?_⟩
  simp only [instructionTable, dataProcessingRows, branchRows, loadStoreRows, coprocessorRows, List.forall_mem_append,
    List.forall_mem_cons, String.reduceToList]
  decide

/-! ### The unsupported operand form (R92) -/

/-- An operand with I = 0 and bits 4 and 7 set is the unsupported form (R77). -/
theorem isUnsupported_of_bits {op2 : Operand2} (hi : op2.immediate = false) (h4 : op2.toBits.getLsbD 4 = true)
    (h7 : op2.toBits.getLsbD 7 = true) : isUnsupported op2 = true := by
  rw [← Operand2.ofFields_bits op2, Operand2.ofFields, hi, h4, h7]
  rfl

/-- The word of a data-processing instruction is of Format DP, with the instruction's operand. -/
theorem encode_of_dpView {i : Instr} {v : DpView} (h : dpView i = some v) :
    ∃ op s rn rd, encode i = encodeDp i.cond op s rn rd v.op2 := by
  cases i <;> cases h <;> exact ⟨_, _, _, _, rfl⟩

theorem dpCheck_of_isUnsupported {op2 : Operand2} (h : isUnsupported op2 = true) (regs : List RegNum) :
    dpCheck op2 regs = some (.refusal .unsupportedEncoding) := by
  cases op2 with
  | unsupported => rfl
  | _ => simp [isUnsupported] at h

/-- A step that starts an instruction executes what its word decodes to (R104). -/
theorem step_of_starts {s : State} {i : Instr} (h : Starts s) (hd : decodeWord (fetchWord s) = some i) :
    step s = exec i s.fetched := by
  obtain ⟨ht, ha⟩ := h
  rw [step, ht, if_neg Bool.false_ne_true, if_neg (not_not.mpr (low2_eq_zero_iff.mpr ha)), hd]

/-- Settles O15: the word is the instruction's encoding, so its bits 25, 4 and 7 are those of the operand, which is then
the unsupported form and fails the field check. -/
theorem unsupportedOperandStops : Obligations.UnsupportedOperandStops := by
  intro s i hs hd hv h25 h4 h7
  obtain ⟨v, hv⟩ := Option.isSome_iff_exists.mp hv
  obtain ⟨op, sf, rn, rd, he⟩ := encode_of_dpView hv
  have hw : fetchWord s = encodeDp i.cond op sf rn rd v.op2 := (decodeWord_eq_some_iff_encode.mp hd).symm.trans he
  obtain ⟨-, -, himm, -, -, -, -, hbits⟩ := eq_encodeDp_iff.mp hw
  have hbit : ∀ k < 12, v.op2.toBits.getLsbD k = (fetchWord s).getLsbD k := by
    intro k hk
    rw [← hbits, BitVec.getLsbD_extractLsb', Nat.zero_add, decide_eq_true hk, Bool.true_and]
  have hu : isUnsupported v.op2 = true :=
    isUnsupported_of_bits (himm.symm.trans h25) ((hbit 4 (by decide)).trans h4) ((hbit 7 (by decide)).trans h7)
  obtain ⟨regs, hcheck⟩ := check_of_dpView hv
  rw [step_of_starts hs hd, exec_eq_runGated, hcheck, dpCheck_of_isUnsupported hu]
  rfl

/-! ### Conditions (R112) -/

/-- The flags that a condition reads are those that its formula names. -/
theorem condNames_of_mem_condReads (c : Cond) : ∀ f, f ∈ condReads c → condNames c f = true := by
  cases c <;> decide

theorem condHolds_eq_condFormula (c : Cond) : ∀ n z cf v, c ≠ .nv → condHolds c n z cf v = condFormula c n z cf v := by
  cases c <;> decide

/-- Settles O9: no flag that the condition reads is unknown, so it is its formula. -/
theorem conditionTable : Obligations.ConditionTable := by
  refine ⟨by decide, fun c p hc hk => ?_, fun p => rfl⟩
  have hnone : (condReads c).find? (fun f => !p.knowsFlag f) = none :=
    List.find?_eq_none.mpr fun f hf => by simp [hk f (condNames_of_mem_condReads c f hf)]
  rw [conditionPassed, hnone, condHolds_eq_condFormula c _ _ _ _ hc]

end Sys2Proof
end

section
/-! The gate of an instruction: which of its checks answers in a state, before the body runs.  With the step around it:
what a step executes, and what it reports as handled. -/

namespace Sys2Proof.Machine

open Sys2Proof.Claims

/-! ### The field checks -/

theorem runGated_of_check (stop : Stop) (c : Cond) (body : State → Except Stop State) (s : State) :
    runGated (some stop) c body s = outcome (.error stop) := rfl

/-- Where no field check stops it, an instruction with condition code 15 is stopped by its condition (R113). -/
theorem runGated_nv (body : State → Except Stop State) (s : State) :
    runGated none .nv body s = .fault .unknownCondition := rfl

/-- The stop of a field check is the one that the claims name for its problem. -/
theorem outcome_problemOf (p : FormProblem) : outcome (.error (problemOf p)) = problemStop p := by cases p <;> rfl

theorem problems_of_isCoprocessor {i : Instr} (h : i.isCoprocessor = true) : i.problems = [] := by
  cases i with
  | cdp | mcr | mrc => rfl
  | _ => simp [Instr.isCoprocessor] at h

theorem cond_problems_eq_cons {c : Cond} {p : FormProblem} {rest : List FormProblem} (h : c.problems = p :: rest) :
    c = .nv ∧ p = .reservedCondition := by
  obtain rfl : c = .nv := by
    by_contra hc
    simp [cond_problems_eq_nil.mpr hc] at h
  exact ⟨rfl, (List.cons.inj h).1.symm⟩

/-- Settles O13. The first problem is that of the check of stages 5 to 7 or, where this has none, the reserved
condition code, which is looked at next. -/
theorem fieldProblemStopsEveryState : Obligations.FieldProblemStopsEveryState := by
  intro i p rest h s
  have hi : i.isCoprocessor = false := by
    by_contra hi
    simp [problems_of_isCoprocessor (eq_true_of_ne_false hi)] at h
  obtain ⟨ps, hps, hcheck⟩ := problems_split hi
  rw [exec_eq_runGated, hcheck]
  cases ps with
  | cons q qs =>
    obtain rfl : q = p := (List.cons.inj (hps.symm.trans h)).1
    exact outcome_problemOf q
  | nil =>
    obtain ⟨hc, rfl⟩ := cond_problems_eq_cons (hps.symm.trans h)
    rw [hc]
    exact runGated_nv (body i) s

/-! ### The condition -/

/-- Settles O11. A gated instruction that completes has another condition code, and where 15 is the first problem of the
fields, it is what stops the instruction. -/
theorem reservedConditionNeverRuns : Obligations.ReservedConditionNeverRuns := by
  intro i s _ hnv
  refine ⟨fun t ht => ?_, fun hp => fieldProblemStopsEveryState i .reservedCondition [] hp s⟩
  rw [exec_eq_runGated] at ht
  obtain ⟨-, hne, -⟩ := runGated_next.mp ht
  exact hne hnv

/-- Settles O12: an admitted instruction reaches the condition, and where this fails the pc alone changes (R107). -/
theorem failedConditionOnlyAdvances : Obligations.FailedConditionOnlyAdvances := by
  intro i s hw hi hf
  obtain ⟨hcheck, hnv⟩ := (wellFormed_iff hi).mp hw
  rw [exec_eq_runGated, hcheck, runGated_fail hnv hf]
  rfl

/-- A condition reads the flags that its formula names, in the order N, Z, C, V (R112, R175). -/
theorem condReads_eq_filter (c : Cond) : condReads c = flagOrder.filter (condNames c) := by cases c <;> rfl

/-- A condition stops on the first unknown flag that its formula names. -/
theorem conditionPassed_of_unknown {c : Cond} {p : Psr} {f : Flag}
    (h : (flagOrder.filter (condNames c)).find? (fun g => !p.knowsFlag g) = some f) :
    conditionPassed c p = .error (.fault (.unknownRead (.flag f))) := by
  rw [conditionPassed, condReads_eq_filter, h]

/-- A gated instruction that is admitted and whose condition stops, stops with it. -/
theorem runGated_of_condition {c : Cond} {body : State → Except Stop State} {s : State} {stop : Stop} (hc : c ≠ .nv)
    (h : conditionPassed c s.cpsr = .error stop) : runGated none c body s = outcome (.error stop) := by
  simp [runGated, hc, h]

/-- Settles O10: an admitted instruction reaches the condition, which reads the flags in order; where all of them are
known the condition is its formula (O9). -/
theorem unknownFlagStopsCondition : Obligations.UnknownFlagStopsCondition := by
  intro i s hw hi
  obtain ⟨hcheck, hnv⟩ := (wellFormed_iff hi).mp hw
  obtain ⟨-, hformula, -⟩ := conditionTable
  refine ⟨fun f hf => ?_, fun hk => ⟨_, hformula i.cond s.cpsr hnv hk⟩⟩
  rw [exec_eq_runGated, hcheck, runGated_of_condition hnv (conditionPassed_of_unknown hf)]
  rfl

/-! ### The step around the gate -/

/-- Settles O49: stages 1 and 2 let the step through, and the state after the fetch differs in its record alone. -/
theorem stepRunsDecodedInstruction : Obligations.StepRunsDecodedInstruction :=
  fun _ _ hs hd => step_of_starts hs hd

/-- Of the codes of R169 only that of `Done` is 0. -/
theorem reportOf_code_eq_zero {o : Host.Outcome State Fault Refusal} {w : Option Word} :
    (reportOf o w).code = 0 ↔ ∃ t, o = .next t := by
  cases o with
  | next t => simp [reportOf]
  | fault f => cases f <;> simp [reportOf]
  | refused r => cases r <;> simp [reportOf]

/-- Settles O51: a step is handled where the code that it reports is 0. -/
theorem handledExactlyWhenDone : Obligations.HandledExactlyWhenDone := by
  intro s
  rw [handled, beq_iff_eq]
  exact reportOf_code_eq_zero

end Sys2Proof.Machine
end

section
/-! The shifter operand (R116 to R123): an operand that is readable gives the shift of its value, and each shift is the
formula of its table. -/

namespace Sys2Proof.Machine

open Sys2Proof.Claims

/-! ### Reads of the shifter -/

/-- A flag that is unknown stops its read (R41). -/
theorem State.readFlag_of_unknown {s : State} {f : Flag} (h : s.cpsr.knowsFlag f ≠ true) :
    s.readFlag f = .error (.fault (.unknownRead (.flag f))) := if_neg h

theorem shifter_immShift_of_readable {s : State} {rm : RegNum} (h : Readable s rm) (n : BitVec 5) (type : ShiftType) :
    shifter (.immShift n type rm) s = immediateShift type n (s.regValue rm) s := by
  rw [shifter, State.readReg_of_known h]
  rfl

theorem shifter_regShift_of_readable {s : State} {rm rs : RegNum} (hm : Readable s rm) (hs : Readable s rs) (type : ShiftType) :
    shifter (.regShift rs type rm) s = .ok (registerShift s.params.rorRegLarge type (s.regValue rm) (s.regValue rs)) := by
  rw [shifter, State.readReg_of_known hm, State.readReg_of_known hs]
  rfl

/-! ### Shifts as arithmetic -/

/-- The shifts of the model are the multiplication, the divisions and the rotation (R118, right-hand column). -/
theorem shiftBy_eq_shifted (type : ShiftType) (m : Word) {n : Nat} (h : n < 32) : shiftBy type m n = shifted type m n := by
  cases type with
  | lsl =>
    have : m <<< n = BitVec.ofNat 32 (m.toNat * 2 ^ n) := BitVec.eq_of_toNat_eq (by simp [Nat.shiftLeft_eq])
    rw [shiftBy, this, shifted]
  | lsr =>
    have : m >>> n = BitVec.ofNat 32 (m.toNat / 2 ^ n) := by
      rw [← Nat.shiftRight_eq_div_pow, ← BitVec.toNat_ushiftRight, BitVec.ofNat_toNat, BitVec.setWidth_eq]
    rw [shiftBy, this, shifted]
  | asr =>
    have : m.sshiftRight n = BitVec.ofInt 32 (m.toInt / 2 ^ n) := by
      rw [BitVec.sshiftRight, Int.shiftRight_eq_div_pow]
      norm_cast
    rw [shiftBy, this, shifted]
  | ror => rw [shiftBy, rotateRight32_eq m h, shifted]

/-- RRX puts C above bits 31:1 (R118). -/
theorem rrx_eq (m : Word) (c : Bool) : rrx m c = ⟨throughCarry c m, .bit (m.getLsbD 0)⟩ := by
  have hop : ((BitVec.ofBool c).setWidth 32 <<< 31) ||| (m >>> 1) = throughCarry c m := by
    apply BitVec.eq_of_getLsbD_eq
    intro i hi
    by_cases h31 : i = 31
    · subst h31
      simp [throughCarry, BitVec.getElem_cons]
    · have hlt : i < 31 := by omega
      simp [throughCarry, BitVec.getLsbD_cons, h31, hlt, Nat.add_comm]
  rw [rrx, hop]
  rfl

theorem extractLsb'_zero_toNat (v : Word) (k : Nat) : (v.extractLsb' 0 k).toNat = v.toNat % 2 ^ k := by
  rw [BitVec.extractLsb'_toNat, Nat.shiftRight_zero]

/-- Only RRX reads C (R118, R125). -/
theorem immediateShift_rrx (m : Word) (s : State) :
    immediateShift .ror 0 m s = (s.readFlag .c >>= fun c => .ok (rrx m c)) := rfl

theorem immediateShift_of_ne_zero {amount : BitVec 5} (h : amount ≠ 0) (type : ShiftType) (m : Word) (s : State) :
    immediateShift type amount m s = .ok (shiftBy type m amount.toNat) := if_neg h

/-! ### Register shifts, by the low byte of Rs -/

/-- A register shift by 32 or more (R122, R123). -/
def largeShift (rule : RorRegLarge) (type : ShiftType) (m rs : Word) : ShiftOut :=
  match type with
  | .lsl => ⟨0, .bit (decide (rs.toNat % 256 = 32) && m.getLsbD 0)⟩
  | .lsr => ⟨0, .bit (decide (rs.toNat % 256 = 32) && m.getLsbD 31)⟩
  | .asr => ⟨if m.getLsbD 31 then 0xFFFFFFFF else 0, .bit (m.getLsbD 31)⟩
  | .ror => rorLarge rule m rs

section
variable {rule : RorRegLarge} {type : ShiftType} {m rs : Word}

theorem registerShift_of_zero (h : rs.toNat % 256 = 0) : registerShift rule type m rs = ⟨m, .currentC⟩ := by
  simp only [registerShift, extractLsb'_zero_toNat, Nat.reducePow, h, if_true]

theorem registerShift_of_lt (h1 : 1 ≤ rs.toNat % 256) (h31 : rs.toNat % 256 ≤ 31) :
    registerShift rule type m rs = shifted type m (rs.toNat % 256) := by
  have hne : rs.toNat % 256 ≠ 0 := by omega
  have hlt : rs.toNat % 256 < 32 := by omega
  simp only [registerShift, extractLsb'_zero_toNat, Nat.reducePow, hne, hlt, if_true, if_false, shiftBy_eq_shifted]

theorem registerShift_of_ge (h : 32 ≤ rs.toNat % 256) : registerShift rule type m rs = largeShift rule type m rs := by
  have hne : rs.toNat % 256 ≠ 0 := by omega
  have hlt : ¬ rs.toNat % 256 < 32 := by omega
  simp only [registerShift, extractLsb'_zero_toNat, Nat.reducePow, hne, hlt, if_false]
  cases type <;> rfl

end

/-- ROR by 32 or more under DOC rotates by bits 3:0 of Rs (R122). -/
theorem rorLarge_doc (m rs : Word) : rorLarge .doc m rs =
    if rs.toNat % 16 = 0 then ⟨0, .bit (m.getLsbD 31)⟩
    else ⟨m.rotateRight (rs.toNat % 16), .bit (m.getLsbD (rs.toNat % 16 - 1))⟩ := by
  have hlt : rs.toNat % 16 < 32 := by omega
  simp only [rorLarge, extractLsb'_zero_toNat, Nat.reducePow, rotateRight32_eq m hlt]
  rfl

/-- ROR by 32 or more under ARMV4 rotates by bits 4:0 of Rs (R123). -/
theorem rorLarge_armv4 (m rs : Word) : rorLarge .armv4 m rs =
    if rs.toNat % 32 = 0 then ⟨m, .bit (m.getLsbD 31)⟩
    else ⟨m.rotateRight (rs.toNat % 32), .bit (m.getLsbD (rs.toNat % 32 - 1))⟩ := by
  have hlt : rs.toNat % 32 < 32 := by omega
  simp only [rorLarge, extractLsb'_zero_toNat, Nat.reducePow, rotateRight32_eq m hlt]
  rfl

/-! ### The three forms of the operand -/

/-- Settles O18: the rotation by twice the rotate field, at most 30, is that of a 32-bit word. -/
theorem immediateOperandRotates : Obligations.ImmediateOperandRotates := by
  intro rotate immed s
  have hlt : 2 * rotate.toNat < 32 := by have := rotate.isLt; omega
  have hz : Bits.zext immed = BitVec.ofNat 32 immed.toNat := (BitVec.ofNat_toNat 32 immed).symm
  rw [shifter, immediateOperand, rotateRight32_eq _ hlt, hz]
  rfl

/-- Settles O19: a readable Rm leaves the table of R118, where RRX alone reads C. -/
theorem immediateShiftTable : Obligations.ImmediateShiftTable := by
  intro s rm hrm
  simp only [shifter_immShift_of_readable hrm]
  refine ⟨rfl, rfl, rfl, fun hc => ?_, fun hc => ?_, fun n type hn => ?_⟩
  · rw [immediateShift_rrx, State.readFlag_of_known hc, ← rrx_eq]
    rfl
  · rw [immediateShift_rrx, State.readFlag_of_unknown hc]
    rfl
  · rw [immediateShift_of_ne_zero hn, shiftBy_eq_shifted type _ n.isLt]

/-- Settles O20: readable Rm and Rs leave the shift by the low byte of Rs, one rule for each range of it. -/
theorem registerShiftByLowByte : Obligations.RegisterShiftByLowByte := by
  intro s rm rs type hm hs
  simp only [shifter_regShift_of_readable hm hs, Except.ok.injEq]
  refine ⟨registerShift_of_zero, registerShift_of_lt, fun h32 => ?_, fun h33 => ?_, fun hge => ?_, fun hge hrule => ?_,
    fun hge hrule => ?_⟩
  · rw [registerShift_of_ge h32.ge]
    constructor <;> rintro rfl <;> simp [largeShift, h32]
  · rw [registerShift_of_ge (Nat.le_of_succ_le h33)]
    constructor <;> rintro rfl <;> simp [largeShift, Nat.ne_of_gt h33]
  · rw [registerShift_of_ge hge]
    rintro rfl
    rfl
  · rw [registerShift_of_ge hge, hrule]
    constructor <;> rintro h0 rfl <;> simp [largeShift, rorLarge_doc, h0]
  · rw [registerShift_of_ge hge, hrule]
    constructor <;> rintro h0 rfl <;> simp [largeShift, rorLarge_armv4, h0]

end Sys2Proof.Machine
end

section
/-! Addition with carry and subtraction as exact arithmetic (R127, R128): the result truncates the exact value, and C and
V say where the truncation loses something, unsigned and signed. -/

namespace Sys2Proof.Machine

open Sys2Proof.Claims

/-! ### Exact values and their truncation -/

/-- Carry out of an addition (R127). -/
theorem exactSum_c (a b : Word) (cin : Bool) :
    (exactSum a b cin).c = decide (0xFFFFFFFF < (exactSum a b cin).unsigned) := rfl

/-- NOT borrow of a subtraction (R128). -/
theorem exactDifference_c (a b : Word) (cin : Bool) :
    (exactDifference a b cin).c = decide (0 ≤ (exactDifference a b cin).unsigned) := rfl

/-- The exact sum fits 33 bits. -/
theorem exactSum_unsigned_bounds (a b : Word) (cin : Bool) :
    0 ≤ (exactSum a b cin).unsigned ∧ (exactSum a b cin).unsigned < 2 ^ 33 := by
  have := Bool.toNat_le cin
  simp only [exactSum]
  omega

/-- The result and C of an addition are bits 31:0 and bit 32 of the exact sum. -/
theorem exactSum_result_add_c (a b : Word) (cin : Bool) :
    ((exactSum a b cin).result.toNat + 2 ^ 32 * (exactSum a b cin).c.toNat : Int) = (exactSum a b cin).unsigned := by
  obtain ⟨h0, hlt⟩ := exactSum_unsigned_bounds a b cin
  have hr : ((exactSum a b cin).result.toNat : Int) = (exactSum a b cin).unsigned % 2 ^ 32 := by
    rw [Exact.result, BitVec.toNat_ofInt]
    omega
  rw [hr, exactSum_c]
  by_cases h : 0xFFFFFFFF < (exactSum a b cin).unsigned
  · rw [decide_eq_true h, Bool.toNat_true]
    omega
  · rw [decide_eq_false h, Bool.toNat_false]
    omega

/-- The result read as signed is congruent to the exact signed value, so it is this value where V finds it in range. -/
theorem Exact.v_iff_result_ne {e : Exact} (h : (2 ^ 32 : Int) ∣ e.signed - e.unsigned) :
    e.v = true ↔ e.result.toInt ≠ e.signed := by
  rw [Exact.v, decide_eq_true_eq, Exact.result, BitVec.toInt_ofInt, Ne, Int.bmod_eq_iff (by decide)]
  omega

/-- A word read as signed and as unsigned differ by a multiple of 2^32. -/
theorem dvd_toInt_sub_toNat (a : Word) : (2 ^ 32 : Int) ∣ a.toInt - a.toNat := by
  rw [BitVec.toInt_eq_toNat_cond]
  split <;> omega

theorem exactSum_dvd (a b : Word) (cin : Bool) :
    (2 ^ 32 : Int) ∣ (exactSum a b cin).signed - (exactSum a b cin).unsigned := by
  have ha := dvd_toInt_sub_toNat a
  have hb := dvd_toInt_sub_toNat b
  simp only [exactSum]
  omega

/-! ### Addition -/

/-- `AddWithCarry` is the exact sum with its truncation, C and V (R127). -/
theorem addWithCarry_eq_exactSum (a b : Word) (cin : Bool) :
    addWithCarry a b cin = ⟨(exactSum a b cin).result, some ((exactSum a b cin).c, (exactSum a b cin).v)⟩ := by
  have hcast : (exactSum a b cin).unsigned = ((a.toNat + b.toNat + cin.toNat : Nat) : Int) := by simp [exactSum]
  have hr : (exactSum a b cin).result = BitVec.ofNat 32 (a.toNat + b.toNat + cin.toNat) := by
    rw [Exact.result, hcast, BitVec.ofInt_natCast]
  have hc : (exactSum a b cin).c = decide (a.toNat + b.toNat + cin.toNat > 0xFFFFFFFF) := by
    rw [exactSum_c, hcast]
    exact decide_eq_decide.mpr (by omega)
  rw [hr, hc]
  rfl

/-- Settles O21: `AddWithCarry` is the exact sum, which fits 33 bits and, signed, is congruent to the unsigned one. -/
theorem addWithCarryExact : Obligations.AddWithCarryExact := by
  intro a b cin
  rw [addWithCarry_eq_exactSum]
  refine ⟨_, _, rfl, ?_, Exact.v_iff_result_ne (exactSum_dvd a b cin)⟩
  have hsum := exactSum_result_add_c a b cin
  have hdef : (exactSum a b cin).unsigned = a.toNat + b.toNat + cin.toNat := rfl
  dsimp only
  omega

/-! ### Subtraction -/

/-- Unsigned, the complement of b is 2^32 - 1 - b: the sum with it is the difference, and 2^32 above it. -/
theorem exactSum_not_unsigned (a b : Word) (cin : Bool) :
    (exactSum a (~~~b) cin).unsigned = (exactDifference a b cin).unsigned + 2 ^ 32 := by
  simp only [exactSum, exactDifference, BitVec.toNat_not]
  omega

/-- Signed, the complement of b is -1 - b. -/
theorem exactSum_not_signed (a b : Word) (cin : Bool) :
    (exactSum a (~~~b) cin).signed = (exactDifference a b cin).signed := by
  have hb : (~~~b).toInt = -1 - b.toInt := by
    simp only [BitVec.toInt_eq_toNat_cond, BitVec.toNat_not]
    split <;> split <;> omega
  simp only [exactSum, exactDifference, hb]
  omega

/-- `SubWithCarry` is the exact difference with its truncation, C and V (R128). -/
theorem subWithCarry_eq_exactDifference (a b : Word) (cin : Bool) : subWithCarry a b cin =
    ⟨(exactDifference a b cin).result, some ((exactDifference a b cin).c, (exactDifference a b cin).v)⟩ := by
  have hr : (exactSum a (~~~b) cin).result = (exactDifference a b cin).result := by
    rw [Exact.result, exactSum_not_unsigned, BitVec.ofInt_add]
    exact BitVec.add_zero _
  have hc : (exactSum a (~~~b) cin).c = (exactDifference a b cin).c := by
    rw [exactSum_c, exactDifference_c, exactSum_not_unsigned]
    exact decide_eq_decide.mpr (by omega)
  have hv : (exactSum a (~~~b) cin).v = (exactDifference a b cin).v := by rw [Exact.v, exactSum_not_signed, Exact.v]
  rw [subWithCarry, addWithCarry_eq_exactSum, hr, hc, hv]

/-- Settles O22, by the exact difference as the exact sum with the complement. -/
theorem subtractionFormsAgree : Obligations.SubtractionFormsAgree :=
  fun a b cin => ⟨rfl, subWithCarry_eq_exactDifference a b cin⟩

end Sys2Proof.Machine
end

section
/-! Data processing where every read is known: the writes of the result in Rd and of the flags (R129 to R133), and with
them the results of the sixteen instructions. -/

namespace Sys2Proof.Machine

open Sys2Proof.Claims

/-! ### Writing the flags -/

theorem Flag.position_inj {f g : Flag} : f.position = g.position ↔ f = g := by
  cases f <;> cases g <;> decide

@[simp] theorem Psr.flag_setFlag (p : Psr) (f g : Flag) (b : Bool) : (p.setFlag f b).flag g = if f = g then b else p.flag g := by
  simp only [Psr.flag, Psr.bit_setFlag, Flag.position_inj]

@[simp] theorem Psr.knowsFlag_setFlag (p : Psr) (f g : Flag) (b : Bool) :
    (p.setFlag f b).knowsFlag g = (decide (f = g) || p.knowsFlag g) := by
  simp only [Psr.knowsFlag, Psr.knows_setFlag, Flag.position_inj]

theorem Psr.setNZ_eq (p : Psr) (r : Word) : p.setNZ r = (p.setFlag .n r.msb).setFlag .z (r == 0) := by
  rw [Psr.setNZ, bit31_eq_msb]
  rfl

/-- A logical operation writes N, Z and the shifter's carry, where this is a bit; V stays (R129, R130). -/
theorem Psr.setFlags_logical (p : Psr) (r : Word) (sc : ShiftCarry) :
    FlagsSet p (p.setFlags (logical r) sc) r.msb (r == 0) (carryOut sc) none := by
  refine ⟨?_, ?_, ?_, ?_, fun k hk => ⟨Psr.bit_setFlags_low p _ sc hk, Psr.knows_setFlags_low p _ sc hk⟩⟩ <;>
    cases sc <;> simp [Psr.setFlags, logical, Psr.setNZ_eq, Psr.setShiftCarry, carryOut]

/-- An arithmetic operation writes N, Z and its own C and V (R129, R131). -/
theorem Psr.setFlags_arith (p : Psr) (r : Word) (c v : Bool) (sc : ShiftCarry) :
    FlagsSet p (p.setFlags ⟨r, some (c, v)⟩ sc) r.msb (r == 0) (some c) (some v) := by
  refine ⟨?_, ?_, ?_, ?_, fun k hk => ⟨Psr.bit_setFlags_low p _ sc hk, Psr.knows_setFlags_low p _ sc hk⟩⟩ <;>
    simp [Psr.setFlags, Psr.setNZ_eq]

/-! ### The write of the result -/

/-- The value of Rn; 0 stands for it in MOV and MVN, which read none. -/
def rnValue (v : DpView) (s : State) : Word :=
  match v.rn with
  | some r => s.regValue r
  | none => 0

/-- An admitted instruction whose condition passes and whose reads are known writes what it computes from their values. -/
theorem exec_of_readable {i : Instr} {v : DpView} {s : State} (hv : dpView i = some v) (hp : Passes i s) (hr : v.Readable s) :
    ∃ sh, shifter v.op2 s = .ok sh ∧
      exec i s = outcome (dpFinish v (dpAlu i (rnValue v s) sh.operand (s.cpsr.flag .c)) sh.carry s) := by
  obtain ⟨sh, hsh, hb⟩ := dpBody_of_readable hr (dpAlu i)
  refine ⟨sh, hsh, ?_⟩
  rw [exec_of_passes (isCoprocessor_of_dpView hv) hp.1 hp.2, body_of_dpView hv, hb]
  rfl

/-- A compare writes the flags (R90). -/
theorem sf_of_rd_eq_none {i : Instr} {v : DpView} (hv : dpView i = some v) (hrd : v.rd = none) : v.sf = true := by
  cases i <;> cases hv
  case tst | teq | cmp | cmn => rfl
  all_goals cases hrd

/-- The writes of R133 but for Rd = r15: the result in Rd, where there is one, and with S = 1 the flags. -/
theorem dpFinish_of_rd_ne_r15 {i : Instr} {v : DpView} (hv : dpView i = some v) (hrd : v.rd ≠ some .r15) (out : AluOut)
    (sc : ShiftCarry) (s : State) :
    ∃ t, dpFinish v out sc s = .ok t ∧ Wrote s t v.rd out.result ∧
      t.cpsr = if v.sf then s.cpsr.setFlags out sc else s.cpsr := by
  unfold dpFinish
  cases h : v.rd with
  | none => exact ⟨_, rfl, by simp [Wrote, State.nextPc], by rw [sf_of_rd_eq_none hv h]; rfl⟩
  | some rd =>
    have hne : rd ≠ .r15 := fun e => hrd (by rw [h, e])
    refine ⟨_, if_neg hne, ?_, ?_⟩ <;> cases v.sf <;> simp [Wrote, State.getReg_writeReg, State.nextPc]

section
variable {i : Instr} {v : DpView} {s : State} (hv : dpView i = some v) (hrd : v.rd ≠ some .r15) (hp : Passes i s)
  (hr : v.Readable s)
include hv hrd hp hr

theorem logicalRuns_of_dpView {f : Word → Word} (hf : ∀ b, dpAlu i (rnValue v s) b (s.cpsr.flag .c) = logical (f b)) :
    LogicalRuns i v.sf v.rd v.op2 f s := by
  obtain ⟨sh, hsh, he⟩ := exec_of_readable hv hp hr
  obtain ⟨t, ht, hw, hc⟩ := dpFinish_of_rd_ne_r15 hv hrd (logical (f sh.operand)) sh.carry s
  rw [hf, ht] at he
  refine ⟨sh, t, hsh, he, hw, fun hsf => ?_, fun hsf => ?_⟩ <;> rw [hc, hsf]
  · rfl
  · exact Psr.setFlags_logical s.cpsr _ sh.carry

theorem arithmeticRuns_of_dpView {f : Word → Exact}
    (hf : ∀ b, dpAlu i (rnValue v s) b (s.cpsr.flag .c) = ⟨(f b).result, some ((f b).c, (f b).v)⟩) :
    ArithmeticRuns i v.sf v.rd v.op2 f s := by
  obtain ⟨sh, hsh, he⟩ := exec_of_readable hv hp hr
  obtain ⟨t, ht, hw, hc⟩ := dpFinish_of_rd_ne_r15 hv hrd _ sh.carry s
  rw [hf, ht] at he
  refine ⟨sh, t, hsh, he, hw, fun hsf => ?_, fun hsf => ?_⟩ <;> rw [hc, hsf]
  · rfl
  · exact Psr.setFlags_arith s.cpsr _ _ _ sh.carry

end

/-! ### The results -/

section
variable {i : Instr} {v : DpView} {s : State} {rn rd : RegNum}

theorem readable_of_rn (hrn : v.rn = some rn) (hn : Readable s rn) (hop : OperandReadable s v.op2)
    (hc : v.carryIn = true → CarryKnown s) : v.Readable s :=
  ⟨hop, fun _ h => Option.some.inj (hrn.symm.trans h) ▸ hn, hc⟩

theorem readable_of_rn_eq_none (hrn : v.rn = none) (hop : OperandReadable s v.op2) (hc : v.carryIn = false) : v.Readable s :=
  ⟨hop, by simp [hrn], by simp [hc]⟩

end

/-- Settles O23: the four compute their bitwise result from the values of Rn and the operand. -/
theorem logicalResults : Obligations.LogicalResults := by
  intro c sf rn rd op2 s hrd hn hop
  refine ⟨fun hp => ?_, fun hp => ?_, fun hp => ?_, fun hp => ?_⟩ <;>
    exact logicalRuns_of_dpView rfl (mt Option.some.inj hrd) hp (readable_of_rn rfl hn hop nofun) fun _ => rfl

/-- Settles O24: MOV and MVN compute their result from the operand alone. -/
theorem moveResults : Obligations.MoveResults := by
  intro c sf rd op2 s hrd hop
  refine ⟨fun hp => ?_, fun hp => ?_⟩ <;>
    exact logicalRuns_of_dpView rfl (mt Option.some.inj hrd) hp (readable_of_rn_eq_none rfl hop rfl) fun _ => rfl

/-- Settles O25, by addition and subtraction as the exact sum and difference. -/
theorem addSubtractResults : Obligations.AddSubtractResults := by
  intro c sf rn rd op2 s hrd hn hop
  refine ⟨fun hp => ?_, fun hp => ?_, fun hp => ?_⟩ <;>
    refine arithmeticRuns_of_dpView rfl (mt Option.some.inj hrd) hp (readable_of_rn rfl hn hop nofun) fun b => ?_
  · exact addWithCarry_eq_exactSum _ b false
  · exact subWithCarry_eq_exactDifference _ b true
  · exact subWithCarry_eq_exactDifference b _ true

/-- Settles O26, as O25, with the C flag, which is known, as carry-in. -/
theorem carryArithmeticResults : Obligations.CarryArithmeticResults := by
  intro c sf rn rd op2 s hrd hn hop hk
  refine ⟨fun hp => ?_, fun hp => ?_, fun hp => ?_⟩ <;>
    refine arithmeticRuns_of_dpView rfl (mt Option.some.inj hrd) hp (readable_of_rn rfl hn hop fun _ => hk) fun b => ?_
  · exact addWithCarry_eq_exactSum _ b _
  · exact subWithCarry_eq_exactDifference _ b _
  · exact subWithCarry_eq_exactDifference b _ _

/-- Settles O27: TST and TEQ compute as AND and EOR and have no Rd. -/
theorem testResults : Obligations.TestResults := by
  intro c rn op2 s hn hop
  refine ⟨fun hp => ?_, fun hp => ?_⟩ <;>
    exact logicalRuns_of_dpView rfl (Option.some_ne_none _).symm hp (readable_of_rn rfl hn hop nofun) fun _ => rfl

/-- Settles O28: CMP and CMN compute as SUB and ADD and have no Rd. -/
theorem compareResults : Obligations.CompareResults := by
  intro c rn op2 s hn hop
  refine ⟨fun hp => ?_, fun hp => ?_⟩ <;>
    refine arithmeticRuns_of_dpView rfl (Option.some_ne_none _).symm hp (readable_of_rn rfl hn hop nofun) fun b => ?_
  · exact subWithCarry_eq_exactDifference _ b true
  · exact addWithCarry_eq_exactSum _ b false

/-! ### Rd = r15 with S = 0 (R134) -/

theorem writePcDp_of_sf_false (r : Word) (s : State) :
    writePcDp r false s = if Bits.low2 r ≠ 0 then .error (unpredictable .misalignedPC) else .ok (s.setPc r) := rfl

theorem dpAlu_rnValue {i : Instr} {v : DpView} (hv : dpView i = some v) (s : State) (operand : Word) :
    (dpAlu i (rnValue v s) operand (s.cpsr.flag .c)).result = v.result s operand := dpAlu_result hv _ _ _

/-- Settles O29: the result goes to the pc, unless it is misaligned. -/
theorem pcDestinationWithoutS : Obligations.PcDestinationWithoutS := by
  intro i v s hv hrd hsf hp hr
  obtain ⟨sh, hsh, he⟩ := exec_of_readable hv hp hr
  rw [dpFinish, hrd, hsf] at he
  simp only [dpWrite, if_true, dpAlu_rnValue hv, writePcDp_of_sf_false] at he
  refine ⟨sh, hsh, fun ha => ?_, fun ha => ?_⟩
  · rw [if_neg (not_not.mpr (low2_eq_zero_iff.mpr ha))] at he
    exact he
  · rw [if_pos fun h0 => ha (low2_eq_zero_iff.mp h0)] at he
    exact he

end Sys2Proof.Machine
end

section
/-! The checks of stage 7 (R136, R156), which come before the condition, in every state. -/

namespace Sys2Proof.Machine

open Sys2Proof.Claims

/-- A check of the fields that stops an instruction stops it in every state. -/
theorem exec_of_check {i : Instr} {r : Reason} (h : check i = some (unpredictable r)) (s : State) :
    exec i s = .fault (.unpredictable r) := by
  rw [exec_eq_runGated, h, runGated_of_check]
  rfl

/-! ### Loads and stores (R156) -/

theorem baseWriteback_eq (p w : Bool) : baseWriteback p w = writtenBack p w := by cases p <;> cases w <;> rfl

section
variable (c : Cond) (p u w : Bool) (rn rd : RegNum) (off : Offset)

theorem check_ldr : check (ldr c p u w rn rd off) = transferCheck p w rn rd off.rm true false := by cases off <;> rfl
theorem check_ldrb : check (ldrb c p u w rn rd off) = transferCheck p w rn rd off.rm true true := by cases off <;> rfl
theorem check_str : check (str c p u w rn rd off) = transferCheck p w rn rd off.rm false false := by cases off <;> rfl
theorem check_strb : check (strb c p u w rn rd off) = transferCheck p w rn rd off.rm false true := by cases off <;> rfl

end

section
variable {i : Instr} {p w : Bool} {rn rd : RegNum} {rm : Option RegNum} {load byte : Bool}
  (hi : check i = transferCheck p w rn rd rm load byte) (s : State)
include hi

theorem exec_of_baseWriteback (h : rn = .r15 ∧ writtenBack p w = true) :
    exec i s = .fault (.unpredictable .r15BaseWriteback) := by
  refine exec_of_check (hi.trans ?_) s
  rw [transferCheck, baseWriteback_eq, if_pos h]

theorem exec_of_offsetRegister (hb : ¬ (rn = .r15 ∧ writtenBack p w = true)) (h : rm = some .r15) :
    exec i s = .fault (.unpredictable .r15OffsetRegister) := by
  refine exec_of_check (hi.trans ?_) s
  rw [transferCheck, baseWriteback_eq, if_neg hb, if_pos h]

theorem exec_of_loadBase (hb : ¬ (rn = .r15 ∧ writtenBack p w = true)) (hm : rm ≠ some .r15)
    (h : load = true ∧ writtenBack p w = true ∧ rn = rd) : exec i s = .fault (.unpredictable .loadBaseWriteback) := by
  refine exec_of_check (hi.trans ?_) s
  rw [transferCheck, baseWriteback_eq, if_neg hb, if_neg hm, if_pos h]

theorem exec_of_byteTransfer (hb : ¬ (rn = .r15 ∧ writtenBack p w = true)) (hm : rm ≠ some .r15)
    (hl : ¬ (load = true ∧ writtenBack p w = true ∧ rn = rd)) (h : byte = true ∧ rd = .r15) :
    exec i s = .fault (.unpredictable .r15ByteTransfer) := by
  refine exec_of_check (hi.trans ?_) s
  rw [transferCheck, baseWriteback_eq, if_neg hb, if_neg hm, if_neg hl, if_pos h]

end

/-! ### Register shifts (R136) -/

/-- The register fields of a data-processing instruction besides those of its operand. -/
def dpRegs (v : DpView) : List RegNum := v.rn.toList ++ v.rd.toList

theorem check_eq_dpCheck {i : Instr} {v : DpView} (hv : dpView i = some v) : check i = dpCheck v.op2 (dpRegs v) := by
  cases i <;> cases hv <;> rfl

theorem dpCheck_regShift {rs rm : RegNum} {type : ShiftType} {regs : List RegNum} (h : rs = .r15 ∨ rm = .r15 ∨ .r15 ∈ regs) :
    dpCheck (.regShift rs type rm) regs = some (unpredictable .r15InRegisterShift) := if_pos h

/-- Settles O14: each check of the chain stops where those before it do not. -/
theorem stageSevenChecksInOrder : Obligations.StageSevenChecksInOrder := by
  refine ⟨fun c p u w rn rd off s => ?_, fun i v s rs rm type hv hop h => ?_⟩
  · have loads {i : Instr} {byte : Bool} (hi : check i = transferCheck p w rn rd off.rm true byte) :=
      And.intro (exec_of_baseWriteback hi s) <| And.intro (exec_of_offsetRegister hi s) <|
        And.intro (fun hb hm hw hd => exec_of_loadBase hi s hb hm ⟨rfl, hw, hd⟩)
          fun hb hm (hl : ¬ (_ ∧ _)) hy hd => exec_of_byteTransfer hi s hb hm (fun h => hl h.2) ⟨hy, hd⟩
    have stores {i : Instr} {byte : Bool} (hi : check i = transferCheck p w rn rd off.rm false byte) :=
      And.intro (exec_of_baseWriteback hi s) <| And.intro (exec_of_offsetRegister hi s)
        fun hb hm hy hd => exec_of_byteTransfer hi s hb hm (fun h => Bool.false_ne_true h.1) ⟨hy, hd⟩
    exact ⟨loads (check_ldr ..), loads (check_ldrb ..), stores (check_str ..), stores (check_strb ..)⟩
  · have hregs : v.rn = some .r15 ∨ v.rd = some .r15 → .r15 ∈ dpRegs v := by simp [dpRegs]
    refine exec_of_check ?_ s
    rw [check_eq_dpCheck hv, hop]
    exact dpCheck_regShift (h.imp_right (Or.imp_right hregs))

end Sys2Proof.Machine
end

section
/-! The frames of the data-processing instructions: what each leaves unchanged where it completes. -/

namespace Sys2Proof.Machine

open Sys2Proof.Claims

/-! ### All that a data-processing instruction can do -/

/-- A data-processing instruction that completes failed its condition and only advanced, or made its writes. -/
theorem dp_next {i : Instr} {v : DpView} {s t : State} (hv : dpView i = some v) (h : exec i s = .next t) :
    t = s.setPc s.nextPc ∨ ∃ a b c sc, dpFinish v (dpAlu i a b c) sc s = .ok t := by
  rw [exec_eq_runGated] at h
  obtain ⟨-, -, ⟨-, ht⟩ | ⟨-, hb⟩⟩ := runGated_next.mp h
  · exact .inl ht
  · rw [body_of_dpView hv] at hb
    obtain ⟨sh, -, hb⟩ := Except.bind_ok.mp hb
    obtain ⟨a, -, hb⟩ := Except.bind_ok.mp hb
    obtain ⟨c, -, hb⟩ := Except.bind_ok.mp hb
    exact .inr ⟨a, sh.operand, c, sh.carry, hb⟩

theorem isStore_of_dpView {i : Instr} {v : DpView} (hv : dpView i = some v) : i.isStore = false := by
  cases i <;> cases hv <;> rfl

theorem isLoad_of_dpView {i : Instr} {v : DpView} (hv : dpView i = some v) : i.isLoad = false := by
  cases i <;> cases hv <;> rfl

/-- What no data-processing instruction changes: memory, the record of accesses, the parameters and the SPSRs. -/
theorem dp_keeps {i : Instr} {v : DpView} {s t : State} (hv : dpView i = some v) (h : exec i s = .next t) :
    (∀ a, Memory.readByte t.mem a = Memory.readByte s.mem a) ∧ t.events = s.events ∧ t.params = s.params ∧
      t.spsrs = s.spsrs := by
  have e := exec_effect h
  have hm := e.mem (isStore_of_dpView hv)
  have he : t.events = s.events := by simpa [isStore_of_dpView hv, isLoad_of_dpView hv, hm] using e.accesses
  exact ⟨fun a => by rw [hm], he, e.params, e.spsrs⟩

/-! ### The V flag (R130) -/

/-- A logical operation has no V of its own. -/
theorem dpAlu_of_not_arith {i : Instr} {v : DpView} (hv : dpView i = some v) (ha : v.arith = false) (a b : Word) (c : Bool) :
    dpAlu i a b c = logical (dpAlu i a b c).result := by
  cases i <;> cases hv
  case sub | rsb | add | adc | sbc | rsc | cmp | cmn => cases ha
  all_goals rfl

/-- Writing the flags of a logical operation leaves V. -/
theorem flagV_setFlags {i : Instr} {v : DpView} (hv : dpView i = some v) (ha : v.arith = false) (a b : Word) (c : Bool)
    (sc : ShiftCarry) (p : Psr) :
    (p.setFlags (dpAlu i a b c) sc).flag .v = p.flag .v ∧ (p.setFlags (dpAlu i a b c) sc).knowsFlag .v = p.knowsFlag .v := by
  rw [dpAlu_of_not_arith hv ha]
  obtain ⟨-, -, -, hV, -⟩ := Psr.setFlags_logical p (dpAlu i a b c).result sc
  exact hV

/-! ### The frames -/

/-- Settles O40, from the shapes of the write of Rd: the pc alone, Rd without and with the flags, a jump, a return. -/
theorem dataProcessingFrame : Obligations.DataProcessingFrame := by
  intro i v rd s t hv hrd h
  obtain ⟨hmem, hevents, hparams, hspsrs⟩ := dp_keeps hv h
  refine ⟨hmem, hevents, hparams, hspsrs, ?_⟩
  rcases dp_next hv h with rfl | ⟨a, b, c, sc, hw⟩
  · simp
  · rw [dpFinish, hrd] at hw
    rcases dpWrite_ok hw with ⟨hne, hsf, rfl⟩ | ⟨hne, hsf, rfl⟩ | ⟨hpc, hsf, -, rfl⟩ | ⟨hpc, hsf, u, hu, -, rfl⟩
    · simp +contextual [hne, hsf, State.getReg_writeReg]
    · refine ⟨fun q hq => ?_, by simp [hsf], fun _ k hk => ?_, fun _ ha => ?_, fun _ e => absurd e hne, fun _ => by simp⟩
      · simp [State.getReg_writeReg, hq]
      · simp [Psr.bit_setFlags_low, Psr.knows_setFlags_low, hk]
      · simpa using flagV_setFlags hv ha a b c sc s.cpsr
    · simp [hpc, hsf]
    · obtain ⟨bk, m, hbk, -, -, rfl⟩ := State.restoreCpsr_ok hu
      exact ⟨fun q _ => rfl, by simp [hsf], fun hne => absurd hpc hne, fun hne => absurd hpc hne,
        fun _ _ => .inr ⟨bk, hbk, rfl⟩, by simp [hpc, hsf]⟩

/-- Settles O41: a compare that completes only advanced, or wrote the flags. -/
theorem compareFrame : Obligations.CompareFrame := by
  intro i v s t hv hrd h
  obtain ⟨hmem, hevents, hparams, hspsrs⟩ := dp_keeps hv h
  refine ⟨hmem, hevents, hparams, hspsrs, ?_⟩
  rcases dp_next hv h with rfl | ⟨a, b, c, sc, hw⟩
  · simp
  · rw [dpFinish, hrd] at hw
    obtain rfl := Except.ok.inj hw
    exact ⟨rfl, rfl, rfl, fun k hk => ⟨Psr.bit_setFlags_low s.cpsr _ sc hk, Psr.knows_setFlags_low s.cpsr _ sc hk⟩,
      fun ha => flagV_setFlags hv ha a b c sc s.cpsr⟩

end Sys2Proof.Machine
end

section
/-! The loads and stores where every read is known: the address that a transfer computes, what it loads or stores
there, and with them its next state (R154 to R161). -/

namespace Sys2Proof.Machine

open Sys2Proof.Claims

/-! ### The aligned word and what it holds (R52) -/

theorem align4_eq_wordBelow (a : Word) : Bits.align4 a = wordBelow a := align4_eq a

theorem loadedWord_eq_loaded (s : State) (ea : Word) : loadedWord s.mem ea = loaded s ea := by
  rw [loadedWord, low2_toNat, rotateRight32_eq _ (by omega), align4_eq_wordBelow, loaded]

theorem zext_byte (b : Byte) : Bits.zext b = BitVec.ofNat 32 b.toNat := (BitVec.ofNat_toNat 32 b).symm

/-! ### The address (R154, R155) -/

theorem registerOffset_eq_shifter (rm : RegNum) (type : ShiftType) (amount : BitVec 5) (s : State) :
    registerOffset rm type amount s = (shifter (.immShift amount type rm) s >>= fun out => .ok out.operand) := by
  rw [registerOffset, shifter]
  cases s.readReg rm <;> rfl

/-- An offset whose reads are known has its value; the register form is the operand of the table of R118 (O19). -/
theorem offset_read_of_readable {off : Offset} {s : State} (h : OffsetReadable s off) : off.read s = .ok (off.value s) := by
  cases off with
  | imm o => exact congrArg Except.ok (BitVec.ofNat_toNat 32 o).symm
  | reg amount type rm =>
    obtain ⟨hrm, hc⟩ := h
    obtain ⟨hlsl, hlsr, hasr, hrrx, -, hshift⟩ := immediateShiftTable s rm hrm
    rw [Offset.read, registerOffset_eq_shifter]
    by_cases ha : amount = 0
    · subst ha
      cases type with
      | lsl => rw [hlsl]; rfl
      | lsr => rw [hlsr]; rfl
      | asr => rw [hasr]; rfl
      | ror => rw [hrrx (hc rfl)]; rfl
    · rw [hshift amount type ha]
      exact congrArg Except.ok (if_neg ha).symm

/-- The address computation is that of the claims, field by field. -/
theorem effectiveAddress_eq (p u w : Bool) (base offset : Word) :
    effectiveAddress p u w base offset = ⟨accessAt p u base offset, moved u base offset, writtenBack p w⟩ := rfl

/-- A transfer that passes, with its base and offset known, is its access at the address they give. -/
theorem exec_of_transferBody {i : Instr} {access : Transfer} {p u w : Bool} {rn rd : RegNum} {off : Offset} {s : State}
    (hi : i.isCoprocessor = false) (hb : body i s = transferBody access p u w rn rd off s) (hp : Passes i s)
    (hn : Readable s rn) (ho : OffsetReadable s off) :
    exec i s = outcome (access (effectiveAddress p u w (s.regValue rn) (off.value s)) (userAccess p w) rn rd s) := by
  rw [exec_of_passes hi hp.1 hp.2, hb, transferBody, State.readReg_of_known hn, offset_read_of_readable ho]
  rfl

/-! ### The registers after a transfer (R155) -/

/-- The write of a loaded register comes after the base writeback. -/
theorem transferred_writeBack_writeReg (s : State) (e : MemEvent) (a : Address) (rn rd : RegNum) (v pc : Word) :
    Transferred s ((((s.record e).writeBack rn a).writeReg rd v).setPc pc) rn a.wb a.addr (some rd) v := by
  refine ⟨fun q => ?_, ?_, ?_, ?_, ?_, ?_⟩
  · simp only [State.setPc_getReg, State.getReg_writeReg, State.getReg_writeBack, State.writeBack_mode, State.record_mode]
    rfl
  all_goals simp

theorem transferred_writeBack (s : State) (m : Memory) (e : MemEvent) (a : Address) (rn : RegNum) (v pc : Word) :
    Transferred s (((({ s with mem := m } : State).record e).writeBack rn a).setPc pc) rn a.wb a.addr none v := by
  refine ⟨fun q => ?_, ?_, ?_, ?_, ?_, ?_⟩
  · simp only [State.setPc_getReg, State.getReg_writeBack, State.record_mode]
    rfl
  all_goals simp

/-! ### The accesses (R158 to R161) -/

section
variable (a : Address) (user : Bool) (rn : RegNum) {rd : RegNum} {s : State}

theorem loadWord_of_ne_r15 (h : rd ≠ .r15) : loadWord a user rn rd s =
    .ok ((((s.record ⟨.read, wordBelow a.ea, .word, Memory.readWord s.mem (wordBelow a.ea), user⟩).writeBack rn a).writeReg rd
      (loaded s a.ea)).setPc s.nextPc) := by
  rw [loadWord, if_neg h, loadedWord_eq_loaded, align4_eq_wordBelow]

theorem loadWord_r15 : loadWord a user rn .r15 s =
    .ok (((s.record ⟨.read, wordBelow a.ea, .word, Memory.readWord s.mem (wordBelow a.ea), user⟩).writeBack rn a).setPc
      (wordBelow (loaded s a.ea))) := by
  rw [loadWord, if_pos rfl, loadedWord_eq_loaded, align4_eq_wordBelow, ← align4_eq_wordBelow (loaded s a.ea)]
  rfl

theorem loadByte_eq : loadByte a user rn rd s =
    .ok ((((s.record ⟨.read, a.ea, .byte, BitVec.ofNat 32 (Memory.readByte s.mem a.ea).toNat, user⟩).writeBack rn a).writeReg rd
      (BitVec.ofNat 32 (Memory.readByte s.mem a.ea).toNat)).setPc s.nextPc) := by
  rw [loadByte, zext_byte]

/-- The prefetch check passes where no stored byte lies in the window (R186). -/
theorem hitsPrefetch_eq_false_iff {b : Word} {n : Nat} :
    hitsPrefetch s.pc b n = false ↔ ∀ k, k < n → ¬ InWindow s (b + BitVec.ofNat 32 k) := by
  simp [hitsPrefetch, inPrefetchWindow, InWindow]

theorem storeValue_of_readable (h : Readable s rd) : storeValue rd s = .ok (stored s rd) := by
  unfold storeValue stored
  split
  · cases s.params.strPcOffset <;> rfl
  · exact State.readReg_of_known h

theorem storeWord_of_readable (hd : Readable s rd)
    (hw : ∀ k, k < 4 → ¬ InWindow s (wordBelow a.ea + BitVec.ofNat 32 k)) : storeWord a user rn rd s =
    .ok (((({ s with mem := Memory.writeWord s.mem (wordBelow a.ea) (stored s rd) } : State).record
      ⟨.write, wordBelow a.ea, .word, stored s rd, user⟩).writeBack rn a).setPc s.nextPc) := by
  rw [storeWord, storeValue_of_readable hd, align4_eq_wordBelow, hitsPrefetch_eq_false_iff.mpr hw]
  rfl

theorem storeByte_of_readable (hd : Readable s rd) (hw : ¬ InWindow s a.ea) : storeByte a user rn rd s =
    .ok (((({ s with mem := Memory.writeByte s.mem a.ea ((s.regValue rd).extractLsb' 0 8) } : State).record
      ⟨.write, a.ea, .byte, BitVec.ofNat 32 ((s.regValue rd).extractLsb' 0 8).toNat, user⟩).writeBack rn a).setPc
        s.nextPc) := by
  have hp : hitsPrefetch s.pc a.ea 1 = false := by
    refine hitsPrefetch_eq_false_iff.mpr fun k hk => ?_
    simpa [Nat.lt_one_iff.mp hk] using hw
  rw [storeByte, State.readReg_of_known hd, hp, ← zext_byte]
  rfl

end

/-! ### The results -/

/-- Settles O32: the load at the address of R155, whose rotation is that of the claims. -/
theorem loadWordResult : Obligations.LoadWordResult := by
  intro c p u w rn rd off s hrd hp hn ho
  have he := exec_of_transferBody (isCoprocessor_ldr ..) (body_ldr ..) hp hn ho
  rw [loadWord_of_ne_r15 _ _ _ hrd] at he
  exact ⟨_, he, transferred_writeBack_writeReg s _ _ rn rd _ _, rfl, by simp, by simp [effectiveAddress_eq, userAccess]⟩

/-- Settles O33: for r15 the value goes to the pc, its low bits cleared, and no register word is loaded. -/
theorem loadWordIntoPc : Obligations.LoadWordIntoPc := by
  intro c p u w rn off s hp hn ho
  have he := exec_of_transferBody (isCoprocessor_ldr ..) (body_ldr ..) hp hn ho
  rw [loadWord_r15] at he
  exact ⟨_, he, transferred_writeBack s s.mem _ _ rn _ _, rfl, by simp, by simp [effectiveAddress_eq, userAccess]⟩

/-- Settles O34: the byte loaded is the one at the address, zero-extended. -/
theorem loadByteResult : Obligations.LoadByteResult := by
  intro c p u w rn rd off s hp hn ho
  have he := exec_of_transferBody (isCoprocessor_ldrb ..) (body_ldrb ..) hp hn ho
  rw [loadByte_eq] at he
  exact ⟨_, he, transferred_writeBack_writeReg s _ _ rn rd _ _, rfl, by simp, by simp [effectiveAddress_eq, userAccess]⟩

/-- Settles O35: the store outside the window, and the byte that a read returns after it. -/
theorem storeWordResult : Obligations.StoreWordResult := by
  intro c p u w rn rd off s hm hp hn ho hd base at4 hw
  have he := exec_of_transferBody (isCoprocessor_str ..) (body_str ..) hp hn ho
  rw [storeWord_of_readable (effectiveAddress p u w base (off.value s)) _ _ hd hw] at he
  refine ⟨_, he, transferred_writeBack s _ _ _ rn _ _, rfl, by simp [effectiveAddress_eq, userAccess, at4, base], fun b => ?_⟩
  simp only [State.setPc_mem, State.writeBack_mem, State.record_mem]
  exact Memory.readByte_writeWord hm at4 b (stored s rd)

/-- Settles O36, as O35 for one byte. -/
theorem storeByteResult : Obligations.StoreByteResult := by
  intro c p u w rn rd off s hm hp hn ho hd base ea v hw
  have he := exec_of_transferBody (isCoprocessor_strb ..) (body_strb ..) hp hn ho
  rw [storeByte_of_readable (effectiveAddress p u w base (off.value s)) _ _ hd hw] at he
  refine ⟨_, he, transferred_writeBack s _ _ _ rn _ _, rfl, by simp [effectiveAddress_eq, userAccess, ea, base, v], fun b => ?_⟩
  simp only [State.setPc_mem, State.writeBack_mem, State.record_mem, eq_comm (a := b)]
  exact Memory.readByte_writeByte hm ea b v

end Sys2Proof.Machine
end

section
/-! The frames of the loads and stores: what each leaves unchanged where it completes (R155, R158 to R161). -/

namespace Sys2Proof.Machine

open Sys2Proof.Claims

/-- A transfer that completes failed its condition and only advanced, or made its access at the address that its base and
offset give. -/
theorem transfer_next {i : Instr} {access : Transfer} {p u w : Bool} {rn rd : RegNum} {off : Offset} {s t : State}
    (hb : body i s = transferBody access p u w rn rd off s) (h : exec i s = .next t) :
    t = s.setPc s.nextPc ∨ ∃ base offset, s.readReg rn = .ok base ∧ off.read s = .ok offset ∧
      access (effectiveAddress p u w base offset) (userAccess p w) rn rd s = .ok t := by
  rw [exec_eq_runGated] at h
  obtain ⟨-, -, ⟨-, ht⟩ | ⟨-, ht⟩⟩ := runGated_next.mp h
  · exact .inl ht
  · rw [hb] at ht
    obtain ⟨base, hbase, ht⟩ := Except.bind_ok.mp ht
    obtain ⟨offset, hoffset, ht⟩ := Except.bind_ok.mp ht
    exact .inr ⟨base, offset, hbase, hoffset, ht⟩

/-! ### What every transfer keeps -/

/-- The registers that a transfer keeps: the status registers, the mode, and every word but that of a loaded Rd and that of
a base written back.  The parameters stay too. -/
def KeptByTransfer (s t : State) (rn : RegNum) (wb : Bool) (rd : Option RegNum) : Prop :=
  t.cpsr = s.cpsr ∧ t.spsrs = s.spsrs ∧ t.mode = s.mode ∧ t.spsrSlot = s.spsrSlot ∧ t.params = s.params ∧
  ∀ q, (rd.bind fun r => bankReg r s.mode) ≠ some q → ¬ (wb = true ∧ bankReg rn s.mode = some q) →
    t.getReg q = s.getReg q

theorem keptByTransfer_setPc (s : State) (v : Word) (rn : RegNum) (wb : Bool) (rd : Option RegNum) :
    KeptByTransfer s (s.setPc v) rn wb rd := ⟨rfl, rfl, rfl, rfl, rfl, fun _ _ _ => rfl⟩

theorem keptByTransfer_of_transferred {s t : State} {rn : RegNum} {wb : Bool} {addr v : Word} {rd : Option RegNum}
    (h : Transferred s t rn wb addr rd v) : KeptByTransfer s t rn wb rd := by
  obtain ⟨hreg, hmode, hcpsr, hspsrs, hslot, hparams⟩ := h
  refine ⟨hcpsr, hspsrs, hmode, hslot, hparams, fun q hd hn => ?_⟩
  rw [hreg, if_neg hd, if_neg hn]

/-- A store loads no Rd, so the words it keeps are all but that of a base written back. -/
theorem keptByTransfer_none {s t : State} {rn : RegNum} {wb : Bool} (h : KeptByTransfer s t rn wb none) :
    t.cpsr = s.cpsr ∧ t.spsrs = s.spsrs ∧ t.mode = s.mode ∧ t.spsrSlot = s.spsrSlot ∧ t.params = s.params ∧
      ∀ q, ¬ (wb = true ∧ bankReg rn s.mode = some q) → t.getReg q = s.getReg q := by
  simpa [KeptByTransfer] using h

/-! ### What each access keeps -/

/-- A word write leaves the bytes outside its word, also where memory is not in canonical form. -/
theorem Memory.readByte_writeWord_of_le (m : Memory) {b c : Word} (v : Word) (h : 4 ≤ (c - b).toNat) :
    Memory.readByte (Memory.writeWord m b v) c = Memory.readByte m c := by
  have hne := mt (sub_toNat_lt_four_iff b c).mpr (Nat.not_lt.mpr h)
  push Not at hne
  obtain ⟨n0, n1, n2, n3⟩ := hne
  exact Memory.readByte_writeWord_other m v n0.symm n1.symm n2.symm n3.symm

section
variable {a : Address} {user : Bool} {rn rd : RegNum} {s t : State}

theorem loadWord_keeps (h : loadWord a user rn rd s = .ok t) : KeptByTransfer s t rn a.wb (some rd) ∧ t.mem = s.mem := by
  rcases loadWord_ok h with ⟨rfl, rfl⟩ | ⟨-, rfl⟩
  · exact ⟨keptByTransfer_of_transferred (transferred_writeBack s s.mem _ a rn 0 _), by simp⟩
  · exact ⟨keptByTransfer_of_transferred (transferred_writeBack_writeReg s _ a rn rd _ _), by simp⟩

theorem loadByte_keeps (h : loadByte a user rn rd s = .ok t) : KeptByTransfer s t rn a.wb (some rd) ∧ t.mem = s.mem := by
  rw [loadByte_ok h]
  exact ⟨keptByTransfer_of_transferred (transferred_writeBack_writeReg s _ a rn rd _ _), by simp⟩

theorem storeWord_keeps (h : storeWord a user rn rd s = .ok t) : KeptByTransfer s t rn a.wb none ∧
    ∀ b, 4 ≤ (b - Bits.align4 a.ea).toNat → Memory.readByte t.mem b = Memory.readByte s.mem b := by
  obtain ⟨v, -, -, rfl⟩ := storeWord_ok h
  refine ⟨keptByTransfer_of_transferred (transferred_writeBack s _ _ a rn 0 _), fun b hb => ?_⟩
  simpa using Memory.readByte_writeWord_of_le s.mem v hb

theorem storeByte_keeps (h : storeByte a user rn rd s = .ok t) : KeptByTransfer s t rn a.wb none ∧
    ∀ b, b ≠ a.ea → Memory.readByte t.mem b = Memory.readByte s.mem b := by
  obtain ⟨v, -, -, rfl⟩ := storeByte_ok h
  refine ⟨keptByTransfer_of_transferred (transferred_writeBack s _ _ a rn 0 _), fun b hb => ?_⟩
  simpa using Memory.readByte_writeByte_other s.mem hb.symm (Bits.byteOf v 0)

end

/-! ### The frames -/

/-- A load that completes keeps what its access keeps. -/
theorem load_keeps {i : Instr} {access : Transfer} {p u w : Bool} {rn rd : RegNum} {off : Offset} {s t : State}
    (hb : body i s = transferBody access p u w rn rd off s)
    (ha : ∀ {a user}, access a user rn rd s = .ok t → KeptByTransfer s t rn a.wb (some rd) ∧ t.mem = s.mem)
    (h : exec i s = .next t) : KeptByTransfer s t rn (writtenBack p w) (some rd) ∧ t.mem = s.mem := by
  rcases transfer_next hb h with rfl | ⟨base, offset, -, -, hacc⟩
  · exact ⟨keptByTransfer_setPc .., rfl⟩
  · exact ha hacc

/-- A store that completes keeps what its access keeps, at the address that its base and offset give. -/
theorem store_keeps {i : Instr} {access : Transfer} {p u w : Bool} {rn rd : RegNum} {off : Offset} {s t : State}
    {Outside : Word → Word → Prop} (hb : body i s = transferBody access p u w rn rd off s)
    (ha : ∀ {a user}, access a user rn rd s = .ok t → KeptByTransfer s t rn a.wb none ∧
      ∀ b, Outside a.ea b → Memory.readByte t.mem b = Memory.readByte s.mem b)
    (h : exec i s = .next t) : KeptByTransfer s t rn (writtenBack p w) none ∧
      ∀ base offset, s.readReg rn = .ok base → off.read s = .ok offset → ∀ b, Outside (accessAt p u base offset) b →
        Memory.readByte t.mem b = Memory.readByte s.mem b := by
  rcases transfer_next hb h with rfl | ⟨base, offset, hbase, hoffset, hacc⟩
  · exact ⟨keptByTransfer_setPc .., fun _ _ _ _ _ _ => rfl⟩
  · obtain ⟨hkept, hmem⟩ := ha hacc
    refine ⟨hkept, fun base' offset' hbase' hoffset' => ?_⟩
    obtain rfl : base = base' := Except.ok.inj (hbase.symm.trans hbase')
    obtain rfl : offset = offset' := Except.ok.inj (hoffset.symm.trans hoffset')
    exact hmem

/-- Settles O43: either load keeps memory and, by the registers after its access, all but Rd and the base. -/
theorem loadFrame : Obligations.LoadFrame := by
  intro c p u w rn rd off s t h
  obtain ⟨hkept, hmem⟩ : KeptByTransfer s t rn (writtenBack p w) (some rd) ∧ t.mem = s.mem :=
    h.elim (load_keeps (body_ldr ..) loadWord_keeps) (load_keeps (body_ldrb ..) loadByte_keeps)
  exact ⟨fun a => by rw [hmem], hkept⟩

/-- Settles O44: a store keeps what its access keeps, at the one address that the reads of base and offset give. -/
theorem storeFrame : Obligations.StoreFrame := by
  intro c p u w rn rd off s t
  refine ⟨fun h => ?_, fun h => ?_⟩
  · obtain ⟨hkept, hmem⟩ := store_keeps (Outside := fun ea b => 4 ≤ (b - Bits.align4 ea).toNat) (body_str ..)
      storeWord_keeps h
    exact ⟨keptByTransfer_none hkept, hmem⟩
  · obtain ⟨hkept, hmem⟩ := store_keeps (Outside := fun ea b => b ≠ ea) (body_strb ..) storeByte_keeps h
    exact ⟨keptByTransfer_none hkept, hmem⟩

end Sys2Proof.Machine
end

section
/-! The branches: their target over the integers, their next state where the condition passes, and their frames
(R162 to R164). -/

namespace Sys2Proof.Machine

open Sys2Proof.Claims

/-! ### The target -/

/-- The offset field with two zero bits below it, sign-extended, is four times the signed offset (R89). -/
theorem sext_append_zeros (offset : BitVec 24) : Bits.sext (offset ++ 0b00#2) = BitVec.ofInt 32 (4 * offset.toInt) := by
  rw [Bits.sext, BitVec.signExtend, BitVec.toInt_append_zero]
  rfl

theorem branchTarget_eq_ofInt (pc : Word) (offset : BitVec 24) :
    branchTarget pc offset = BitVec.ofInt 32 (pc.toNat + 8 + 4 * offset.toInt) := by
  have hpc : BitVec.ofInt 32 pc.toNat = pc := by rw [BitVec.ofInt_natCast, BitVec.ofNat_toNat, BitVec.setWidth_eq]
  rw [branchTarget, sext_append_zeros, BitVec.ofInt_add, BitVec.ofInt_add, hpc]
  rfl

/-- Settles O38: the reach is four times the range of a signed 24-bit number. -/
theorem branchTargetArithmetic : Obligations.BranchTargetArithmetic := by
  intro pc offset
  have hlo : -2 ^ 23 ≤ offset.toInt := BitVec.le_toInt offset
  have hhi : offset.toInt < 2 ^ 23 := BitVec.toInt_lt
  refine ⟨branchTarget_eq_ofInt pc offset, by omega, by omega, fun h => ?_⟩
  exact low2_eq_zero_iff.mp (low2_branchTarget (low2_eq_zero_iff.mpr h) offset)

/-! ### The next state -/

/-- Settles O39: a branch that passes is its body; the link is the write of r14, which reaches the general words alone. -/
theorem branchResults : Obligations.BranchResults := by
  intro c offset s
  rw [← branchTarget_eq_ofInt]
  refine ⟨fun ⟨hw, hc⟩ => exec_of_passes rfl hw hc, fun ⟨hw, hc⟩ => ⟨_, exec_of_passes rfl hw hc, ?_, fun q => ?_⟩⟩
  · obtain ⟨p, hp⟩ := bankReg_some (r := .r14) (by decide) s.mode
    rw [State.writeReg_eq_with_regs hp]
    rfl
  · exact State.getReg_writeReg s .r14 s.nextPc q

/-! ### The frames -/

/-- An instruction that completes and whose body cannot stop failed its condition and only advanced, or is in its body's
state. -/
theorem next_of_body_ok {i : Instr} {s t u : State} (hb : body i s = .ok u) (h : exec i s = .next t) :
    t = s.setPc s.nextPc ∨ t = u := by
  rw [exec_eq_runGated] at h
  obtain ⟨-, -, ⟨-, ht⟩ | ⟨-, ht⟩⟩ := runGated_next.mp h
  · exact .inl ht
  · exact .inr (Except.ok.inj (ht.symm.trans hb))

/-- Settles O42: a branch that completes wrote the pc and, where BL passed, r14. -/
theorem branchFrame : Obligations.BranchFrame := by
  intro c offset s t
  refine ⟨fun h => ?_, fun h => ?_⟩
  · obtain rfl | rfl := next_of_body_ok rfl h <;> simp
  · obtain rfl | rfl := next_of_body_ok rfl h
    · simp
    · simp +contextual [State.getReg_writeReg]

end Sys2Proof.Machine
end

section
/-! The coprocessor instructions: each stops as unimplemented in every state, and so does a step on any of their words
(R165 to R168). -/

namespace Sys2Proof.Machine

open Sys2Proof.Claims

/-! ### The instructions -/

theorem exec_cdp (c : Cond) (opc1 crn crd cp : BitVec 4) (opc2 : BitVec 3) (crm : BitVec 4) (s : State) :
    exec (.cdp c opc1 crn crd cp opc2 crm) s = .refused (.unimplemented .cdp) := rfl

theorem exec_mcr (c : Cond) (opc1 : BitVec 3) (crn : BitVec 4) (rd : RegNum) (cp : BitVec 4) (opc2 : BitVec 3)
    (crm : BitVec 4) (s : State) : exec (.mcr c opc1 crn rd cp opc2 crm) s = .refused (.unimplemented .mcr) := rfl

theorem exec_mrc (c : Cond) (opc1 : BitVec 3) (crn : BitVec 4) (rd : RegNum) (cp : BitVec 4) (opc2 : BitVec 3)
    (crm : BitVec 4) (s : State) : exec (.mrc c opc1 crn rd cp opc2 crm) s = .refused (.unimplemented .mrc) := rfl

/-! ### The words -/

/-- A step on a word with the fixed bits of a table entry executes what the entry builds from the word's fields. -/
theorem step_of_fixedBits {s : State} {e : TableEntry} (hs : Starts s)
    (h : fetchWord s &&& e.fixedBits.1 = e.fixedBits.2) :
    step s = exec (e.build (e.pattern.fieldMapAt (fetchWord s))) s.fetched :=
  step_of_starts hs (decodeWord_eq_some_iff.mpr ⟨e, h, rfl⟩)

/-- Settles O16. The fixed bits alone make a word one of CDP, MCR or MRC, which no field, condition or state keeps from
its stop. -/
theorem coprocessorWordsUnimplemented : Obligations.CoprocessorWordsUnimplemented := by
  refine ⟨fun s hs => ⟨fun h => ?_, fun h => ?_, fun h => ?_⟩, exec_cdp, exec_mcr, exec_mrc⟩
  · exact (step_of_fixedBits (e := .cdp) hs h).trans (exec_cdp ..)
  · exact (step_of_fixedBits (e := .mcr) hs h).trans (exec_mcr ..)
  · exact (step_of_fixedBits (e := .mrc) hs h).trans (exec_mrc ..)

end Sys2Proof.Machine
end

section
/-! The prefetch hazard: a store whose reads are known and that touches the two words after the instruction stops, with
no other effect (R186, D29). -/

namespace Sys2Proof.Machine

open Sys2Proof.Claims

/-- The check hits exactly where some byte of the access lies in the window. -/
theorem hitsPrefetch_iff {s : State} {b : Word} {n : Nat} :
    hitsPrefetch s.pc b n = true ↔ ∃ k, k < n ∧ InWindow s (b + BitVec.ofNat 32 k) := by
  rw [← not_iff_not, Bool.not_eq_true, hitsPrefetch_eq_false_iff]
  push Not
  rfl

section
variable (a : Address) (user : Bool) (rn : RegNum) {rd : RegNum} {s : State}

theorem storeWord_of_inWindow (hd : Readable s rd)
    (hw : ∃ k, k < 4 ∧ InWindow s (wordBelow a.ea + BitVec.ofNat 32 k)) :
    storeWord a user rn rd s = .error (unpredictable .selfModifyPrefetch) := by
  rw [storeWord, storeValue_of_readable hd, align4_eq_wordBelow, hitsPrefetch_iff.mpr hw]
  rfl

/-- The one byte of the access is the one at offset 0. -/
theorem storeByte_of_inWindow (hd : Readable s rd) (hw : InWindow s a.ea) :
    storeByte a user rn rd s = .error (unpredictable .selfModifyPrefetch) := by
  have hp : hitsPrefetch s.pc a.ea 1 = true := hitsPrefetch_iff.mpr ⟨0, by omega, by rwa [BitVec.add_zero]⟩
  rw [storeByte, State.readReg_of_known hd, hp]
  rfl

end

/-- Settles O37: the store reaches its access, whose check comes after every read and before the write. -/
theorem storeIntoPrefetchWindowStops : Obligations.StoreIntoPrefetchWindowStops := by
  intro c p u w rn rd off s hn ho hd ea
  let a := effectiveAddress p u w (s.regValue rn) (off.value s)
  refine ⟨fun hp hw => ?_, fun hp hw => ?_⟩
  · rw [exec_of_transferBody (isCoprocessor_str ..) (body_str ..) hp hn ho, storeWord_of_inWindow a _ _ hd hw]
    rfl
  · rw [exec_of_transferBody (isCoprocessor_strb ..) (body_strb ..) hp hn ho, storeByte_of_inWindow a _ _ hd hw]
    rfl

end Sys2Proof.Machine
end
